-- ==== Sys2Proof/Word.lean ====
section
/-! DEFINITION. The word types of the block: a 32-bit register or command word (R10, R21, R90)
and an 8-bit symbol, count or buffer byte (R5, R36, R37). -/

namespace Sys2Proof

/-- A host-visible register or a command word: one indivisible 32-bit number (R61). -/
abbrev Word := BitVec 32

/-- One byte of a buffer, a count byte, or a symbol (R5). -/
abbrev Byte := BitVec 8

end Sys2Proof
end

