-- ==== Sys2Proof/Syntax.lean ====
section
/-! DEFINITION. The five commands of the block, one constructor per row of the opcode table (R92). -/

namespace Sys2Proof

/-- A command (R92). The block fetches no instructions (R43): a command arrives as a 32-bit word that
the host writes to register CMD. -/
inductive Instr where
  /-- CLR: return the registers and flags to their reset values, keeping IBUF (R200). -/
  | clr
  /-- LDT: parse one table definition from IBUF into HT (R120). -/
  | ldt
  /-- BLD: build CMAP from HT (R141). -/
  | bld
  /-- DEC: decode IBUF into OBUF with CMAP (R172). -/
  | dec
  /-- LKP: probe CMAP for the pair (`len`, `pat`) (R91, R148). -/
  | lkp (len : BitVec 5) (pat : BitVec 16)
deriving DecidableEq, Repr

end Sys2Proof
end

