-- ==== Sys2Proof/WellFormed.lean ====
section
/-! DEFINITION. Which terms of `Instr` are commands: LKP's LEN must be 1..16 (R91, R93). -/

namespace Sys2Proof

/-- The legal values of LKP's LEN field, 1..16 (R91). -/
def legalLen (len : BitVec 5) : Bool := decide (1 ≤ len.toNat) && decide (len.toNat ≤ 16)

/-- Well-formedness: format Z has no operand; format K's LEN is 1..16 and PAT is any 16-bit value,
also one that is `2^LEN` or more (R91). -/
def Instr.wf : Instr → Bool
  | .clr => true
  | .ldt => true
  | .bld => true
  | .dec => true
  | .lkp len _ => legalLen len

end Sys2Proof
end

