-- ==== Sys2Proof/Decode.lean ====
section
/-! DEFINITION. Command words: the decoder, total on all 32-bit words and naming why a word is illegal
(R90 to R94), and the encoder written from the same formats. -/

namespace Sys2Proof

/-- Why a word is not a command: the four cases of R93, in the order R94 tests them. -/
inductive IllegalWord where
  /-- `w[7:0]` is 0x00 or is 0x06 or greater. -/
  | opcode
  /-- `w[7:0]` is 0x01..0x04 and `w[31:8]` is not 0. -/
  | upperBits
  /-- `w[7:0]` is 0x05 and `w[15:13]` is not 0. -/
  | reservedBits
  /-- `w[7:0]` is 0x05 and `w[12:8]` is 0 or is 17..31. -/
  | lenRange
deriving DecidableEq, Repr

/-- `OPC = w[7:0]` (R90). -/
def opcOf (w : Word) : BitVec 8 := w.extractLsb' 0 8

/-- `w[31:8]`, which format Z requires to be 0 (R90). -/
def upperOf (w : Word) : BitVec 24 := w.extractLsb' 8 24

/-- `w[15:13]`, which format K requires to be 0 (R90). -/
def reservedOf (w : Word) : BitVec 3 := w.extractLsb' 13 3

/-- `LEN = w[12:8]` of format K (R91). -/
def lenOf (w : Word) : BitVec 5 := w.extractLsb' 8 5

/-- `PAT = w[31:16]` of format K (R91). -/
def patOf (w : Word) : BitVec 16 := w.extractLsb' 16 16

/-- A word of format Z: illegal unless its upper bits are 0 (R94). -/
def formatZ (w : Word) (i : Instr) : Except IllegalWord Instr :=
  if upperOf w = 0#24 then .ok i else .error .upperBits

/-- A word of format K: the reserved bits are tested first, then LEN (R94). -/
def formatK (w : Word) : Except IllegalWord Instr :=
  if reservedOf w = 0#3 then
    if legalLen (lenOf w) then .ok (.lkp (lenOf w) (patOf w)) else .error .lenRange
  else .error .reservedBits

/-- `decode_cmd` of R94, total on all words. -/
def decodeCmd (w : Word) : Except IllegalWord Instr :=
  if opcOf w = 0x01#8 then formatZ w .clr
  else if opcOf w = 0x02#8 then formatZ w .ldt
  else if opcOf w = 0x03#8 then formatZ w .bld
  else if opcOf w = 0x04#8 then formatZ w .dec
  else if opcOf w = 0x05#8 then formatK w
  else .error .opcode

/-- The word of a command (R90, R92): format Z is the opcode under 24 zero bits, format K is
`PAT, 000, LEN, 0x05` from bit 31 down. -/
def encode : Instr → Word
  | .clr => 0#24 ++ 0x01#8
  | .ldt => 0#24 ++ 0x02#8
  | .bld => 0#24 ++ 0x03#8
  | .dec => 0#24 ++ 0x04#8
  | .lkp len pat => pat ++ 0#3 ++ len ++ 0x05#8

/-- The command word whose low `nbits` bits are those of `w` and whose other bits are 0. -/
def tableWord (nbits w : Nat) : Word := BitVec.ofNat 32 (w % 2 ^ nbits)

/-- The instruction the decoder reads from a row's word, its bits numbered as the opcode table numbers
them (bit 0 the least significant bit of the one 32-bit word, R10). -/
def decodeTableWord (nbits w : Nat) : Option Instr :=
  match decodeCmd (tableWord nbits w) with
  | .ok i => some i
  | .error _ => none

end Sys2Proof
end

