-- ==== Sys2Proof/Config.lean ====
section
/-! DEFINITION. What one implementation fixes (`IBUF_SIZE`, R6) and the free values: everything the
spec calls unspecified. A free value is an opaque constant, so no proof can see what it is. -/

namespace Sys2Proof

/-- The byte stores whose contents the spec can leave unspecified (R33, R36, R37). -/
inductive StoreKind where
  /-- the input buffer IBUF (R36, U2) -/
  | ibuf
  /-- the output buffer OBUF (R37, U5) -/
  | obuf
  /-- the count bytes `HT.CNT[1..16]` (R33, U5) -/
  | htCnt
  /-- the symbols `HT.SYM[1..16][0..254]` (R33, U5) -/
  | htSym
deriving DecidableEq, Repr

/-- FREE VALUE (U2, U5; assumption 2). The byte an element of a store holds where the spec says its
content is unspecified. The first number names the occasion on which the content became unspecified
(so it is stable until the next such occasion), the second the element's index. -/
opaque Config.unspecByte : StoreKind → Nat → Nat → Byte

/-- FREE VALUE (U5; assumption 2). What CMAP holds for the pair (length, value) while its content is
unspecified; the first number names the occasion on which it became so. -/
opaque Config.unspecCode : Nat → Nat → Nat → Option Byte

/-- FREE VALUE (U3, U4, U5, U6; assumption 2). A fresh unspecified 32-bit value: the first number is
the draw (the state's counter `freeCtr`), the second tells apart the values of one draw. -/
opaque Config.freeWord : Nat → Nat → Word

/-- DESIGN CHOICE (assumption 1). The `IBUF_SIZE` of the block that `State.reset` stands for: 64, the
value the spec's own programs P1 to P5 use. The parameter itself is the field `ibufSize` of the
state, so a statement about every state is a statement about every value of it. -/
def Config.ibufSize : Nat := 64

/-- The largest legal `IBUF_SIZE`, `2^28` (R6). -/
def Config.ibufSizeMax : Nat := 268435456

/-- `NLEN`: the number of code lengths and of buckets (R5). -/
def Config.nlen : Nat := 16

end Sys2Proof
end

