-- ==== Sys2Proof/Machine/State.lean ====
section
/-! DEFINITION. The state of one block as plain data (R20): registers, table store, code map, buffers,
unit states and working registers, and the model's own fields (the block's parameter, the host's
pending accesses, what the host has read, the counter of free values). -/

namespace Sys2Proof.Machine

/-- A byte store: the elements with a specified content, as cells with strictly rising indices. An
index with no cell holds an UNSPECIFIED byte (R36, U2, U5), the free value that `gen` names. -/
structure Memory where
  cells : List Host.Cell
  gen : Nat
deriving DecidableEq, Repr

/-- The code map CMAP (R34): a finite partial function from (length, value) to a symbol, as cells
under `codeKey`. `bg = none`: a pair with no cell is not in the map. `bg = some g`: the content is
unspecified (MAP_VALID is 0), the free value that `g` names. -/
structure CodeMap where
  bg : Option Nat
  cells : List Host.Cell
deriving DecidableEq, Repr

/-- The causes of failure, R211. Codes 9..15 are reserved and never produced. -/
inductive ErrCode where
  /-- 0: every successful command -/
  | none
  /-- 1: LDT, the definition needs a byte at an index `>= IN_LEN` -/
  | trunc
  /-- 2: LDT, `IBUF[0]` is not one of the four identity bytes -/
  | badId
  /-- 3: BLD, a symbol of length `L` would get a code value `>= 2^L` -/
  | overSub
  /-- 4: DEC, no length that fits gives a window that is a map key -/
  | noCode
  /-- 5: BLD, TBL_VALID is 0 -/
  | noTbl
  /-- 6: DEC and LKP, MAP_VALID is 0 -/
  | noMap
  /-- 7: an accepted word that is not a command -/
  | illCmd
  /-- 8: LDT and DEC, `IN_LEN > IBUF_SIZE` -/
  | len
deriving DecidableEq, Repr

/-- The fields of STATUS (R23); the bits the register reads as 0 are not stored. -/
structure Status where
  busy : Bool
  tblValid : Bool
  mapValid : Bool
  outValid : Bool
  err : Bool
  ovr : Bool
  errCode : ErrCode
deriving DecidableEq, Repr

/-- The table store HT (R33). -/
structure HuffTable where
  /-- `HT.CLASS` -/
  cls : BitVec 1
  /-- `HT.ID` -/
  id : BitVec 1
  /-- `HT.CNT[L]`, index `L` in 1..16 -/
  cnt : Memory
  /-- `HT.SYM[L][i]`, index `symKey L i` -/
  sym : Memory
deriving DecidableEq, Repr

/-- `TL_STATE` (R41). -/
inductive TlState where
  | idle
  | id
  | counts
  | syms
deriving DecidableEq, Repr

/-- `TB_STATE` (R41). -/
inductive TbState where
  | idle
  | assign
  | shift
deriving DecidableEq, Repr

/-- `ED_STATE` (R41); `tryLen` is `ED_TRY`. -/
inductive EdState where
  | idle
  | test
  | tryLen
deriving DecidableEq, Repr

/-- The table loader's working registers P, K, J, TOT (R40). -/
structure TlRegs where
  p : BitVec 13
  k : BitVec 5
  j : BitVec 8
  tot : BitVec 13
deriving DecidableEq, Repr

/-- The table builder's working registers L, IDX, CODE (R38). -/
structure TbRegs where
  l : BitVec 5
  idx : BitVec 8
  code : BitVec 32
deriving DecidableEq, Repr

/-- The entropy decoder's working registers CURSOR, NBITS, LEN, OPTR (R39). -/
structure EdRegs where
  cursor : BitVec 32
  nbits : BitVec 32
  len : BitVec 5
  optr : BitVec 32
deriving DecidableEq, Repr

/-- The five kinds of host access (R61). A register number or buffer index is any natural number:
reserved numbers and out-of-range indices are accesses too (R32, R63). -/
inductive HostAccess where
  | regRead (r : Nat)
  | regWrite (r : Nat) (w : Word)
  | ibufRead (i : Nat)
  | ibufWrite (i : Nat) (b : Byte)
  | obufRead (i : Nat)
deriving DecidableEq, Repr

/-- What the outside does next. MODEL'S OWN (assumption 4): the two levels of R7 in one machine. -/
inductive HostEvent where
  /-- One host access. A CMD write to an idle block runs the command's whole life in this one
  transition (the operation level of R7, R202). -/
  | access (a : HostAccess)
  /-- A CMD write of `w` whose command is then run one unit step at a time (the step level of R7): this
  transition is the acceptance alone. To a busy block it is a CMD write like any other. With `hold`, a
  command that starts no unit stays accepted, BUSY at 1, and completes later (R41, R250). -/
  | startCmd (hold : Bool) (w : Word)
  /-- The host does nothing; a running unit takes one step (R122, R142, R173). With `hold`, the write of the
  result registers after a unit's last step is put off (R41, R250). -/
  | wait (hold : Bool)
  /-- The reset input is raised (R240). -/
  | hwReset
deriving DecidableEq, Repr

/-- What a host read returned: a register word or a buffer byte (R61). -/
inductive Reply where
  | word (w : Word)
  | byte (b : Byte)
deriving DecidableEq, Repr

/-- The registers and flags that completion writes after a unit's last step (R202): what the results of
LDT, BLD and DEC can be. OVR, IN_LEN and LKP_RES are none of them. -/
structure Result where
  tblValid : Bool
  mapValid : Bool
  outValid : Bool
  err : Bool
  errCode : ErrCode
  outLen : Word
  bitPos : Word
  bitRem : Word
  tdefEnd : Word
deriving DecidableEq, Repr

/-- What is still to be done when BUSY is 1 and all three units are idle (R41). -/
inductive Held where
  /-- The word `w` was accepted, and its command, which starts no unit (CLR, LKP, an illegal word, or a
  command that fails at acceptance), has not completed. -/
  | accepted (w : Word)
  /-- A unit took its last step, and the result registers are not yet written. -/
  | result (r : Result)
deriving DecidableEq, Repr

/-- The state of one block, R20, and the model's own last four fields. -/
structure State where
  /-- STATUS, register 1 (R23) -/
  status : Status
  /-- IN_LEN, register 2 (R24) -/
  inLen : Word
  /-- OUT_LEN, register 3 (R25) -/
  outLen : Word
  /-- BITPOS, register 4 (R26) -/
  bitPos : Word
  /-- BITREM, register 5 (R27) -/
  bitRem : Word
  /-- TDEF_END, register 6 (R28) -/
  tdefEnd : Word
  /-- LKP_RES, register 7 (R29) -/
  lkpRes : Word
  /-- HT, whose identity TBL_ID (register 8, R30) shows -/
  ht : HuffTable
  /-- CMAP (R34) -/
  cmap : CodeMap
  /-- IBUF (R36) -/
  ibuf : Memory
  /-- OBUF (R37) -/
  obuf : Memory
  /-- TL_STATE (R41) -/
  tlState : TlState
  /-- TB_STATE (R41) -/
  tbState : TbState
  /-- ED_STATE (R41) -/
  edState : EdState
  /-- P, K, J, TOT (R40) -/
  tl : TlRegs
  /-- L, IDX, CODE (R38) -/
  tb : TbRegs
  /-- CURSOR, NBITS, LEN, OPTR (R39) -/
  ed : EdRegs
  /-- What a busy block with idle units has still to do (R41, R202); `none` in every other state -/
  held : Option Held
  /-- MODEL'S OWN: the parameter `IBUF_SIZE` of this block (R6), which CAP reads (R31); no step changes
  it (assumption 1) -/
  ibufSize : Nat
  /-- MODEL'S OWN: what the outside does from now on, first event first (assumption 4) -/
  port : List HostEvent
  /-- MODEL'S OWN: what the host's reads have returned, latest first (assumption 5) -/
  replies : List Reply
  /-- MODEL'S OWN: how many free values have been drawn (assumption 2) -/
  freeCtr : Nat
deriving DecidableEq, Repr

/-- Faults of a step. THERE IS NONE: nothing the block or its host can do stops the machine. A failed
command is a next state with ERR and ERRCODE set (R210, R212, R214), a stray access is ignored or
reads 0 (R63), and every word is a command or fails with `E_ILLCMD` (R93). -/
inductive Fault where
deriving DecidableEq, Repr

/-- Refusals of a step. -/
inductive Refusal where
  /-- Raised by an arm of `exec` whose instruction has no meaning yet: safe. No arm raises it: all five
  commands have their meaning. -/
  | notModelled (mnemonic : String)
deriving DecidableEq, Repr

/-- STATUS reads 0 (R44). -/
def Status.cleared : Status :=
  { busy := false, tblValid := false, mapValid := false, outValid := false, err := false,
    ovr := false, errCode := .none }

/-- The state right after hardware reset of a block with `IBUF_SIZE = n` (R44). The registers read 0,
the units are idle, and every store's content is unspecified: nothing is listed. HT.CLASS, HT.ID and
the working registers, for which R44 gives no value, are 0: DESIGN CHOICE (assumption 3). The
model's own counter starts at 1, so that no later draw names the contents of reset: DESIGN CHOICE
(assumption 2). -/
def State.resetWith (n : Nat) : State where
  status := .cleared
  inLen := 0#32
  outLen := 0#32
  bitPos := 0#32
  bitRem := 0#32
  tdefEnd := 0#32
  lkpRes := 0#32
  ht := { cls := 0#1, id := 0#1, cnt := ⟨[], 0⟩, sym := ⟨[], 0⟩ }
  cmap := ⟨some 0, []⟩
  ibuf := ⟨[], 0⟩
  obuf := ⟨[], 0⟩
  tlState := .idle
  tbState := .idle
  edState := .idle
  tl := { p := 0#13, k := 0#5, j := 0#8, tot := 0#13 }
  tb := { l := 0#5, idx := 0#8, code := 0#32 }
  ed := { cursor := 0#32, nbits := 0#32, len := 0#5, optr := 0#32 }
  held := none
  ibufSize := n
  port := []
  replies := []
  freeCtr := 1

/-- The machine right after reset: a block with the configured `IBUF_SIZE` (R44, R240). -/
def State.reset : State := State.resetWith Config.ibufSize

end Sys2Proof.Machine
end

