-- ==== Sys2Proof/Machine/Ops.lean ====
section
/-! DEFINITION. The named operations over the stores and registers: reading and writing a store, the
code map, accepting and completing a command, and FAILING a command, which is this block's whole
exception entry (R212, R214; there is no return, R215). -/

namespace Sys2Proof.Machine

/-! ### Cells: one canonical list of (index, byte) pairs -/

/-- The byte listed at index `i`, if any. -/
def cellsGet : List Host.Cell → Nat → Option Byte
  | [], _ => none
  | (k, b) :: rest, i => if i = k then some b else cellsGet rest i

/-- List byte `b` at index `i`, keeping the indices strictly rising. -/
def cellsSet : List Host.Cell → Nat → Byte → List Host.Cell
  | [], i, b => [(i, b)]
  | (k, c) :: rest, i, b =>
    if i < k then (i, b) :: (k, c) :: rest
    else if i = k then (i, b) :: rest
    else (k, c) :: cellsSet rest i b

/-- The canonical form: indices strictly rising, so that equal contents are equal lists. -/
abbrev cellsWf (m : List Host.Cell) : Prop := m.Pairwise (fun a b => a.1 < b.1)

/-! ### Byte stores -/

/-- The store's canonical form. No cell can equal what an unlisted index reads as: an unlisted index
holds no byte of the model's, it is unspecified. -/
abbrev Memory.wf (m : Memory) : Prop := cellsWf m.cells

/-- The element at index `i`: the byte written there, else the unspecified byte of this store's
generation, stable until the content becomes unspecified again (R36, U2). -/
def Memory.read (kind : StoreKind) (m : Memory) (i : Nat) : Byte :=
  match cellsGet m.cells i with
  | some b => b
  | none => Config.unspecByte kind m.gen i

/-- `x[i] <- b` (R11). -/
def Memory.write (m : Memory) (i : Nat) (b : Byte) : Memory :=
  { m with cells := cellsSet m.cells i b }

/-- `x[i] <- b0; x[i+1] <- b1; ...` -/
def Memory.writeList : Memory → Nat → List Byte → Memory
  | m, _, [] => m
  | m, i, b :: bs => (m.write i b).writeList (i + 1) bs

/-- A store whose whole content has become unspecified, at draw `k` (U5). -/
def Memory.unspecified (k : Nat) : Memory := ⟨[], k⟩

/-! ### The table store -/

/-- The index of `HT.SYM[L][i]`; the positions are 0..254 (R20). -/
def symKey (L i : Nat) : Nat := L * 256 + i

/-- `HT.CNT[L]` as a number (R33). -/
def HuffTable.count (h : HuffTable) (L : Nat) : Nat := (h.cnt.read .htCnt L).toNat

/-- `HT.SYM[L][i]` (R33). -/
def HuffTable.symbol (h : HuffTable) (L i : Nat) : Byte := h.sym.read .htSym (symKey L i)

/-- Bucket `L`: its symbols in their stored order (R33). -/
def HuffTable.bucket (h : HuffTable) (L : Nat) : List Byte :=
  (List.range (h.count L)).map (h.symbol L)

/-- HT with unspecified content, at draw `k` (U5). -/
def HuffTable.unspecified (k : Nat) : HuffTable :=
  { cls := (Config.freeWord k 0).setWidth 1, id := (Config.freeWord k 1).setWidth 1,
    cnt := .unspecified k, sym := .unspecified k }

/-! ### The code map -/

/-- The index of the pair (length, value): a 16-bit value never meets another length's pairs. -/
def codeKey (len v : Nat) : Nat := len * 65536 + v

/-- A pair CMAP can hold: `1 <= L <= 16`, `0 <= v < 2^L` (R34). -/
abbrev legalCode (len v : Nat) : Prop := 1 ≤ len ∧ len ≤ 16 ∧ v < 2 ^ len

/-- `CMAP[(L, v)]` if `(L, v) in CMAP` (R11, R34). -/
def CodeMap.lookup (m : CodeMap) (len v : Nat) : Option Byte :=
  match cellsGet m.cells (codeKey len v) with
  | some b => some b
  | none =>
    match m.bg with
    | none => none
    | some g => if legalCode len v then Config.unspecCode g len v else none

/-- `CMAP <- {}` (R142). -/
def CodeMap.empty : CodeMap := ⟨none, []⟩

/-- `CMAP[(L, v)] <- b` (R142). -/
def CodeMap.insert (m : CodeMap) (len v : Nat) (b : Byte) : CodeMap :=
  { m with cells := cellsSet m.cells (codeKey len v) b }

/-- CMAP with unspecified content, at draw `k` (U5). -/
def CodeMap.unspecified (k : Nat) : CodeMap := ⟨some k, []⟩

/-! ### The life of a command -/

/-- Acceptance raises BUSY (R202). -/
def accept (s : State) : State := { s with status := { s.status with busy := true } }

/-- Completion with success: ERR and ERRCODE are overwritten and BUSY drops, all at once (R23, R202). -/
def succeed (s : State) : State :=
  { s with status := { s.status with err := false, errCode := .none, busy := false } }

/-- `raise Fail(c)` (R11, R212): the block's exception entry. ERR and ERRCODE record the cause and BUSY
drops; nothing is saved and control goes nowhere (R214). -/
def raiseFail (c : ErrCode) (s : State) : State :=
  { s with status := { s.status with err := true, errCode := c, busy := false } }

/-- TL goes idle; its working registers then hold unspecified values (R40, U6). -/
def retireTl (s : State) : State :=
  { s with
    tlState := .idle
    tl := { p := (Config.freeWord s.freeCtr 2).setWidth 13, k := (Config.freeWord s.freeCtr 3).setWidth 5,
            j := (Config.freeWord s.freeCtr 4).setWidth 8, tot := (Config.freeWord s.freeCtr 5).setWidth 13 }
    freeCtr := s.freeCtr + 1 }

/-- TB goes idle; its working registers then hold unspecified values (R38, U6). -/
def retireTb (s : State) : State :=
  { s with
    tbState := .idle
    tb := { l := (Config.freeWord s.freeCtr 6).setWidth 5, idx := (Config.freeWord s.freeCtr 7).setWidth 8,
            code := Config.freeWord s.freeCtr 8 }
    freeCtr := s.freeCtr + 1 }

/-- ED goes idle; its working registers then hold unspecified values (R39, U6). -/
def retireEd (s : State) : State :=
  { s with
    edState := .idle
    ed := { cursor := Config.freeWord s.freeCtr 9, nbits := Config.freeWord s.freeCtr 10,
            len := (Config.freeWord s.freeCtr 11).setWidth 5, optr := Config.freeWord s.freeCtr 12 }
    freeCtr := s.freeCtr + 1 }

/-! ### Completion put off -/

/-- The result registers of a completed command (R202). -/
def resultOf (t : State) : Result :=
  { tblValid := t.status.tblValid, mapValid := t.status.mapValid, outValid := t.status.outValid,
    err := t.status.err, errCode := t.status.errCode, outLen := t.outLen, bitPos := t.bitPos,
    bitRem := t.bitRem, tdefEnd := t.tdefEnd }

/-- Completion: the result registers and flags are written and BUSY drops, all at once (R202). -/
def writeResult (r : Result) (s : State) : State :=
  { s with
    status := { s.status with tblValid := r.tblValid, mapValid := r.mapValid, outValid := r.outValid,
                              err := r.err, errCode := r.errCode, busy := false }
    outLen := r.outLen
    bitPos := r.bitPos
    bitRem := r.bitRem
    tdefEnd := r.tdefEnd
    held := none }

/-- Between a unit's last step and the write of the result registers (R41): `t`, which the last step from
`s` completes to, but with the registers and flags of `s`, BUSY among them, the results being held. -/
def holdResult (s t : State) : State :=
  { t with
    status := s.status
    outLen := s.outLen
    bitPos := s.bitPos
    bitRem := s.bitRem
    tdefEnd := s.tdefEnd
    held := some (.result (resultOf t)) }

/-- The word `w` is accepted and its command not yet completed: BUSY is 1 and no unit runs (R41). -/
def holdAccepted (w : Word) (s : State) : State := { accept s with held := some (.accepted w) }

/-! ### Views of the state the units read -/

/-- `IBUF[i]` (R11). -/
def State.ibufAt (s : State) (i : Nat) : Byte := s.ibuf.read .ibuf i

/-- `OBUF[i]` (R11); what the host can read of it is masked (R75). -/
def State.obufAt (s : State) (i : Nat) : Byte := s.obuf.read .obuf i

/-- `IN_LEN` as a number of bytes (R24). -/
def State.inCount (s : State) : Nat := s.inLen.toNat

end Sys2Proof.Machine
end

