-- ==== Sys2Proof/Machine/Flags.lean ====
section
/-! DEFINITION. How the flags and results read as register words: STATUS with its fields and ERRCODE
(R23, R211), LKP_RES (R29) and TBL_ID (R30). -/

namespace Sys2Proof.Machine

/-- The number of a cause (R211). -/
def ErrCode.code : ErrCode → BitVec 4
  | .none => 0#4
  | .trunc => 1#4
  | .badId => 2#4
  | .overSub => 3#4
  | .noCode => 4#4
  | .noTbl => 5#4
  | .noMap => 6#4
  | .illCmd => 7#4
  | .len => 8#4

/-- A STATUS word from its fields, bit 31 down: zeros, ERRCODE in 11:8, zeros in 7:6, OVR, ERR,
OUT_VALID, MAP_VALID, TBL_VALID, BUSY (R23). -/
def statusWord (code : BitVec 4) (ovr err outV mapV tblV busy : Bool) : Word :=
  0#20 ++ code ++ 0#2 ++ BitVec.ofBool ovr ++ BitVec.ofBool err ++ BitVec.ofBool outV
    ++ BitVec.ofBool mapV ++ BitVec.ofBool tblV ++ BitVec.ofBool busy

/-- STATUS as the host reads it while the block is idle (R23). -/
def Status.word (t : Status) : Word :=
  statusWord t.errCode.code t.ovr t.err t.outValid t.mapValid t.tblValid t.busy

/-- STATUS as the host reads it while the block is busy: BUSY is 1, OVR is true, the zero bits are 0,
and the other five fields are unspecified, here the free word `f` (R23, U4). -/
def Status.busyWord (t : Status) (f : Word) : Word :=
  statusWord (f.extractLsb' 8 4) t.ovr (f.getLsbD 4) (f.getLsbD 3) (f.getLsbD 2) (f.getLsbD 1) true

/-- LKP_RES of a hit: `0x100 | SYM` (R29, R148). -/
def lkpHit (b : Byte) : Word := 0#23 ++ 1#1 ++ b

/-- LKP_RES of a miss, and of an LKP without a map (R29, R148). -/
def lkpMiss : Word := 0#32

/-- TBL_ID: bit 0 HT.ID, bit 1 HT.CLASS, when TBL_VALID is 1; else 0 (R30). -/
def State.tblId (s : State) : Word :=
  if s.status.tblValid then 0#30 ++ s.ht.cls ++ s.ht.id else 0#32

end Sys2Proof.Machine
end

