-- ==== Sys2Proof/Machine/Operands.lean ====
section
/-! DEFINITION. The operands of the commands: LKP's key (R91), the identity byte of a table definition
(R96), and the decoder's bit sequence and bit window (R64, R65). -/

namespace Sys2Proof.Machine

/-- The code length LKP probes, `LEN` as it stands (R91). -/
def lkpLen (len : BitVec 5) : Nat := len.toNat

/-- The code value LKP probes: `PAT` as it stands, neither shifted, scaled nor sign-extended (R91). -/
def lkpPat (pat : BitVec 16) : Nat := pat.toNat

/-- The four legal identity bytes (R96). -/
def legalIdentity (b : Byte) : Bool :=
  b == 0x00#8 || b == 0x01#8 || b == 0x10#8 || b == 0x11#8

/-- `HT.CLASS` of an identity byte: `b[4]` (R96, R121). -/
def classOf (b : Byte) : BitVec 1 := b.extractLsb' 4 1

/-- `HT.ID` of an identity byte: `b[0]` (R96, R121). -/
def idOf (b : Byte) : BitVec 1 := b.extractLsb' 0 1

/-- `bit(k)` of the decoder's input: most significant bit of each byte first (R64). -/
def streamBit (buf : Nat → Byte) (k : Nat) : Nat :=
  ((buf (k / 8) >>> (7 - k % 8)) &&& 1#8).toNat

/-- `window(c, n)`: the `n` bits from the cursor `c` on as a number, the first bit taken the most
significant (R65). -/
def window (bit : Nat → Nat) (c : Nat) : Nat → Nat
  | 0 => 0
  | n + 1 => 2 * window bit c n + bit (c + n)

end Sys2Proof.Machine
end

