-- ==== Sys2Proof/Machine/Build.lean ====
section
/-! DEFINITION. The table builder TB and its commands BLD and LKP: the build function (R140), BLD at the
operation level (R141), the builder's state machine at the step level (R142), and LKP (R148). -/

namespace Sys2Proof.Machine

/-! ### The build function, R140 -/

/-- The inner loop of `build`: give the symbols of one bucket, from code `code` on, the codes of length
`L`; `none` is `Fail(E_OVERSUB)`. Answers the running code value and the map (R140). -/
def assignBucket (L : Nat) : Nat → List Byte → List Host.Cell → Option (Nat × List Host.Cell)
  | code, [], m => some (code, m)
  | code, b :: bs, m =>
    if 2 ^ L ≤ code then none
    else assignBucket L (code + 1) bs (cellsSet m (codeKey L code) b)

/-- The outer loop of `build` for the `n` lengths from `L` on; the running value doubles after every
length, also when its bucket is empty and also after length 16 (R140). -/
def buildFrom (bucket : Nat → List Byte) : Nat → Nat → Nat → List Host.Cell → Option (List Host.Cell)
  | 0, _, _, m => some m
  | n + 1, L, code, m =>
    match assignBucket L code (bucket L) m with
    | none => none
    | some (code', m') => buildFrom bucket n (L + 1) (code' * 2) m'

/-- `build(cnt, sym)`, the buckets being the lists `bucket 1 .. bucket 16` (R140). -/
def build (bucket : Nat → List Byte) : Option (List Host.Cell) :=
  buildFrom bucket Config.nlen 1 0 []

/-! ### BLD at the operation level, R141 -/

/-- BLD's first line: the old map is withdrawn (R141); with MAP_VALID at 0 the content of CMAP is
unspecified (R34, U5). -/
def bldAccept (s : State) : State :=
  { accept s with
    status := { (accept s).status with mapValid := false }
    cmap := .unspecified s.freeCtr }

/-- `raise Fail(c)` in BLD: the content of CMAP becomes unspecified (R141). -/
def bldFail (c : ErrCode) (s : State) : State :=
  raiseFail c (retireTb { s with cmap := .unspecified s.freeCtr })

/-- BLD's success, CMAP being built: MAP_VALID (R141). -/
def bldDone (s : State) : State :=
  succeed (retireTb { s with status := { s.status with mapValid := true } })

/-- BLD after its first line (R141). -/
def bldBody (s : State) : State :=
  if s.status.tblValid then
    match build s.ht.bucket with
    | none => bldFail .overSub s
    | some m => bldDone { s with cmap := ⟨none, m⟩ }
  else bldFail .noTbl s

/-- BLD, build code map (R141). -/
def execBld (s : State) : Host.Outcome State Fault Refusal := .next (bldBody (bldAccept s))

/-! ### The builder state machine, R142 -/

/-- `accept BLD` (R142). -/
def bldStart (s : State) : State :=
  let s' := bldAccept s
  if s'.status.tblValid then
    { s' with cmap := .empty, tb := { l := 1#5, idx := 0#8, code := 0#32 }, tbState := .assign }
  else bldFail .noTbl s'

/-- The step `TB_ASSIGN` (R142). -/
def tbAssignStep (s : State) : State :=
  if s.tb.idx.toNat < s.ht.count s.tb.l.toNat then
    if 2 ^ s.tb.l.toNat ≤ s.tb.code.toNat then bldFail .overSub s
    else
      { s with
        cmap := s.cmap.insert s.tb.l.toNat s.tb.code.toNat (s.ht.symbol s.tb.l.toNat s.tb.idx.toNat)
        tb := { s.tb with code := s.tb.code + 1#32, idx := s.tb.idx + 1#8 } }
  else { s with tbState := .shift }

/-- The step `TB_SHIFT` (R142). -/
def tbShiftStep (s : State) : State :=
  let s' := { s with tb := { s.tb with code := s.tb.code <<< 1 } }
  if s'.tb.l = 16#5 then bldDone s'
  else { s' with tb := { s'.tb with l := s'.tb.l + 1#5, idx := 0#8 }, tbState := .assign }

/-- One step of TB (R142). -/
def tbStep (s : State) : State :=
  match s.tbState with
  | .idle => s
  | .assign => tbAssignStep s
  | .shift => tbShiftStep s

/-! ### LKP, R148 -/

/-- LKP after acceptance: probe the pair (`len`, `pat`). A miss is not a failure (R148). -/
def lkpBody (len pat : Nat) (s : State) : State :=
  if s.status.mapValid then
    match s.cmap.lookup len pat with
    | some b => succeed { s with lkpRes := lkpHit b }
    | none => succeed { s with lkpRes := lkpMiss }
  else raiseFail .noMap { s with lkpRes := lkpMiss }

/-- LKP, look up one code (R148). -/
def execLkp (len : BitVec 5) (pat : BitVec 16) (s : State) : Host.Outcome State Fault Refusal :=
  .next (lkpBody (lkpLen len) (lkpPat pat) (accept s))

end Sys2Proof.Machine
end

