-- ==== Sys2Proof/Machine/Control.lean ====
section
/-! DEFINITION. Command CLR (R200), illegal words (R201) and hardware reset (R240). -/

namespace Sys2Proof.Machine

/-- CLR's effect after acceptance: every register and flag to its reset value, the contents of HT, CMAP
and OBUF unspecified, IBUF kept (R200, R241). CLR always completes with ERR = 0. -/
def clrBody (s : State) : State :=
  { s with
    status := .cleared
    inLen := 0#32
    outLen := 0#32
    bitPos := 0#32
    bitRem := 0#32
    tdefEnd := 0#32
    lkpRes := 0#32
    ht := .unspecified s.freeCtr
    cmap := .unspecified s.freeCtr
    obuf := .unspecified s.freeCtr
    freeCtr := s.freeCtr + 1 }

/-- CLR, clear (R200). -/
def execClr (s : State) : Host.Outcome State Fault Refusal := .next (clrBody (accept s))

/-- An accepted word that is no command: ERR and ERRCODE, nothing else (R201). -/
def illegalBody (s : State) : State := raiseFail .illCmd (accept s)

/-- Hardware reset at any moment, also while a command runs (R240): the registers and unit states take
their values of R44, and everything R44 leaves unspecified becomes unspecified, IBUF too. What the
outside does next and what the host has read are not the block's. -/
def hardReset (s : State) : State :=
  retireEd (retireTb (retireTl
    { State.resetWith s.ibufSize with
      ht := .unspecified s.freeCtr
      cmap := .unspecified s.freeCtr
      ibuf := .unspecified s.freeCtr
      obuf := .unspecified s.freeCtr
      port := s.port
      replies := s.replies
      freeCtr := s.freeCtr }))

end Sys2Proof.Machine
end

