-- ==== Sys2Proof/Machine/Entropy.lean ====
section
/-! DEFINITION. The entropy decoder ED and its command DEC: the decode function (R171), the command at
the operation level (R172) and the decoder's state machine at the step level (R173). -/

namespace Sys2Proof.Machine

/-! ### The decode function, R171 -/

/-- The inner loop of `decode` at the cursor `c`: the next `k` candidate lengths from `len` on in
increasing order; a length for which too few bits remain is skipped; the first match wins (R171). -/
def tryLengths (map : Nat → Nat → Option Byte) (bit : Nat → Nat) (nbits c : Nat) :
    Nat → Nat → Option (Nat × Byte)
  | 0, _ => none
  | k + 1, len =>
    if c + len ≤ nbits then
      match map len (window bit c len) with
      | some b => some (len, b)
      | none => tryLengths map bit nbits c k (len + 1)
    else tryLengths map bit nbits c k (len + 1)

/-- The outer loop of `decode` from the cursor `c` on, for at most `fuel` symbols: the symbols and the
final cursor, or the cursor at which no length matches (R171). -/
def decodeFrom (map : Nat → Nat → Option Byte) (bit : Nat → Nat) (nbits : Nat) :
    Nat → Nat → Except Nat (List Byte × Nat)
  | 0, c => .error c
  | fuel + 1, c =>
    if c < nbits then
      match tryLengths map bit nbits c Config.nlen 1 with
      | none => .error c
      | some (len, b) =>
        match decodeFrom map bit nbits fuel (c + len) with
        | .error c' => .error c'
        | .ok (out, c') => .ok (b :: out, c')
    else .ok ([], c)

/-- `decode(map, buf, n)` on the bit sequence of `n` bytes (R170, R171). Every symbol consumes at least
one bit, so the fuel `8 * n + 1` is never used up. -/
def decode (map : Nat → Nat → Option Byte) (buf : Nat → Byte) (n : Nat) : Except Nat (List Byte × Nat) :=
  decodeFrom map (streamBit buf) (8 * n) (8 * n + 1) 0

/-! ### DEC at the operation level, R172 -/

/-- DEC's first lines: the earlier result is withdrawn (R172); with OUT_VALID at 0 the content of OBUF is
unspecified (R75, U5). -/
def decAccept (s : State) : State :=
  { accept s with
    status := { (accept s).status with outValid := false }
    outLen := 0#32
    bitPos := 0#32
    bitRem := 0#32
    obuf := .unspecified s.freeCtr }

/-- `raise Fail(c)` in DEC: the content of OBUF becomes unspecified (R172). -/
def decFail (c : ErrCode) (s : State) : State :=
  raiseFail c (retireEd { s with obuf := .unspecified s.freeCtr })

/-- The failure `E_NOCODE` at the cursor `cur` with `rem` bits remaining (R171, R172). -/
def decNoCode (cur rem : Word) (s : State) : State :=
  decFail .noCode { s with bitPos := cur, bitRem := rem }

/-- DEC's success, OBUF being written: OUT_LEN, BITPOS, BITREM and OUT_VALID (R172). -/
def decDone (outLen cur : Word) (s : State) : State :=
  succeed (retireEd { s with
    outLen := outLen
    bitPos := cur
    bitRem := 0#32
    status := { s.status with outValid := true } })

/-- DEC after its first lines: the map is tested before the length (R172, R213). -/
def decBody (s : State) : State :=
  if s.status.mapValid then
    if s.ibufSize < s.inCount then decFail .len s
    else
      match decode s.cmap.lookup s.ibufAt s.inCount with
      | .error cur => decNoCode (BitVec.ofNat 32 cur) (BitVec.ofNat 32 (8 * s.inCount - cur)) s
      | .ok (out, cur) =>
        decDone (BitVec.ofNat 32 out.length) (BitVec.ofNat 32 cur)
          { s with obuf := s.obuf.writeList 0 out }
  else decFail .noMap s

/-- DEC, decode (R172). -/
def execDec (s : State) : Host.Outcome State Fault Refusal := .next (decBody (decAccept s))

/-! ### The decoder state machine, R173 -/

/-- `accept DEC` (R173). -/
def decStart (s : State) : State :=
  let s' := decAccept s
  if s'.status.mapValid then
    if s'.ibufSize < s'.inCount then decFail .len s'
    else
      { s' with
        ed := { s'.ed with cursor := 0#32, nbits := BitVec.ofNat 32 (8 * s'.inCount), optr := 0#32 }
        edState := .test }
  else decFail .noMap s'

/-- The step `ED_TEST` (R173). -/
def edTestStep (s : State) : State :=
  if s.ed.nbits.toNat ≤ s.ed.cursor.toNat then decDone s.ed.optr s.ed.cursor s
  else { s with ed := { s.ed with len := 1#5 }, edState := .tryLen }

/-- The step `ED_TRY`: it gives up at the first length for which too few bits remain (R173, R174). -/
def edTryStep (s : State) : State :=
  if 16 < s.ed.len.toNat ∨ s.ed.nbits.toNat < s.ed.cursor.toNat + s.ed.len.toNat then
    decNoCode s.ed.cursor (s.ed.nbits - s.ed.cursor) s
  else
    match s.cmap.lookup s.ed.len.toNat
        (window (streamBit s.ibufAt) s.ed.cursor.toNat s.ed.len.toNat) with
    | some b =>
      { s with
        obuf := s.obuf.write s.ed.optr.toNat b
        ed := { s.ed with optr := s.ed.optr + 1#32, cursor := s.ed.cursor + s.ed.len.setWidth 32 }
        edState := .test }
    | none => { s with ed := { s.ed with len := s.ed.len + 1#5 } }

/-- One step of ED (R173). -/
def edStep (s : State) : State :=
  match s.edState with
  | .idle => s
  | .test => edTestStep s
  | .tryLen => edTryStep s

end Sys2Proof.Machine
end

