-- ==== Sys2Proof/Machine/Load.lean ====
section
/-! DEFINITION. The table loader TL and its command LDT: the parse function (R121), the command at the
operation level (R120) and the loader's state machine at the step level (R122). -/

namespace Sys2Proof.Machine

/-! ### The parse function, R121 -/

/-- What `parse` returns on success: identity, the 16 counts, the 16 buckets, and the index of the
first byte after the definition. -/
structure TableDef where
  cls : BitVec 1
  id : BitVec 1
  cnt : List Byte
  sym : List (List Byte)
  fin : Nat
deriving DecidableEq, Repr

/-- `k` checked reads from index `p` on: `take()` fails when the cursor has reached `n` (R121). -/
def takeBytes (buf : Nat → Byte) (n : Nat) : Nat → Nat → Option (List Byte)
  | _, 0 => some []
  | p, k + 1 =>
    if p < n then
      match takeBytes buf n (p + 1) k with
      | some bs => some (buf p :: bs)
      | none => none
    else none

/-- The buckets in length order, one per count byte, and the cursor after them (R121). -/
def takeBuckets (buf : Nat → Byte) (n : Nat) : Nat → List Byte → Option (List (List Byte) × Nat)
  | p, [] => some ([], p)
  | p, c :: cs =>
    match takeBytes buf n p c.toNat with
    | some b =>
      match takeBuckets buf n (p + c.toNat) cs with
      | some (bs, fin) => some (b :: bs, fin)
      | none => none
    | none => none

/-- `parse(buf, n)`: the checks in the order of the bytes (R121). -/
def parse (buf : Nat → Byte) (n : Nat) : Except ErrCode TableDef :=
  if n = 0 then .error .trunc
  else if legalIdentity (buf 0) then
    match takeBytes buf n 1 Config.nlen with
    | none => .error .trunc
    | some cnt =>
      match takeBuckets buf n 17 cnt with
      | none => .error .trunc
      | some (sym, fin) =>
        .ok { cls := classOf (buf 0), id := idOf (buf 0), cnt := cnt, sym := sym, fin := fin }
  else .error .badId

/-! ### LDT at the operation level, R120 -/

/-- `HT.SYM[L][0 ..] <- b0 b1 ...` for the buckets from length `L` on (R120). -/
def writeBuckets : Memory → Nat → List (List Byte) → Memory
  | m, _, [] => m
  | m, L, b :: bs => writeBuckets (m.writeList (symKey L 0) b) (L + 1) bs

/-- HT after a successful parse (R120). Symbols at positions past a bucket's count keep what they held:
they have no meaning and nothing reads them (R33). -/
def HuffTable.load (h : HuffTable) (t : TableDef) : HuffTable :=
  { cls := t.cls, id := t.id, cnt := h.cnt.writeList 1 t.cnt, sym := writeBuckets h.sym 1 t.sym }

/-- LDT's first three lines: the old table, the map built from it and TDEF_END are withdrawn (R120); with
TBL_VALID and MAP_VALID at 0 the contents of HT and CMAP are unspecified (R33, R34, U5). -/
def ldtAccept (s : State) : State :=
  { accept s with
    status := { (accept s).status with tblValid := false, mapValid := false }
    tdefEnd := 0#32
    ht := .unspecified s.freeCtr
    cmap := .unspecified s.freeCtr }

/-- `raise Fail(c)` in LDT: the content of HT becomes unspecified (R120). -/
def ldtFail (c : ErrCode) (s : State) : State :=
  raiseFail c (retireTl { s with ht := .unspecified s.freeCtr })

/-- LDT's success, HT being loaded: TDEF_END and TBL_VALID (R120). -/
def ldtDone (fin : Word) (s : State) : State :=
  succeed (retireTl { s with tdefEnd := fin, status := { s.status with tblValid := true } })

/-- LDT after its first three lines: the length test, then the parse (R120, R213). -/
def ldtBody (s : State) : State :=
  if s.ibufSize < s.inCount then ldtFail .len s
  else
    match parse s.ibufAt s.inCount with
    | .error c => ldtFail c s
    | .ok t => ldtDone (BitVec.ofNat 32 t.fin) { s with ht := s.ht.load t }

/-- LDT, load table (R120). -/
def execLdt (s : State) : Host.Outcome State Fault Refusal := .next (ldtBody (ldtAccept s))

/-! ### The loader state machine, R122 -/

/-- `accept LDT` (R122). -/
def ldtStart (s : State) : State :=
  let s' := ldtAccept s
  if s'.ibufSize < s'.inCount then ldtFail .len s'
  else { s' with tl := { s'.tl with p := 0#13 }, tlState := .id }

/-- The step `TL_ID` (R122). -/
def tlIdStep (s : State) : State :=
  if s.inCount ≤ s.tl.p.toNat then ldtFail .trunc s
  else if legalIdentity (s.ibufAt s.tl.p.toNat) then
    { s with
      ht := { s.ht with cls := classOf (s.ibufAt s.tl.p.toNat), id := idOf (s.ibufAt s.tl.p.toNat) }
      tl := { s.tl with p := 1#13, k := 1#5, tot := 0#13 }
      tlState := .counts }
  else ldtFail .badId s

/-- The step `TL_COUNTS` (R122). -/
def tlCountsStep (s : State) : State :=
  if s.tl.k.toNat ≤ 16 then
    if s.inCount ≤ s.tl.p.toNat then ldtFail .trunc s
    else
      { s with
        ht := { s.ht with cnt := s.ht.cnt.write s.tl.k.toNat (s.ibufAt s.tl.p.toNat) }
        tl := { s.tl with
                tot := s.tl.tot + (s.ibufAt s.tl.p.toNat).setWidth 13
                p := s.tl.p + 1#13
                k := s.tl.k + 1#5 } }
  else { s with tl := { s.tl with k := 1#5, j := 0#8 }, tlState := .syms }

/-- The step `TL_SYMS` (R122). -/
def tlSymsStep (s : State) : State :=
  if s.tl.k.toNat ≤ 16 then
    if s.tl.j.toNat < s.ht.count s.tl.k.toNat then
      if s.inCount ≤ s.tl.p.toNat then ldtFail .trunc s
      else
        { s with
          ht := { s.ht with
                  sym := s.ht.sym.write (symKey s.tl.k.toNat s.tl.j.toNat) (s.ibufAt s.tl.p.toNat) }
          tl := { s.tl with p := s.tl.p + 1#13, j := s.tl.j + 1#8 } }
    else { s with tl := { s.tl with k := s.tl.k + 1#5, j := 0#8 } }
  else ldtDone (s.tl.p.setWidth 32) s

/-- One step of TL (R122). -/
def tlStep (s : State) : State :=
  match s.tlState with
  | .idle => s
  | .id => tlIdStep s
  | .counts => tlCountsStep s
  | .syms => tlSymsStep s

end Sys2Proof.Machine
end

