-- ==== Sys2Proof/Machine/Dispatch.lean ====
section
/-! DEFINITION. `exec`: an accepted command at the operation level of R7, one atomic transition from the
state at acceptance to the state at completion (R202); one arm per command. -/

namespace Sys2Proof.Machine

def exec (i : Instr) (s : State) : Host.Outcome State Fault Refusal :=
  match i with
  | .clr => Sys2Proof.Machine.execClr s
  | .ldt => Sys2Proof.Machine.execLdt s
  | .bld => Sys2Proof.Machine.execBld s
  | .dec => Sys2Proof.Machine.execDec s
  | .lkp len pat => Sys2Proof.Machine.execLkp len pat s

end Sys2Proof.Machine
end

