-- ==== Sys2Proof/Machine/Port.lean ====
section
/-! DEFINITION. The host port: the five accesses to an idle and to a busy block (R21, R61 to R63, R67,
R72, R75, R244), command acceptance at both levels (R202), and the running unit's step (R41). -/

namespace Sys2Proof.Machine

/-! ### Reads while BUSY = 0 -/

/-- `RegRead(r)` while BUSY = 0 (R21); CMD and the reserved numbers read 0 (R22, R32). -/
def regValue (s : State) (r : Nat) : Word :=
  match r with
  | 1 => s.status.word
  | 2 => s.inLen
  | 3 => s.outLen
  | 4 => s.bitPos
  | 5 => s.bitRem
  | 6 => s.tdefEnd
  | 7 => s.lkpRes
  | 8 => s.tblId
  | 9 => BitVec.ofNat 32 s.ibufSize
  | _ => 0#32

/-- `IbufRead(i)` while BUSY = 0: out of range reads 0 (R63). -/
def ibufValue (s : State) (i : Nat) : Byte :=
  if i < s.ibufSize then s.ibufAt i else 0#8

/-- `ObufRead(i)` while BUSY = 0: masked to 0 unless OUT_VALID is 1 and `i < OUT_LEN` (R63, R75). -/
def obufValue (s : State) (i : Nat) : Byte :=
  if s.status.outValid ∧ i < s.outLen.toNat ∧ i < 8 * s.ibufSize then s.obufAt i else 0#8

/-- The host receives a read's result; nothing else changes (R67). -/
def reply (v : Reply) (s : State) : State := { s with replies := v :: s.replies }

/-! ### Reads while BUSY = 1 -/

/-- `RegRead(r)` while BUSY = 1: CMD, CAP and reserved numbers read as always, STATUS shows BUSY and
OVR, and every other register reads an unspecified value (R72), here the free word `f`. -/
def regValueBusy (f : Word) (s : State) (r : Nat) : Word :=
  match r with
  | 0 => 0#32
  | 1 => s.status.busyWord f
  | 2 => f
  | 3 => f
  | 4 => f
  | 5 => f
  | 6 => f
  | 7 => f
  | 8 => f
  | 9 => BitVec.ofNat 32 s.ibufSize
  | _ => 0#32

/-- A read while BUSY = 1 draws a fresh free value (U3, U4) and disturbs nothing (R72). -/
def replyBusy (v : Reply) (s : State) : State :=
  { s with replies := v :: s.replies, freeCtr := s.freeCtr + 1 }

/-- A write while BUSY = 1 is discarded and sets the sticky flag OVR (R72, R244). -/
def discardWrite (s : State) : State := { s with status := { s.status with ovr := true } }

/-! ### Commands -/

/-- A CMD write of `w` accepted at the operation level: the command, or the failure of an illegal word,
as one transition (R22, R202). Legality is tested before any precondition (R201, R213). -/
def runCommand (w : Word) (s : State) : Host.Outcome State Fault Refusal :=
  match decodeCmd w with
  | .ok i => exec i s
  | .error _ => .next (illegalBody s)

/-- Acceptance of a command at the step level: LDT, BLD and DEC start their unit or fail at once (R122,
R142, R173); CLR and LKP use no unit and are one transition (R251). -/
def startInstr (i : Instr) (s : State) : State :=
  match i with
  | .clr => clrBody (accept s)
  | .ldt => ldtStart s
  | .bld => bldStart s
  | .dec => decStart s
  | .lkp len pat => lkpBody (lkpLen len) (lkpPat pat) (accept s)

/-- A CMD write of `w` accepted at the step level (R202). -/
def startCommand (w : Word) (s : State) : State :=
  match decodeCmd w with
  | .ok i => startInstr i s
  | .error _ => illegalBody s

/-- One step of whichever unit is not idle; there is at most one (R41). -/
def runningStep (s : State) : State :=
  match s.tlState with
  | .idle =>
    match s.tbState with
    | .idle => edStep s
    | .assign => tbStep s
    | .shift => tbStep s
  | .id => tlStep s
  | .counts => tlStep s
  | .syms => tlStep s

/-- A completion that was put off happens: an accepted command that starts no unit does all it does, or a
unit's result registers are written (R41, R202). -/
def release (h : Held) (s : State) : State :=
  match h with
  | .accepted w => startCommand w { s with held := none }
  | .result r => writeResult r s

/-- One step of a busy block: of its running unit, or with all units idle the completion (R41). An idle
block keeps all its state (R221). -/
def unitStep (s : State) : State :=
  if s.status.busy then
    match s.held with
    | none => runningStep s
    | some h => release h s
  else s

/-- A step of a busy block whose completion, if this step would bring it, is put off (R41, R250). -/
def unitStepHeld (s : State) : State :=
  match s.held with
  | some _ => s
  | none => if s.status.busy && !(unitStep s).status.busy then holdResult s (unitStep s) else unitStep s

/-- Acceptance at the step level of a word whose command, if it starts no unit, completes later (R41,
R250). -/
def startHeld (w : Word) (s : State) : State :=
  if (startCommand w s).status.busy then startCommand w s else holdAccepted w s

/-! ### The five accesses -/

/-- `RegWrite(r, w)` while BUSY = 0: CMD starts a command, IN_LEN stores all 32 bits, and every other
number, read-only or reserved, ignores the write (R21, R22, R24, R32, R67). -/
def regWrite (r : Nat) (w : Word) (s : State) : Host.Outcome State Fault Refusal :=
  match r with
  | 0 => runCommand w s
  | 2 => .next { s with inLen := w }
  | _ => .next s

/-- `IbufWrite(i, b)` while BUSY = 0: out of range has no effect (R63). -/
def ibufWrite (i : Nat) (b : Byte) (s : State) : State :=
  if i < s.ibufSize then { s with ibuf := s.ibuf.write i b } else s

/-- An access to an idle block (R61). -/
def accessIdle (a : HostAccess) (s : State) : Host.Outcome State Fault Refusal :=
  match a with
  | .regRead r => .next (reply (.word (regValue s r)) s)
  | .regWrite r w => regWrite r w s
  | .ibufRead i => .next (reply (.byte (ibufValue s i)) s)
  | .ibufWrite i b => .next (ibufWrite i b s)
  | .obufRead i => .next (reply (.byte (obufValue s i)) s)

/-- An access to a busy block (R72). -/
def accessBusy (a : HostAccess) (s : State) : State :=
  match a with
  | .regRead r => replyBusy (.word (regValueBusy (Config.freeWord s.freeCtr 13) s r)) s
  | .regWrite _ _ => discardWrite s
  | .ibufRead _ => replyBusy (.byte ((Config.freeWord s.freeCtr 14).setWidth 8)) s
  | .ibufWrite _ _ => discardWrite s
  | .obufRead _ => replyBusy (.byte ((Config.freeWord s.freeCtr 15).setWidth 8)) s

/-- One event of the outside. Accesses take effect one at a time, each completely (R68). -/
def hostEvent (e : HostEvent) (s : State) : Host.Outcome State Fault Refusal :=
  match e with
  | .access a => if s.status.busy then .next (accessBusy a s) else accessIdle a s
  | .startCmd hold w =>
    .next (if s.status.busy then discardWrite s else if hold then startHeld w s else startCommand w s)
  | .wait hold => .next (if hold then unitStepHeld s else unitStep s)
  | .hwReset => .next (hardReset s)

end Sys2Proof.Machine
end

