-- ==== Sys2Proof/Machine/Step.lean ====
section
/-! DEFINITION. One step of the machine: the next event of the outside, and with none left the running
unit's next step. -/

namespace Sys2Proof.Machine

/-- One step. The first pending event of the outside happens; with no event pending a busy block takes
its next unit step (R250) and an idle block stays as it is (R221). -/
def step (s : State) : Host.Outcome State Fault Refusal :=
  match s.port with
  | [] => .next (unitStep s)
  | e :: rest => hostEvent e { s with port := rest }

/-- The state whose next step accepts and runs the command word `w`: a CMD write stands first among the
pending events, and the block is idle, as acceptance needs (R22). Nothing else changes. -/
def State.withFetchWord (s : State) (nbits w : Nat) : State :=
  { s with
    port := .access (.regWrite 0 (tableWord nbits w)) :: s.port
    status := { s.status with busy := false }
    tlState := .idle
    tbState := .idle
    edState := .idle
    held := none }

end Sys2Proof.Machine
end

