-- ==== Sys2Proof/Safety.lean ====
section
/-! DEFINITION. The terms claims are stated in: the spec's own derived quantities (FIRST[L], the number
of symbols, prefix-freedom), idleness, the state invariant of R42 with its step-level half, and the
equality of everything the spec specifies. A safe run is one whose states all satisfy `State.Inv`;
no step stops the machine. -/

namespace Sys2Proof.Machine

/-! ### Quantities the rules name -/

/-- `n_1 + ... + n_m`. -/
def sumCounts (n : Nat → Nat) : Nat → Nat
  | 0 => 0
  | m + 1 => sumCounts n m + n (m + 1)

/-- `FIRST[L]`, the running code value when `build` enters length `L` (R143). -/
def firstCode (n : Nat → Nat) : Nat → Nat
  | 0 => 0
  | 1 => 0
  | L + 2 => 2 * (firstCode n (L + 1) + n (L + 1))

/-- No key of the map is a proper prefix of another (R144). -/
def prefixFree (map : Nat → Nat → Option Byte) : Prop :=
  ∀ L L' v v', L < L' → v < 65536 → v' < 65536 → (map L v).isSome → (map L' v').isSome →
    v' / 2 ^ (L' - L) ≠ v

/-- A code of a map with its symbol: length, value, symbol (R99). -/
abbrev Coded := Nat × Nat × Byte

/-- The bit sequence from position `c` on begins with these codes, one after the other (R100). -/
def spells (bit : Nat → Nat) : Nat → List Coded → Prop
  | _, [] => True
  | c, (L, v, _) :: rest => window bit c L = v ∧ spells bit (c + L) rest

/-- `k` steps of the running unit, the host doing nothing. -/
def unitSteps : Nat → State → State
  | 0, s => s
  | k + 1, s => unitSteps k (unitStep s)

/-! ### The state invariant -/

/-- All three units are idle (R41). -/
def State.UnitsIdle (s : State) : Prop := s.tlState = .idle ∧ s.tbState = .idle ∧ s.edState = .idle

/-- BUSY is 0, all three units are idle and nothing is still to be done (R41, R42). -/
def State.Idle (s : State) : Prop := s.status.busy = false ∧ s.UnitsIdle ∧ s.held = none

/-- At most one of the three units is not idle (R41). -/
def State.OneUnitAtMost (s : State) : Prop :=
  (s.tbState = .idle ∧ s.edState = .idle) ∨ (s.tlState = .idle ∧ s.edState = .idle) ∨
  (s.tlState = .idle ∧ s.tbState = .idle)

/-- What holds while TL runs: the valid flags are withdrawn, and P, K, J, TOT say where in the
definition the loader is (R40, R122). -/
def TlRunning (s : State) : Prop :=
  s.status.tblValid = false ∧ s.status.mapValid = false ∧ s.inCount ≤ s.ibufSize ∧
  match s.tlState with
  | .idle => True
  | .id => s.tl.p.toNat = 0
  | .counts =>
    1 ≤ s.tl.k.toNat ∧ s.tl.k.toNat ≤ 17 ∧ s.tl.p.toNat = s.tl.k.toNat ∧ s.tl.p.toNat ≤ s.inCount ∧
    s.tl.tot.toNat = sumCounts s.ht.count (s.tl.k.toNat - 1)
  | .syms =>
    1 ≤ s.tl.k.toNat ∧ s.tl.k.toNat ≤ 17 ∧
    (s.tl.k.toNat ≤ 16 → s.tl.j.toNat ≤ s.ht.count s.tl.k.toNat) ∧
    (s.tl.k.toNat = 17 → s.tl.j.toNat = 0) ∧
    s.tl.p.toNat = 17 + sumCounts s.ht.count (s.tl.k.toNat - 1) + s.tl.j.toNat ∧
    s.tl.p.toNat ≤ s.inCount ∧
    s.tl.tot.toNat = sumCounts s.ht.count 16

/-- What holds while TB runs: going on from L, IDX, CODE and the partial map gives what `build` gives
(R38, R142), and CODE is at most `2^L` (R146). -/
def TbRunning (s : State) : Prop :=
  s.status.tblValid = true ∧ s.status.mapValid = false ∧ s.cmap.bg = none ∧
  1 ≤ s.tb.l.toNat ∧ s.tb.l.toNat ≤ 16 ∧ s.tb.code.toNat ≤ 2 ^ s.tb.l.toNat ∧
  match s.tbState with
  | .idle => True
  | .assign =>
    s.tb.idx.toNat ≤ s.ht.count s.tb.l.toNat ∧
    (match assignBucket s.tb.l.toNat s.tb.code.toNat ((s.ht.bucket s.tb.l.toNat).drop s.tb.idx.toNat)
        s.cmap.cells with
      | none => none
      | some (code, m) =>
        buildFrom s.ht.bucket (16 - s.tb.l.toNat) (s.tb.l.toNat + 1) (code * 2) m) = build s.ht.bucket
  | .shift =>
    buildFrom s.ht.bucket (16 - s.tb.l.toNat) (s.tb.l.toNat + 1) (s.tb.code.toNat * 2) s.cmap.cells
      = build s.ht.bucket

/-- What holds while ED runs: the earlier result is withdrawn, NBITS is `8 * IN_LEN`, and CURSOR and
OPTR stay in their ranges (R39, R173, R178). -/
def EdRunning (s : State) : Prop :=
  s.status.mapValid = true ∧ s.status.outValid = false ∧ s.inCount ≤ s.ibufSize ∧
  s.ed.nbits.toNat = 8 * s.inCount ∧ s.ed.cursor.toNat ≤ s.ed.nbits.toNat ∧
  s.ed.optr.toNat ≤ s.ed.cursor.toNat ∧
  (s.edState = .tryLen →
    s.ed.cursor.toNat < s.ed.nbits.toNat ∧ 1 ≤ s.ed.len.toNat ∧ s.ed.len.toNat ≤ 17)

/-- What holds of a state in which no completion is put off: the legal parameter (R6), the canonical form
of every store, the invariants of R42, and while a unit runs what its working registers mean. -/
structure State.Sound (s : State) : Prop where
  /-- `1 <= IBUF_SIZE` (R6) -/
  capPos : 1 ≤ s.ibufSize
  /-- `IBUF_SIZE <= 2^28` (R6) -/
  capMax : s.ibufSize ≤ Config.ibufSizeMax
  ibufWf : s.ibuf.wf
  ibufIn : ∀ c ∈ s.ibuf.cells, c.1 < s.ibufSize
  obufWf : s.obuf.wf
  obufIn : ∀ c ∈ s.obuf.cells, c.1 < 8 * s.ibufSize
  cntWf : s.ht.cnt.wf
  cntIn : ∀ c ∈ s.ht.cnt.cells, 1 ≤ c.1 ∧ c.1 ≤ 16
  symWf : s.ht.sym.wf
  symIn : ∀ c ∈ s.ht.sym.cells, ∃ L i, 1 ≤ L ∧ L ≤ 16 ∧ i < 255 ∧ c.1 = symKey L i
  cmapWf : cellsWf s.cmap.cells
  cmapIn : ∀ c ∈ s.cmap.cells, ∃ L v, legalCode L v ∧ c.1 = codeKey L v
  /-- R42, 1 -/
  mapHasTable : s.status.mapValid = true → s.status.tblValid = true
  /-- R42, 2 -/
  mapIsBuilt : s.status.mapValid = true →
    s.cmap.bg = none ∧ build s.ht.bucket = some s.cmap.cells
  /-- R42, 3 -/
  tdefIsLength : s.status.tblValid = true → s.tdefEnd.toNat = 17 + sumCounts s.ht.count 16
  /-- R42, 4 -/
  errHasCode : s.status.err = false ↔ s.status.errCode = .none
  /-- R42, 5 -/
  noOutNoLength : s.status.outValid = false → s.outLen = 0#32
  /-- R42, 6 -/
  outNoRemainder : s.status.outValid = true → s.bitRem = 0#32
  /-- R42, 7 -/
  idleUnits : s.status.busy = false → s.tlState = .idle ∧ s.tbState = .idle ∧ s.edState = .idle
  /-- one unit only (R41); that with no completion put off there is one is MODEL'S OWN (assumption 8) -/
  oneUnit : s.status.busy = true →
    (s.tlState ≠ .idle ∧ s.tbState = .idle ∧ s.edState = .idle) ∨
    (s.tlState = .idle ∧ s.tbState ≠ .idle ∧ s.edState = .idle) ∨
    (s.tlState = .idle ∧ s.tbState = .idle ∧ s.edState ≠ .idle)
  tlRun : s.tlState ≠ .idle → TlRunning s
  tbRun : s.tbState ≠ .idle → TbRunning s
  edRun : s.edState ≠ .idle → EdRunning s

/-- The state with no completion put off that this one stands for: an accepted command that has not begun
is taken back, a unit's held results are written. -/
def State.settled (s : State) : State :=
  match s.held with
  | none => s
  | some (.accepted _) => { s with held := none, status := { s.status with busy := false } }
  | some (.result r) => writeResult r s

/-- Every valid flag that is 1 in the STATUS is 1 in the results too. -/
def Status.FlagsIn (t : Status) (r : Result) : Prop :=
  (t.tblValid = true → r.tblValid = true) ∧ (t.mapValid = true → r.mapValid = true) ∧
  (t.outValid = true → r.outValid = true)

/-- The invariant: the settled state is sound, while a completion is put off BUSY is 1 and all three units
are idle (R41), and results that are held lower no valid flag. -/
structure State.Inv (s : State) : Prop where
  sound : s.settled.Sound
  heldBusy : s.held ≠ none → s.status.busy = true ∧ s.UnitsIdle
  /-- The flags a command lowers were lowered at its acceptance (assumptions 8, 10). -/
  heldFlags : ∀ r, s.held = some (.result r) → s.status.FlagsIn r

/-- The cause with which command `i`, accepted in `s`, fails (R211), its conditions in the order of R213. -/
def Fails (i : Instr) (s : State) (c : ErrCode) : Prop :=
  match i with
  | .clr => False
  | .ldt =>
    (s.ibufSize < s.inCount ∧ c = .len) ∨
    (s.inCount ≤ s.ibufSize ∧ parse s.ibufAt s.inCount = .error c)
  | .bld =>
    (s.status.tblValid = false ∧ c = .noTbl) ∨
    (s.status.tblValid = true ∧ build s.ht.bucket = none ∧ c = .overSub)
  | .dec =>
    (s.status.mapValid = false ∧ c = .noMap) ∨
    (s.status.mapValid = true ∧ s.ibufSize < s.inCount ∧ c = .len) ∨
    (s.status.mapValid = true ∧ s.inCount ≤ s.ibufSize ∧
      (∃ cur, decode s.cmap.lookup s.ibufAt s.inCount = .error cur) ∧ c = .noCode)
  | .lkp _ _ => s.status.mapValid = false ∧ c = .noMap

/-! ### What the spec specifies of a state -/

/-- Two states agree on everything the spec gives a value: the registers and flags, IBUF, HT while
TBL_VALID is 1 (the symbols below their counts, R33), CMAP while MAP_VALID is 1 (R34), and OBUF below
OUT_LEN while OUT_VALID is 1 (R37). They may differ in all that U5 and U6 leave unspecified. -/
structure SameSpecified (s t : State) : Prop where
  status : s.status = t.status
  inLen : s.inLen = t.inLen
  outLen : s.outLen = t.outLen
  bitPos : s.bitPos = t.bitPos
  bitRem : s.bitRem = t.bitRem
  tdefEnd : s.tdefEnd = t.tdefEnd
  lkpRes : s.lkpRes = t.lkpRes
  held : s.held = t.held
  ibufSize : s.ibufSize = t.ibufSize
  ibuf : ∀ i, i < s.ibufSize → s.ibufAt i = t.ibufAt i
  identity : s.status.tblValid = true → s.ht.cls = t.ht.cls ∧ s.ht.id = t.ht.id
  counts : s.status.tblValid = true → ∀ L, 1 ≤ L → L ≤ 16 → s.ht.count L = t.ht.count L
  symbols : s.status.tblValid = true → ∀ L, 1 ≤ L → L ≤ 16 → ∀ i, i < s.ht.count L →
    s.ht.symbol L i = t.ht.symbol L i
  cmap : s.status.mapValid = true → ∀ L v, 1 ≤ L → L ≤ 16 → v < 65536 →
    s.cmap.lookup L v = t.cmap.lookup L v
  obuf : s.status.outValid = true → ∀ i, i < s.outLen.toNat → s.obufAt i = t.obufAt i

end Sys2Proof.Machine
end

