-- ==== Sys2Proof/Certificates/Slice0/Obligations.lean ====
section
/-! DEFINITION. The statements for the provers, from the numbered rules of the spec. An unspecified value
is a free value of Config, so every statement holds for all of them. -/

open Sys2Proof Sys2Proof.Machine

/-! ### Reset, CLR, illegal words, acceptance -/

/-- R44, for every legal IBUF_SIZE: after reset STATUS and every register read 0 except CAP, the units
are idle, OBUF reads 0 everywhere, and no store has a specified content. -/
def Obligations.ResetRegistersReadTheirValues : Prop :=
  ∀ n, 1 ≤ n → n ≤ Config.ibufSizeMax →
    (∀ r, regValue (State.resetWith n) r = if r = 9 then BitVec.ofNat 32 n else 0#32) ∧
    (State.resetWith n).status = Status.cleared ∧ (State.resetWith n).Idle ∧
    (∀ i, obufValue (State.resetWith n) i = 0#8) ∧
    (State.resetWith n).ibuf.cells = [] ∧ (State.resetWith n).obuf.cells = [] ∧
    (State.resetWith n).ht.cnt.cells = [] ∧ (State.resetWith n).ht.sym.cells = [] ∧
    (∃ g, (State.resetWith n).cmap = ⟨some g, []⟩)

/-- The invariant holds at reset, for every legal IBUF_SIZE (R6, R42, R44). -/
def Obligations.ResetMeetsInvariant : Prop :=
  ∀ n, 1 ≤ n → n ≤ Config.ibufSizeMax → (State.resetWith n).Inv

/-- R240: reset at any moment, also while a command runs, leaves an idle block with every register at its
reset value; it accepts a command at once. -/
def Obligations.HardResetStopsEverything : Prop :=
  ∀ s rest, s.port = .hwReset :: rest →
    ∃ t, step s = .next t ∧ t.Idle ∧ t.status = Status.cleared ∧
      (∀ r, regValue t r = if r = 9 then BitVec.ofNat 32 s.ibufSize else 0#32) ∧
      (∀ i, obufValue t i = 0#8) ∧ t.ibufSize = s.ibufSize ∧ t.port = rest ∧ t.replies = s.replies ∧
      (∀ w i, rest = [.access (.regWrite 0 w)] → decodeCmd w = .ok i →
        step t = exec i { t with port := [] })

/-- R200: CLR completes from every state with every register at its reset value, the contents of HT, CMAP
and OBUF unspecified (U5; that they are the free contents of the current draw is the MODEL'S CHOICE, log
entry 2) and IBUF as it was; nothing outside its list changes. It is the only command that writes IN_LEN or
clears OVR; its opcode under any non-zero upper bit is no CLR; and written to a busy block it is
discarded. -/
def Obligations.ClrClearsAndKeepsIbuf : Prop :=
  (∀ s, ∃ t, exec .clr s = .next t ∧ t.status = Status.cleared ∧
    (∀ r, regValue t r = if r = 9 then BitVec.ofNat 32 s.ibufSize else 0#32) ∧
    (∀ i, obufValue t i = 0#8) ∧ t.ibuf = s.ibuf ∧
    t.ht = .unspecified s.freeCtr ∧ t.cmap = .unspecified s.freeCtr ∧ t.obuf = .unspecified s.freeCtr ∧
    t.tlState = s.tlState ∧ t.tbState = s.tbState ∧ t.edState = s.edState ∧
    t.tl = s.tl ∧ t.tb = s.tb ∧ t.ed = s.ed ∧
    t.ibufSize = s.ibufSize ∧ t.port = s.port ∧ t.replies = s.replies ∧ t.held = s.held) ∧
  (∀ i s t, exec i s = .next t → i ≠ .clr → t.inLen = s.inLen ∧ t.status.ovr = s.status.ovr) ∧
  decodeCmd 1#32 = .ok .clr ∧
  (∀ w : Word, w.toNat % 256 = 1 → w ≠ 1#32 → ∃ e, decodeCmd w = .error e) ∧
  (∀ s rest, s.status.busy = true → s.port = .access (.regWrite 0 1#32) :: rest →
    step s = .next { s with port := rest, status := { s.status with ovr := true } })

/-- R201: an accepted word that is no command sets ERR and ERRCODE = E_ILLCMD (7) and changes nothing
else, whatever preconditions fail besides; written to a busy block it only sets OVR. -/
def Obligations.IllegalWordChangesOnlyErr : Prop :=
  ∀ s w e, decodeCmd w = .error e →
    (s.status.busy = false →
      runCommand w s = .next { s with status := { s.status with err := true, errCode := .illCmd } }) ∧
    (∀ rest, s.status.busy = true → s.port = .access (.regWrite 0 w) :: rest →
      step s = .next { s with port := rest, status := { s.status with ovr := true } }) ∧
    ErrCode.illCmd.code = 7#4

/-- R22: a CMD write to an idle block runs the command the word encodes; to a busy block it is discarded
and sets OVR; CMD reads 0 at all times. At the operation level the command runs to its end in the step of
the write; at the step level that step is the acceptance alone, which starts the loader, the builder or
the decoder. (The two kinds of CMD write are the model's own, log entry 4.) -/
def Obligations.CmdWriteRunsTheDecodedCommand : Prop :=
  (∀ s w rest, s.port = .access (.regWrite 0 w) :: rest →
    (s.status.busy = false →
      (∀ i, decodeCmd w = .ok i → step s = exec i { s with port := rest }) ∧
      (∀ e, decodeCmd w = .error e → step s = .next (illegalBody { s with port := rest }))) ∧
    (s.status.busy = true →
      step s = .next { s with port := rest, status := { s.status with ovr := true } })) ∧
  (∀ s w rest, s.port = .startCmd false w :: rest →
    (s.status.busy = false →
      (decodeCmd w = .ok .ldt → step s = .next (ldtStart { s with port := rest })) ∧
      (decodeCmd w = .ok .bld → step s = .next (bldStart { s with port := rest })) ∧
      (decodeCmd w = .ok .dec → step s = .next (decStart { s with port := rest })) ∧
      (decodeCmd w = .ok .clr → step s = exec .clr { s with port := rest }) ∧
      (∀ len pat, decodeCmd w = .ok (.lkp len pat) → step s = exec (.lkp len pat) { s with port := rest }) ∧
      (∀ e, decodeCmd w = .error e → step s = .next (illegalBody { s with port := rest }))) ∧
    (s.status.busy = true →
      step s = .next { s with port := rest, status := { s.status with ovr := true } })) ∧
  (∀ s, regValue s 0 = 0#32 ∧ ∀ f, regValueBusy f s 0 = 0#32)

/-- The word placed by `withFetchWord` is the one the next step decodes and runs. MODEL'S CHOICE (log
entries 4 and 11): that the placed word is the host's next CMD write, and that placing it makes the block
idle; that an idle block then runs the word it decodes is what acceptance says (R22, R202). -/
def Obligations.PlacedWordRunsNext : Prop :=
  ∀ (s : State) (nbits w : Nat) (i : Instr), decodeTableWord nbits w = some i →
    step (s.withFetchWord nbits w) =
      exec i { s with status := { s.status with busy := false }, tlState := .idle, tbState := .idle,
                      edState := .idle, held := none }

/-- Every step of every state answers a next state: nothing stops the block. DEDUCED (log entry 13) from
what the rules say of every word (R93), every failure (R214) and every access, idle or busy, in range or
not (R21, R63, R72). -/
def Obligations.StepAlwaysAnswersNext : Prop :=
  ∀ s, ∃ t, step s = .next t

/-! ### Command words -/

/-- Words written out from the formats of R90 decode to their commands, and words R93 names do not. -/
def Obligations.SpecWordsDecode : Prop :=
  decodeCmd 0x00000001#32 = .ok .clr ∧ decodeCmd 0x00000002#32 = .ok .ldt ∧
  decodeCmd 0x00000003#32 = .ok .bld ∧ decodeCmd 0x00000004#32 = .ok .dec ∧
  decodeCmd 0x000A0405#32 = .ok (.lkp 4#5 10#16) ∧ decodeCmd 0xFFFE1005#32 = .ok (.lkp 16#5 65534#16) ∧
  decodeCmd 0xFFFF0105#32 = .ok (.lkp 1#5 65535#16) ∧
  decodeCmd 0x00000000#32 = .error .opcode ∧ decodeCmd 0x00000102#32 = .error .upperBits ∧
  decodeCmd 0x00008405#32 = .error .reservedBits ∧ decodeCmd 0x00001105#32 = .error .lenRange

/-- R90: which words are which commands: format Z is the opcode alone, format K is
`PAT << 16 | LEN << 8 | 0x05` with LEN in 1..16. -/
def Obligations.CommandWordsAreTheTwoFormats : Prop :=
  ∀ (w : Word) (i : Instr),
    decodeCmd w = .ok i ↔
      (i = .clr ∧ w.toNat = 1) ∨ (i = .ldt ∧ w.toNat = 2) ∨ (i = .bld ∧ w.toNat = 3) ∨
      (i = .dec ∧ w.toNat = 4) ∨
      ∃ len pat, i = .lkp len pat ∧ 1 ≤ len.toNat ∧ len.toNat ≤ 16 ∧
        w.toNat = pat.toNat * 65536 + len.toNat * 256 + 5

/-- R93: the illegal words are exactly those of its four cases, and an accepted illegal word fails with
E_ILLCMD changing nothing but ERR and ERRCODE. -/
def Obligations.IllegalWordsAreTheFourCases : Prop :=
  ∀ w : Word,
    ((∃ e, decodeCmd w = .error e) ↔
      (w.toNat % 256 = 0 ∨ 6 ≤ w.toNat % 256) ∨
      (1 ≤ w.toNat % 256 ∧ w.toNat % 256 ≤ 4 ∧ w.toNat / 256 ≠ 0) ∨
      (w.toNat % 256 = 5 ∧ w.toNat / 8192 % 8 ≠ 0) ∨
      (w.toNat % 256 = 5 ∧ (w.toNat / 256 % 32 = 0 ∨ 17 ≤ w.toNat / 256 % 32))) ∧
    (∀ s, s.status.busy = false → (∃ e, decodeCmd w = .error e) →
      runCommand w s = .next { s with status := { s.status with err := true, errCode := .illCmd } })

/-- Decoding the word of a well-formed command gives the command back, with every operand value. -/
def Obligations.DecodeInvertsEncode : Prop :=
  ∀ i : Instr, i.wf = true → decodeCmd (encode i) = .ok i

/-- A word that decodes is the word of the command it decodes to, and that command is well formed: no bit
of a command word is ignored. -/
def Obligations.EncodeInvertsDecode : Prop :=
  ∀ w i, decodeCmd w = .ok i → encode i = w ∧ i.wf = true

/-! ### LDT -/

/-- R121: `parse` succeeds exactly when the identity byte is there and legal and the buffer holds the
counts and all the symbols they declare, and then answers the identity, the counts, the symbols and the
index after the last byte it read, and depends on no byte after it; otherwise the cause follows the order
of the bytes. -/
def Obligations.ParseSucceedsExactlyOnWholeDefinitions : Prop :=
  ∀ (buf : Nat → Byte) (n : Nat),
    ((∃ t, parse buf n = .ok t) ↔
      1 ≤ n ∧ buf 0 ∈ [0x00#8, 0x01#8, 0x10#8, 0x11#8] ∧
        17 + sumCounts (fun L => (buf L).toNat) 16 ≤ n) ∧
    (parse buf n = .error .trunc ↔
      n = 0 ∨ (buf 0 ∈ [0x00#8, 0x01#8, 0x10#8, 0x11#8] ∧
        n < 17 + sumCounts (fun L => (buf L).toNat) 16)) ∧
    (parse buf n = .error .badId ↔ 1 ≤ n ∧ buf 0 ∉ [0x00#8, 0x01#8, 0x10#8, 0x11#8]) ∧
    (∀ t, parse buf n = .ok t →
      t.cls.toNat = (buf 0).toNat / 16 ∧ t.id.toNat = (buf 0).toNat % 16 ∧
      t.cnt.length = 16 ∧ t.sym.length = 16 ∧
      t.fin = 17 + sumCounts (fun L => (buf L).toNat) 16 ∧
      (∀ L, 1 ≤ L → L ≤ 16 → t.cnt[L - 1]? = some (buf L) ∧
        ∃ b, t.sym[L - 1]? = some b ∧ b.length = (buf L).toNat ∧
          ∀ i, ∀ h : i < b.length, b[i] = buf (17 + sumCounts (fun L => (buf L).toNat) (L - 1) + i)) ∧
      (∀ buf', (∀ i, i < t.fin → buf' i = buf i) → parse buf' n = .ok t))

/-- LDT on a whole definition (R120, R95, R96): it completes with the identity, the counts and the
symbols where the layout puts them, TDEF_END the definition's length, TBL_VALID 1, MAP_VALID 0, and the
rest of the state unchanged. (CMAP, invalid now, is left out: its content is unspecified, R34.) -/
def Obligations.LdtLoadsTheTable : Prop :=
  ∀ s : State, s.inCount ≤ s.ibufSize → 1 ≤ s.inCount →
    s.ibufAt 0 ∈ [0x00#8, 0x01#8, 0x10#8, 0x11#8] →
    17 + sumCounts (fun L => (s.ibufAt L).toNat) 16 ≤ s.inCount →
    ∃ t, exec .ldt s = .next t ∧
      t.status = { s.status with tblValid := true, mapValid := false, err := false, errCode := .none,
                                 busy := false } ∧
      t.tdefEnd.toNat = 17 + sumCounts (fun L => (s.ibufAt L).toNat) 16 ∧
      t.ht.cls.toNat = (s.ibufAt 0).toNat / 16 ∧ t.ht.id.toNat = (s.ibufAt 0).toNat % 16 ∧
      (∀ L, 1 ≤ L → L ≤ 16 → t.ht.count L = (s.ibufAt L).toNat) ∧
      (∀ L, 1 ≤ L → L ≤ 16 → ∀ i, i < t.ht.count L →
        t.ht.symbol L i = s.ibufAt (17 + sumCounts (fun L => (s.ibufAt L).toNat) (L - 1) + i)) ∧
      t.inLen = s.inLen ∧ t.outLen = s.outLen ∧ t.bitPos = s.bitPos ∧ t.bitRem = s.bitRem ∧
      t.lkpRes = s.lkpRes ∧ t.ibuf = s.ibuf ∧ t.obuf = s.obuf ∧
      t.tlState = .idle ∧ t.tbState = s.tbState ∧ t.edState = s.edState ∧ t.tb = s.tb ∧ t.ed = s.ed ∧
      t.ibufSize = s.ibufSize ∧ t.port = s.port ∧ t.replies = s.replies ∧ t.held = s.held

/-- LDT's failures in the order they are tested (R120, R213): E_LEN, then the failures of `parse`. A
failed LDT leaves no table and no map and TDEF_END 0 (R212), and the rest unchanged. -/
def Obligations.LdtFailureWithdrawsTheTable : Prop :=
  ∀ (s : State) (c : ErrCode),
    (s.ibufSize < s.inCount ∧ c = .len) ∨
      (s.inCount ≤ s.ibufSize ∧ parse s.ibufAt s.inCount = .error c) →
    ∃ t, exec .ldt s = .next t ∧
      t.status = { s.status with tblValid := false, mapValid := false, err := true, errCode := c,
                                 busy := false } ∧
      t.tdefEnd = 0#32 ∧ regValue t 8 = 0#32 ∧
      t.inLen = s.inLen ∧ t.outLen = s.outLen ∧ t.bitPos = s.bitPos ∧ t.bitRem = s.bitRem ∧
      t.lkpRes = s.lkpRes ∧ t.ibuf = s.ibuf ∧ t.obuf = s.obuf ∧
      t.tlState = .idle ∧ t.tbState = s.tbState ∧ t.edState = s.edState ∧ t.tb = s.tb ∧ t.ed = s.ed ∧
      t.ibufSize = s.ibufSize ∧ t.port = s.port ∧ t.replies = s.replies ∧ t.held = s.held

/-! ### BLD and the code map -/

/-- BLD (R141): with a valid table that `build` accepts it completes with CMAP the built map and
MAP_VALID 1; without a table it fails with E_NOTBL, and on a table that does not fit with E_OVERSUB,
MAP_VALID 0 and the table kept. Nothing else changes. -/
def Obligations.BldBuildsTheMap : Prop :=
  ∀ s : State, ∃ t, exec .bld s = .next t ∧
    (s.status.tblValid = true → ∀ m, build s.ht.bucket = some m →
      t.cmap = ⟨none, m⟩ ∧
      t.status = { s.status with mapValid := true, err := false, errCode := .none, busy := false }) ∧
    (s.status.tblValid = true → build s.ht.bucket = none →
      t.status = { s.status with mapValid := false, err := true, errCode := .overSub, busy := false }) ∧
    (s.status.tblValid = false →
      t.status = { s.status with mapValid := false, err := true, errCode := .noTbl, busy := false }) ∧
    t.ht = s.ht ∧ t.tdefEnd = s.tdefEnd ∧ regValue t 8 = regValue s 8 ∧
    t.inLen = s.inLen ∧ t.outLen = s.outLen ∧ t.bitPos = s.bitPos ∧ t.bitRem = s.bitRem ∧
    t.lkpRes = s.lkpRes ∧ t.ibuf = s.ibuf ∧ t.obuf = s.obuf ∧
    t.tlState = s.tlState ∧ t.tbState = .idle ∧ t.edState = s.edState ∧ t.tl = s.tl ∧ t.ed = s.ed ∧
    t.ibufSize = s.ibufSize ∧ t.port = s.port ∧ t.replies = s.replies ∧ t.held = s.held

/-- R143: a built map holds exactly the canonical codes: symbol `i` of bucket `L` under the pair
(L, FIRST[L] + i) and no other pair; and FIRST[L] is the weighted sum of the shorter counts. -/
def Obligations.BuiltMapHoldsTheCanonicalCodes : Prop :=
  ∀ (bucket : Nat → List Byte) (m : List Host.Cell), build bucket = some m →
    (∀ L v b, v < 65536 →
      ((CodeMap.mk none m).lookup L v = some b ↔
        1 ≤ L ∧ L ≤ 16 ∧ ∃ i, ∃ h : i < (bucket L).length,
          v = firstCode (fun L => (bucket L).length) L + i ∧ b = (bucket L)[i])) ∧
    (∀ L, 1 ≤ L → firstCode (fun L => (bucket L).length) L =
      ∑ j ∈ Finset.Ico 1 L, (bucket j).length * 2 ^ (L - j))

/-- A built map is prefix-free (R144); so the map of every block that meets the invariant and has
MAP_VALID 1 is, idle or busy, also while a completion is put off. (Where a unit's results are put off the
second clause rests on the model's own clause of the invariant that they lower no valid flag, log entry
8.) -/
def Obligations.BuiltMapIsPrefixFree : Prop :=
  (∀ (bucket : Nat → List Byte) (m : List Host.Cell), build bucket = some m →
    prefixFree (CodeMap.mk none m).lookup) ∧
  (∀ s : State, s.Inv → s.status.mapValid = true → prefixFree s.cmap.lookup)

/-- R145: a built map has exactly one key per symbol occurrence, `n_1 + ... + n_16` keys, all distinct. -/
def Obligations.OneKeyPerSymbol : Prop :=
  ∀ (bucket : Nat → List Byte) (m : List Host.Cell), build bucket = some m →
    m.length = sumCounts (fun L => (bucket L).length) 16 ∧ (m.map Prod.fst).Nodup

/-- R147, first sentence: `build` succeeds exactly when the counts satisfy `n_1/2 + ... + n_16/2^16 <= 1`. -/
def Obligations.BuildSucceedsIffKraft : Prop :=
  ∀ bucket : Nat → List Byte,
    (build bucket).isSome = true ↔
      ∑ L ∈ Finset.Icc 1 16, ((bucket L).length : ℚ) / 2 ^ L ≤ 1

/-- R149, "the largest table that builds": a built map whose counts are bytes has at most 2041 entries. -/
def Obligations.BuiltMapHasAtMost2041Entries : Prop :=
  ∀ (bucket : Nat → List Byte) (m : List Host.Cell), (∀ L, (bucket L).length ≤ 255) →
    build bucket = some m → m.length ≤ 2041

/-! ### LKP -/

/-- R148: LKP with a map reads the probed pair's symbol into LKP_RES with HIT, or 0 on a miss, which is
no failure; without a map it clears LKP_RES and fails with E_NOMAP. Nothing else changes. A pattern of
`2^LEN` or more always misses. -/
def Obligations.LkpProbesTheMap : Prop :=
  ∀ (s : State) (len : BitVec 5) (pat : BitVec 16), (Instr.lkp len pat).wf = true →
    (s.status.mapValid = true → ∀ b, s.cmap.lookup len.toNat pat.toNat = some b →
      exec (.lkp len pat) s = .next { s with
        lkpRes := 0x100#32 ||| b.setWidth 32
        status := { s.status with err := false, errCode := .none, busy := false } }) ∧
    (s.status.mapValid = true → s.cmap.lookup len.toNat pat.toNat = none →
      exec (.lkp len pat) s = .next { s with
        lkpRes := 0#32
        status := { s.status with err := false, errCode := .none, busy := false } }) ∧
    (s.status.mapValid = false →
      exec (.lkp len pat) s = .next { s with
        lkpRes := 0#32
        status := { s.status with err := true, errCode := .noMap, busy := false } }) ∧
    (s.Inv → s.status.mapValid = true → 2 ^ len.toNat ≤ pat.toNat →
      s.cmap.lookup len.toNat pat.toNat = none)

/-! ### DEC -/

/-- DEC (R172) on an input that decodes: it completes with the symbols in OBUF in decode order, OUT_LEN
their number, BITPOS `8 * IN_LEN`, BITREM 0, OUT_VALID 1, and the rest of the state unchanged. -/
def Obligations.DecDeliversTheSymbols : Prop :=
  ∀ (s : State) (out : List Byte) (cur : Nat), s.ibufSize ≤ Config.ibufSizeMax →
    s.status.mapValid = true → s.inCount ≤ s.ibufSize →
    decode s.cmap.lookup s.ibufAt s.inCount = .ok (out, cur) →
    ∃ t, exec .dec s = .next t ∧
      t.status = { s.status with outValid := true, err := false, errCode := .none, busy := false } ∧
      t.outLen.toNat = out.length ∧ t.bitPos.toNat = 8 * s.inCount ∧ t.bitRem = 0#32 ∧
      (∀ k, ∀ h : k < out.length, obufValue t k = out[k]) ∧
      (∀ k, out.length ≤ k → obufValue t k = 0#8) ∧
      t.inLen = s.inLen ∧ t.tdefEnd = s.tdefEnd ∧ t.lkpRes = s.lkpRes ∧ t.ht = s.ht ∧
      t.cmap = s.cmap ∧ t.ibuf = s.ibuf ∧ regValue t 8 = regValue s 8 ∧
      t.tlState = s.tlState ∧ t.tbState = s.tbState ∧ t.edState = .idle ∧ t.tl = s.tl ∧ t.tb = s.tb ∧
      t.ibufSize = s.ibufSize ∧ t.port = s.port ∧ t.replies = s.replies ∧ t.held = s.held

/-- DEC's failures in the order they are tested (R172, R213), with BITPOS and BITREM as R26 and R27 give
them. No partial symbol list is readable (R75), the map and the table survive, the rest is unchanged. -/
def Obligations.DecFailureGivesNoOutput : Prop :=
  ∀ (s : State) (c : ErrCode) (pos rem : Nat), s.ibufSize ≤ Config.ibufSizeMax →
    (s.status.mapValid = false ∧ c = .noMap ∧ pos = 0 ∧ rem = 0) ∨
      (s.status.mapValid = true ∧ s.ibufSize < s.inCount ∧ c = .len ∧ pos = 0 ∧ rem = 0) ∨
      (s.status.mapValid = true ∧ s.inCount ≤ s.ibufSize ∧
        decode s.cmap.lookup s.ibufAt s.inCount = .error pos ∧ c = .noCode ∧
        rem = 8 * s.inCount - pos) →
    ∃ t, exec .dec s = .next t ∧
      t.status = { s.status with outValid := false, err := true, errCode := c, busy := false } ∧
      t.outLen = 0#32 ∧ t.bitPos.toNat = pos ∧ t.bitRem.toNat = rem ∧
      (∀ k, obufValue t k = 0#8) ∧
      t.inLen = s.inLen ∧ t.tdefEnd = s.tdefEnd ∧ t.lkpRes = s.lkpRes ∧ t.ht = s.ht ∧
      t.cmap = s.cmap ∧ t.ibuf = s.ibuf ∧ regValue t 8 = regValue s 8 ∧
      t.tlState = s.tlState ∧ t.tbState = s.tbState ∧ t.edState = .idle ∧ t.tl = s.tl ∧ t.tb = s.tb ∧
      t.ibufSize = s.ibufSize ∧ t.port = s.port ∧ t.replies = s.replies ∧ t.held = s.held

/-- R178: on success the cursor is at the end, each output symbol consumed between 1 and 16 bits, the
length of a key of the map that the bits there spell, and so `NBITS / 16 <= OUT_LEN <= NBITS`; on failure
the cursor is before the end and none of the 16 windows that fit there is a key. -/
def Obligations.DecodeBounds : Prop :=
  ∀ (map : Nat → Nat → Option Byte) (buf : Nat → Byte) (n : Nat),
    (∀ out cur, decode map buf n = .ok (out, cur) →
      cur = 8 * n ∧
      (∃ codes : List Coded, codes.map (fun c => c.2.2) = out ∧
        (∀ c ∈ codes, 1 ≤ c.1 ∧ c.1 ≤ 16 ∧ map c.1 c.2.1 = some c.2.2) ∧
        spells (streamBit buf) 0 codes ∧ (codes.map fun c => c.1).sum = 8 * n) ∧
      out.length ≤ 8 * n ∧ 8 * n ≤ 16 * out.length) ∧
    (∀ cur, decode map buf n = .error cur →
      cur < 8 * n ∧ ∀ L, 1 ≤ L → L ≤ 16 → cur + L ≤ 8 * n →
        map L (window (streamBit buf) cur L) = none)

/-- R175: with a built map at most one length matches at any cursor, so "first match" is "the only
match". -/
def Obligations.AtMostOneLengthMatches : Prop :=
  ∀ (bucket : Nat → List Byte) (m : List Host.Cell), build bucket = some m →
    ∀ (buf : Nat → Byte) (c L L' : Nat), 1 ≤ L → L ≤ 16 → 1 ≤ L' → L' ≤ 16 →
      ((CodeMap.mk none m).lookup L (window (streamBit buf) c L)).isSome = true →
      ((CodeMap.mk none m).lookup L' (window (streamBit buf) c L')).isSome = true → L = L'

/-- With a built map, decoding succeeds with the symbols `out` exactly when the whole bit sequence is a
concatenation of codes of the map whose symbols are `out` (R100, R171, R175). -/
def Obligations.DecodeIsParsingIntoCodes : Prop :=
  ∀ (bucket : Nat → List Byte) (m : List Host.Cell), build bucket = some m →
    ∀ (buf : Nat → Byte) (n : Nat) (out : List Byte),
      decode (CodeMap.mk none m).lookup buf n = .ok (out, 8 * n) ↔
        ∃ codes : List Coded,
          (∀ c ∈ codes, 1 ≤ c.1 ∧ c.1 ≤ 16 ∧ (CodeMap.mk none m).lookup c.1 c.2.1 = some c.2.2) ∧
          spells (streamBit buf) 0 codes ∧ (codes.map fun c => c.1).sum = 8 * n ∧
          codes.map (fun c => c.2.2) = out

/-- R179: two DEC with the same CMAP, the same IN_LEN and the same bytes in IBUF[0 .. IN_LEN-1] end with
the same OUT_LEN, the same OBUF below it, and the same BITPOS, BITREM, ERR and ERRCODE, whatever else the
two states hold. -/
def Obligations.SameInputsDecodeAlike : Prop :=
  ∀ s t s' t' : State, exec .dec s = .next s' → exec .dec t = .next t' →
    s.ibufSize = t.ibufSize → s.status.mapValid = true → t.status.mapValid = true →
    s.cmap = t.cmap → s.inLen = t.inLen → (∀ i, i < s.inCount → s.ibufAt i = t.ibufAt i) →
    s'.outLen = t'.outLen ∧ (∀ k, k < s'.outLen.toNat → s'.obufAt k = t'.obufAt k) ∧
    s'.bitPos = t'.bitPos ∧ s'.bitRem = t'.bitRem ∧ s'.status.err = t'.status.err ∧
    s'.status.errCode = t'.status.errCode ∧ s'.status.outValid = t'.status.outValid

/-- R64: bit `k` of the sequence is bit `7 - (k mod 8)` of byte `k div 8`. -/
def Obligations.StreamBitsAreMsbFirst : Prop :=
  ∀ (buf : Nat → Byte) (k : Nat), streamBit buf k = ((buf (k / 8)).getLsbD (7 - k % 8)).toNat

/-- R65: the window of `n` bits is the sum of its bits weighted most significant first, and is below
`2^n`. -/
def Obligations.WindowIsTheWeightedSum : Prop :=
  ∀ (buf : Nat → Byte) (c n : Nat),
    window (streamBit buf) c n = ∑ j ∈ Finset.range n, streamBit buf (c + j) * 2 ^ (n - 1 - j) ∧
    window (streamBit buf) c n < 2 ^ n

/-! ### The result registers over all commands -/

/-- R25, R26, R27: what OUT_LEN, BITPOS and BITREM hold after a DEC that succeeded, that found no code and
that failed before its loop, after CLR and after reset; no other command changes them. -/
def Obligations.DecRecordsLengthCursorAndRemainder : Prop :=
  ∀ (i : Instr) (s t : State), s.ibufSize ≤ Config.ibufSizeMax → exec i s = .next t →
    (i = .dec → t.status.err = false →
      ∃ out, decode s.cmap.lookup s.ibufAt s.inCount = .ok (out, 8 * s.inCount) ∧
        t.outLen.toNat = out.length ∧ out.length ≤ 8 * s.inCount ∧
        t.bitPos.toNat = 8 * s.inCount ∧ t.bitRem = 0#32) ∧
    (i = .dec → t.status.err = true → t.outLen = 0#32 ∧
      (((t.status.errCode = .noMap ∨ t.status.errCode = .len) ∧ t.bitPos = 0#32 ∧ t.bitRem = 0#32) ∨
        (t.status.errCode = .noCode ∧
          decode s.cmap.lookup s.ibufAt s.inCount = .error t.bitPos.toNat ∧
          t.bitRem.toNat = 8 * s.inCount - t.bitPos.toNat ∧ 1 ≤ t.bitRem.toNat))) ∧
    (i = .clr → t.outLen = 0#32 ∧ t.bitPos = 0#32 ∧ t.bitRem = 0#32) ∧
    (i ≠ .dec → i ≠ .clr → t.outLen = s.outLen ∧ t.bitPos = s.bitPos ∧ t.bitRem = s.bitRem) ∧
    (hardReset s).outLen = 0#32 ∧ (hardReset s).bitPos = 0#32 ∧ (hardReset s).bitRem = 0#32

/-- R28: TDEF_END is the loaded definition's length, between 17 and 4097, after a successful LDT, and 0
after a failed one, CLR and reset; no other command changes it. -/
def Obligations.TdefEndIsTheDefinitionLength : Prop :=
  ∀ (i : Instr) (s t : State), exec i s = .next t →
    (i = .ldt → t.status.err = false →
      t.tdefEnd.toNat = 17 + sumCounts t.ht.count 16 ∧ 17 ≤ t.tdefEnd.toNat ∧
      t.tdefEnd.toNat ≤ 4097) ∧
    (i = .ldt → t.status.err = true → t.tdefEnd = 0#32) ∧ (i = .clr → t.tdefEnd = 0#32) ∧
    (i ≠ .ldt → i ≠ .clr → t.tdefEnd = s.tdefEnd) ∧ (hardReset s).tdefEnd = 0#32

/-- R29: LKP_RES is HIT in bit 8 over SYM after a successful LKP, all 0 on a miss, and 0 after `E_NOMAP`,
CLR and reset; no other command and no illegal word changes it. -/
def Obligations.LkpResHoldsTheLastProbe : Prop :=
  ∀ (s : State),
    (∀ len pat t, exec (.lkp len pat) s = .next t →
      (t.status.err = false →
        (∃ b, s.cmap.lookup len.toNat pat.toNat = some b ∧ t.lkpRes.extractLsb' 0 8 = b ∧
          t.lkpRes.getLsbD 8 = true ∧ t.lkpRes.extractLsb' 9 23 = 0#23) ∨
        (s.cmap.lookup len.toNat pat.toNat = none ∧ t.lkpRes = 0#32)) ∧
      (t.status.err = true → t.status.errCode = .noMap ∧ t.lkpRes = 0#32)) ∧
    (∀ t, exec .clr s = .next t → t.lkpRes = 0#32) ∧ (hardReset s).lkpRes = 0#32 ∧
    (∀ i t, i = .ldt ∨ i = .bld ∨ i = .dec → exec i s = .next t → t.lkpRes = s.lkpRes) ∧
    (∀ w e t, decodeCmd w = .error e → runCommand w s = .next t → t.lkpRes = s.lkpRes)

/-- R212: a command that fails with a cause (`Fails`, R211) sets ERR and ERRCODE to that cause and ends; what
each failure leaves behind, command by command and cause by cause; IN_LEN, OVR and IBUF are changed by
none; and a command that reports an error has failed with the cause it reports. -/
def Obligations.FailuresLeaveWhatTheTableSays : Prop :=
  (∀ (i : Instr) (s : State) (c : ErrCode), s.ibufSize ≤ Config.ibufSizeMax → Fails i s c →
    ∃ t, exec i s = .next t ∧ t.status.err = true ∧ t.status.errCode = c ∧ c ≠ .none ∧
    t.status.busy = false ∧ t.inLen = s.inLen ∧ t.status.ovr = s.status.ovr ∧ t.ibuf = s.ibuf ∧
    match i with
    | .clr => False
    | .ldt =>
      (t.status.errCode = .len ∨ t.status.errCode = .trunc ∨ t.status.errCode = .badId) ∧
      t.status.tblValid = false ∧ t.status.mapValid = false ∧ t.status.outValid = s.status.outValid ∧
      t.outLen = s.outLen ∧ t.obuf = s.obuf ∧ t.bitPos = s.bitPos ∧ t.bitRem = s.bitRem ∧
      t.tdefEnd = 0#32 ∧ t.lkpRes = s.lkpRes
    | .bld =>
      ((t.status.errCode = .noTbl ∧ s.status.tblValid = false) ∨
        (t.status.errCode = .overSub ∧ s.status.tblValid = true)) ∧
      t.status.tblValid = s.status.tblValid ∧ t.status.mapValid = false ∧
      t.status.outValid = s.status.outValid ∧ t.outLen = s.outLen ∧ t.obuf = s.obuf ∧
      t.bitPos = s.bitPos ∧ t.bitRem = s.bitRem ∧ t.tdefEnd = s.tdefEnd ∧ t.lkpRes = s.lkpRes ∧
      t.ht = s.ht
    | .dec =>
      (((t.status.errCode = .noMap ∨ t.status.errCode = .len) ∧ t.bitPos = 0#32 ∧ t.bitRem = 0#32) ∨
        (t.status.errCode = .noCode ∧ s.status.mapValid = true ∧
          decode s.cmap.lookup s.ibufAt s.inCount = .error t.bitPos.toNat ∧
          t.bitRem.toNat = 8 * s.inCount - t.bitPos.toNat)) ∧
      t.status.tblValid = s.status.tblValid ∧ t.status.mapValid = s.status.mapValid ∧
      t.status.outValid = false ∧ t.outLen = 0#32 ∧ t.tdefEnd = s.tdefEnd ∧ t.lkpRes = s.lkpRes ∧
      t.ht = s.ht ∧ t.cmap = s.cmap
    | .lkp _ _ =>
      t.status.errCode = .noMap ∧ s.status.mapValid = false ∧
      t.status.tblValid = s.status.tblValid ∧ t.status.mapValid = false ∧
      t.status.outValid = s.status.outValid ∧ t.outLen = s.outLen ∧ t.obuf = s.obuf ∧
      t.bitPos = s.bitPos ∧ t.bitRem = s.bitRem ∧ t.tdefEnd = s.tdefEnd ∧ t.lkpRes = 0#32 ∧
      t.ht = s.ht ∧ t.cmap = s.cmap) ∧
  (∀ (i : Instr) (s t : State), exec i s = .next t → t.status.err = true → Fails i s t.status.errCode) ∧
  (∀ w e s, s.status.busy = false → decodeCmd w = .error e →
    runCommand w s = .next { s with status := { s.status with err := true, errCode := .illCmd } })

/-- R213: the cause an accepted word reports is the first of the failures in the priority order, and none
where none holds; a word written to a busy block reports no cause and only sets OVR. -/
def Obligations.TheFirstFailureInPriorityIsReported : Prop :=
  ∀ (s : State) (w : Word),
    (s.status.busy = false → ∃ t, runCommand w s = .next t ∧
      t.status.errCode =
        match decodeCmd w with
        | .error _ => .illCmd
        | .ok .clr => .none
        | .ok .ldt =>
          if s.ibufSize < s.inCount then .len
          else
            match parse s.ibufAt s.inCount with
            | .error c => c
            | .ok _ => .none
        | .ok .bld =>
          if s.status.tblValid = false then .noTbl
          else if (build s.ht.bucket).isSome then .none else .overSub
        | .ok .dec =>
          if s.status.mapValid = false then .noMap
          else if s.ibufSize < s.inCount then .len
          else
            match decode s.cmap.lookup s.ibufAt s.inCount with
            | .error _ => .noCode
            | .ok _ => .none
        | .ok (.lkp _ _) => if s.status.mapValid = false then .noMap else .none) ∧
    (∀ rest, s.status.busy = true → s.port = .access (.regWrite 0 w) :: rest →
      step s = .next { s with port := rest, status := { s.status with ovr := true } })

/-! ### Registers and the host port -/

/-- R23, R211: where the fields of STATUS stand, and the numbers of the causes. -/
def Obligations.StatusWordLayout : Prop :=
  ∀ t : Status,
    t.word.getLsbD 0 = t.busy ∧ t.word.getLsbD 1 = t.tblValid ∧ t.word.getLsbD 2 = t.mapValid ∧
    t.word.getLsbD 3 = t.outValid ∧ t.word.getLsbD 4 = t.err ∧ t.word.getLsbD 5 = t.ovr ∧
    t.word.extractLsb' 6 2 = 0#2 ∧ t.word.extractLsb' 8 4 = t.errCode.code ∧
    t.word.extractLsb' 12 20 = 0#20 ∧
    [ErrCode.none, .trunc, .badId, .overSub, .noCode, .noTbl, .noMap, .illCmd, .len].map
      (fun c => c.code.toNat) = [0, 1, 2, 3, 4, 5, 6, 7, 8]

/-- R30: TBL_ID is `2 * HT.CLASS + HT.ID` while TBL_VALID is 1 and 0 otherwise, and no command's
behaviour depends on the identity: run with another identity, it does the same and passes that identity
through. -/
def Obligations.TblIdShowsTheIdentityAndNothingUsesIt : Prop :=
  (∀ s : State,
    (s.status.tblValid = true → (regValue s 8).toNat = 2 * s.ht.cls.toNat + s.ht.id.toNat) ∧
    (s.status.tblValid = false → regValue s 8 = 0#32)) ∧
  (∀ (i : Instr) (s : State) (c d : BitVec 1), ∃ t, exec i s = .next t ∧
    exec i { s with ht := { s.ht with cls := c, id := d } } =
      .next (if i = .clr ∨ i = .ldt then t else { t with ht := { t.ht with cls := c, id := d } }))

/-- R32: a register number of 10 or more reads 0, busy or not; a write to it has no effect on an idle
block, and is discarded and sets OVR on a busy one. -/
def Obligations.ReservedRegistersReadZeroAndIgnoreWrites : Prop :=
  ∀ (s : State) (r : Nat) (rest : List HostEvent), 10 ≤ r →
    regValue s r = 0#32 ∧ (∀ f, regValueBusy f s r = 0#32) ∧
    (∀ w, s.port = .access (.regWrite r w) :: rest →
      step s = .next { s with port := rest,
                              status := { s.status with ovr := s.status.ovr || s.status.busy } })

/-- R21, R67: a host read of an idle block returns the element's value and changes nothing of the block. -/
def Obligations.IdleReadsChangeNothing : Prop :=
  ∀ (s : State) (rest : List HostEvent), s.status.busy = false →
    (∀ r, s.port = .access (.regRead r) :: rest →
      step s = .next { s with port := rest, replies := .word (regValue s r) :: s.replies }) ∧
    (∀ i, s.port = .access (.ibufRead i) :: rest →
      step s = .next { s with port := rest, replies := .byte (ibufValue s i) :: s.replies }) ∧
    (∀ i, s.port = .access (.obufRead i) :: rest →
      step s = .next { s with port := rest, replies := .byte (obufValue s i) :: s.replies }) ∧
    regValue s 2 = s.inLen ∧ regValue s 3 = s.outLen ∧ regValue s 4 = s.bitPos ∧
    regValue s 5 = s.bitRem ∧ regValue s 6 = s.tdefEnd ∧ regValue s 7 = s.lkpRes ∧
    regValue s 1 = s.status.word ∧ regValue s 9 = BitVec.ofNat 32 s.ibufSize ∧
    (∀ r, 10 ≤ r → regValue s r = 0#32)

/-- R21, R24, R32, R63, R67: to an idle block a write of IN_LEN stores all 32 bits, a write of IBUF in
range stores the byte and no other, and every other write but CMD's changes nothing. -/
def Obligations.IdleWritesStoreOnlyTheirElement : Prop :=
  ∀ (s : State) (rest : List HostEvent), s.status.busy = false →
    (∀ w, s.port = .access (.regWrite 2 w) :: rest → step s = .next { s with port := rest, inLen := w }) ∧
    (∀ r w, r ≠ 0 → r ≠ 2 → s.port = .access (.regWrite r w) :: rest →
      step s = .next { s with port := rest }) ∧
    (∀ i b, s.port = .access (.ibufWrite i b) :: rest → s.ibufSize ≤ i →
      step s = .next { s with port := rest } ∧ ibufValue s i = 0#8) ∧
    (∀ i b, s.port = .access (.ibufWrite i b) :: rest → i < s.ibufSize →
      ∃ m, step s = .next { s with port := rest, ibuf := m } ∧
        ibufValue { s with ibuf := m } i = b ∧
        ∀ j, j ≠ i → ibufValue { s with ibuf := m } j = ibufValue s j)

/-- R75: an OBUF read of an idle block is masked to 0 unless OUT_VALID is 1 and the index is below
OUT_LEN (and in range, R63); so after a failed DEC every index reads 0, and the result of an earlier DEC
is withdrawn as soon as a later one is accepted. -/
def Obligations.ObufReadsAreMasked : Prop :=
  (∀ (s : State) (i : Nat),
    (s.status.outValid = true → i < s.outLen.toNat → i < 8 * s.ibufSize → obufValue s i = s.obufAt i) ∧
    (s.status.outValid = false ∨ s.outLen.toNat ≤ i ∨ 8 * s.ibufSize ≤ i → obufValue s i = 0#8)) ∧
  (∀ s t : State, exec .dec s = .next t → t.status.err = true → ∀ i, obufValue t i = 0#8) ∧
  (∀ s : State, (decStart s).status.outValid = false ∧ (decStart s).outLen = 0#32)

/-- R72: an access to a busy block changes nothing of the block but OVR, which every write sets; a read of
STATUS shows BUSY, OVR and the zero bits, CAP reads IBUF_SIZE, CMD and reserved numbers read 0. (That a
read draws one free value and is recorded as a reply, and the second kind of CMD write, are the MODEL'S
CHOICE, log entries 2, 4, 5 and 6.) -/
def Obligations.BusyAccessesDisturbNothing : Prop :=
  ∀ (s : State) (rest : List HostEvent), s.status.busy = true →
    (∀ r w, s.port = .access (.regWrite r w) :: rest →
      step s = .next { s with port := rest, status := { s.status with ovr := true } }) ∧
    (∀ i b, s.port = .access (.ibufWrite i b) :: rest →
      step s = .next { s with port := rest, status := { s.status with ovr := true } }) ∧
    (∀ hold w, s.port = .startCmd hold w :: rest →
      step s = .next { s with port := rest, status := { s.status with ovr := true } }) ∧
    (∀ r, s.port = .access (.regRead r) :: rest →
      ∃ v, step s = .next { s with port := rest, replies := .word v :: s.replies,
                                   freeCtr := s.freeCtr + 1 } ∧
        (r = 1 → v.getLsbD 0 = true ∧ v.getLsbD 5 = s.status.ovr ∧ v.extractLsb' 6 2 = 0#2 ∧
          v.extractLsb' 12 20 = 0#20) ∧
        (r = 9 → v = BitVec.ofNat 32 s.ibufSize) ∧ (r = 0 ∨ 10 ≤ r → v = 0#32)) ∧
    (∀ i, s.port = .access (.ibufRead i) :: rest ∨ s.port = .access (.obufRead i) :: rest →
      ∃ v, step s = .next { s with port := rest, replies := .byte v :: s.replies,
                                   freeCtr := s.freeCtr + 1 })

/-! ### Rules about the whole machine -/

/-- R210: every command ends in exactly one of two ways, success with E_NONE or failure with a cause, and
is then not busy. -/
def Obligations.EveryCommandSucceedsOrFails : Prop :=
  ∀ (i : Instr) (s : State), ∃ t, exec i s = .next t ∧ t.status.busy = false ∧
    ((t.status.err = false ∧ t.status.errCode = .none) ∨
      (t.status.err = true ∧ t.status.errCode ≠ .none))

/-- R221: with nothing arriving from outside, an idle block keeps all its state. -/
def Obligations.IdleBlockKeepsItsState : Prop :=
  ∀ s : State, s.Idle → s.port = [] → step s = .next s

/-- R74: the block never writes IBUF: a step changes it only when the host writes it or resets the
block. -/
def Obligations.OnlyTheHostWritesIbuf : Prop :=
  ∀ s t : State, step s = .next t → t.ibuf ≠ s.ibuf →
    (∃ i b rest, s.port = .access (.ibufWrite i b) :: rest ∧ s.status.busy = false) ∨
    (∃ rest, s.port = .hwReset :: rest)

/-- IN_LEN changes only by a host write to it, by CLR and by reset (R24). (That a CLR whose completion was
put off clears it at that completion, at the event that lets it happen, is the model's: DESIGN CHOICE, log
entry 8, and DEDUCED, log entry 15.) -/
def Obligations.InLenChangesOnlyByHostClrReset : Prop :=
  ∀ s t : State, step s = .next t → t.inLen ≠ s.inLen →
    (∃ w rest, s.port = .access (.regWrite 2 w) :: rest ∧ s.status.busy = false ∧ t.inLen = w) ∨
    (∃ w rest, (s.port = .access (.regWrite 0 w) :: rest ∨ s.port = .startCmd false w :: rest) ∧
      s.status.busy = false ∧ decodeCmd w = .ok .clr ∧ t.inLen = 0#32) ∨
    (∃ w, (s.port = [] ∨ ∃ rest, s.port = .wait false :: rest) ∧ s.status.busy = true ∧
      s.held = some (.accepted w) ∧ decodeCmd w = .ok .clr ∧ t.inLen = 0#32) ∨
    (∃ rest, s.port = .hwReset :: rest ∧ t.inLen = 0#32)

/-- R23: OVR, once set, is cleared by CLR and reset only; and it is set only by a host write to a busy
block. (That a CLR whose completion was put off clears OVR at that completion is the model's: DESIGN
CHOICE, log entry 8, and DEDUCED, log entry 15.) -/
def Obligations.OvrIsSticky : Prop :=
  ∀ s t : State, step s = .next t →
    (s.status.ovr = true → t.status.ovr = false →
      (∃ w rest, (s.port = .access (.regWrite 0 w) :: rest ∨ s.port = .startCmd false w :: rest) ∧
        s.status.busy = false ∧ decodeCmd w = .ok .clr) ∨
      (∃ w, (s.port = [] ∨ ∃ rest, s.port = .wait false :: rest) ∧ s.status.busy = true ∧
        s.held = some (.accepted w) ∧ decodeCmd w = .ok .clr) ∨
      (∃ rest, s.port = .hwReset :: rest)) ∧
    (s.status.ovr = false → t.status.ovr = true → s.status.busy = true ∧
      ∃ rest, (∃ r w, s.port = .access (.regWrite r w) :: rest) ∨
        (∃ i b, s.port = .access (.ibufWrite i b) :: rest) ∨ (∃ hold w, s.port = .startCmd hold w :: rest))

/-- R23: which command sets and which clears each valid flag (the table's set-by and cleared-by columns,
for the commands): a flag becomes 1 only by its own command's success and is 1 after it; only the
clearing commands clear it; and they leave it 0: CLR all three, every LDT MAP_VALID, and each failed
command its own. -/
def Obligations.ValidFlagsBelongToTheirCommands : Prop :=
  ∀ (i : Instr) (s t : State), exec i s = .next t →
    (t.status.tblValid = true → s.status.tblValid = false → i = .ldt ∧ t.status.err = false) ∧
    (t.status.mapValid = true → s.status.mapValid = false → i = .bld ∧ t.status.err = false) ∧
    (t.status.outValid = true → s.status.outValid = false → i = .dec ∧ t.status.err = false) ∧
    (s.status.tblValid = true → t.status.tblValid = false →
      i = .clr ∨ (i = .ldt ∧ t.status.err = true)) ∧
    (s.status.mapValid = true → t.status.mapValid = false →
      i = .clr ∨ i = .ldt ∨ (i = .bld ∧ t.status.err = true)) ∧
    (s.status.outValid = true → t.status.outValid = false →
      i = .clr ∨ (i = .dec ∧ t.status.err = true)) ∧
    (i = .clr → t.status.tblValid = false ∧ t.status.mapValid = false ∧ t.status.outValid = false) ∧
    (i = .ldt → t.status.mapValid = false ∧ t.status.tblValid = !t.status.err) ∧
    (i = .bld → t.status.mapValid = !t.status.err) ∧
    (i = .dec → t.status.outValid = !t.status.err)

/-- R31: no step changes the block's IBUF_SIZE, and CAP reads it whether the block is busy or not. -/
def Obligations.CapReadsTheConstantIbufSize : Prop :=
  (∀ s t : State, step s = .next t → t.ibufSize = s.ibufSize) ∧
  (∀ s : State, regValue s 9 = BitVec.ofNat 32 s.ibufSize) ∧
  (∀ (s : State) (f : Word), regValueBusy f s 9 = BitVec.ofNat 32 s.ibufSize)

/-- The invariants of R42 and the meaning of the working registers (R38, R39, R40) are kept by every step,
whatever the host does and also in the middle of a command. (That a busy block has a running unit unless
a completion is put off, and that results put off lower no valid flag, are the model's own clauses, log
entry 8.) -/
def Obligations.EveryStepKeepsTheInvariant : Prop :=
  ∀ s t : State, s.Inv → step s = .next t → t.Inv

/-- U5, R8: what the spec leaves unspecified never matters. Two idle blocks that agree on everything
specified still agree on it after any accepted word. -/
def Obligations.UnspecifiedContentsNeverMatter : Prop :=
  ∀ (s t : State) (w : Word), s.status.busy = false → SameSpecified s t →
    ∃ s' t', runCommand w s = .next s' ∧ runCommand w t = .next t' ∧ SameSpecified s' t'

/-- Two blocks that agree on everything specified read alike in every host access (R21, R63, R75). -/
def Obligations.SpecifiedPartsReadAlike : Prop :=
  ∀ s t : State, SameSpecified s t →
    (∀ r, regValue s r = regValue t r) ∧ (∀ i, ibufValue s i = ibufValue t i) ∧
    (∀ i, obufValue s i = obufValue t i)

/-! ### The step level reaches the operation level (R7, R122, R142, R173, R251) -/

/-- R122: an accepted LDT run step by step to completion ends in exactly the operation level's state,
after at most 4116 steps counting acceptance, `T + 36` on success. -/
def Obligations.LdtStepsReachTheOperation : Prop :=
  ∀ s : State, s.Idle →
    ∃ k, (∀ j, j < k → (unitSteps j (ldtStart s)).status.busy = true) ∧
      exec .ldt s = .next (unitSteps k (ldtStart s)) ∧ k + 1 ≤ 4116 ∧
      ((unitSteps k (ldtStart s)).status.err = false →
        k + 1 = sumCounts (unitSteps k (ldtStart s)).ht.count 16 + 36)

/-- R142: an accepted BLD run step by step to completion ends in exactly the operation level's state,
after at most 4113 steps counting acceptance, `T + 33` on success. -/
def Obligations.BldStepsReachTheOperation : Prop :=
  ∀ s : State, s.Idle →
    ∃ k, (∀ j, j < k → (unitSteps j (bldStart s)).status.busy = true) ∧
      exec .bld s = .next (unitSteps k (bldStart s)) ∧ k + 1 ≤ 4113 ∧
      ((unitSteps k (bldStart s)).status.err = false →
        k + 1 = sumCounts s.ht.count 16 + 33)

/-- R173: an accepted DEC run step by step to completion ends in exactly the operation level's state,
after at most `17 * NBITS + 19` steps counting acceptance, at most `17 * OUT_LEN + 2` on success. -/
def Obligations.DecStepsReachTheOperation : Prop :=
  ∀ s : State, s.Idle → s.ibufSize ≤ Config.ibufSizeMax →
    ∃ k, (∀ j, j < k → (unitSteps j (decStart s)).status.busy = true) ∧
      exec .dec s = .next (unitSteps k (decStart s)) ∧ k + 1 ≤ 17 * (8 * s.inCount) + 19 ∧
      ((unitSteps k (decStart s)).status.err = false →
        k + 1 ≤ 17 * (unitSteps k (decStart s)).outLen.toNat + 2)

/-! ### A busy block step by step (R41, R250) -/

/-- A step of a busy block in which the host does nothing is a step of the running unit, the one that the
obligations about the unit steps speak of; with a completion put off it is that completion. (When the
host does nothing, and when a completion is put off, are events of the model's own, log entries 4 and 8.) -/
def Obligations.BusyBlockStepsItsUnit : Prop :=
  ∀ s, s.status.busy = true →
    (s.port = [] → step s = .next (unitStep s)) ∧
    (∀ rest, s.port = .wait false :: rest → step s = .next (unitStep { s with port := rest })) ∧
    (s.held = none → s.tlState ≠ .idle → unitStep s = tlStep s) ∧
    (s.held = none → s.tlState = .idle → s.tbState ≠ .idle → unitStep s = tbStep s) ∧
    (s.held = none → s.tlState = .idle → s.tbState = .idle → unitStep s = edStep s) ∧
    (∀ w, s.held = some (.accepted w) → unitStep s = startCommand w { s with held := none }) ∧
    (∀ r, s.held = some (.result r) → unitStep s = writeResult r s)

/-- R41: at most one unit is not idle at any time, and BUSY is 1 whenever one is not idle. BUSY can also be
1 with all three idle: for a CLR, an LKP or an illegal word that was accepted, and between a unit's last
step and the write of the result registers. (That an event of the outside says when this happens is the
model's choice, log entry 8.) -/
def Obligations.BusyCanBeOneWithAllUnitsIdle : Prop :=
  (∀ s : State, s.Inv → s.OneUnitAtMost ∧ (¬ s.UnitsIdle → s.status.busy = true)) ∧
  (∀ (s : State) (w : Word) (rest : List HostEvent), s.Inv → s.status.busy = false →
    s.port = .startCmd true w :: rest →
    decodeCmd w = .ok .clr ∨ (∃ len pat, decodeCmd w = .ok (.lkp len pat)) ∨ (∃ e, decodeCmd w = .error e) →
    ∃ t, step s = .next t ∧ t.status = { s.status with busy := true } ∧ t.UnitsIdle ∧ t.Inv) ∧
  (∀ (s : State) (rest : List HostEvent), s.Inv → s.held = none → s.status.busy = true →
    (unitStep s).status.busy = false → s.port = .wait true :: rest →
    ∃ t, step s = .next t ∧ t.status = s.status ∧ t.UnitsIdle ∧ t.Inv ∧
      t.outLen = s.outLen ∧ t.bitPos = s.bitPos ∧ t.bitRem = s.bitRem ∧ t.tdefEnd = s.tdefEnd)

/-- Putting a completion off does not change it (R250): the step that makes it up gives exactly the state
that completing at once gives, also after more waiting, and for a unit's results also after a discarded
write, but for the OVR that the write set. (The events that put a completion off are the model's own, log
entry 8.) -/
def Obligations.PuttingOffACompletionChangesNothing : Prop :=
  (∀ (s : State) (w : Word), s.held = none → (startCommand w s).status.busy = false →
    (startHeld w s).status.busy = true ∧ unitStep (startHeld w s) = startCommand w s ∧
    unitStepHeld (startHeld w s) = startHeld w s) ∧
  (∀ s : State, s.held = none → s.status.busy = true → (unitStep s).status.busy = false →
    (unitStepHeld s).status.busy = true ∧ unitStep (unitStepHeld s) = unitStep s ∧
    unitStepHeld (unitStepHeld s) = unitStepHeld s ∧
    unitStep (discardWrite (unitStepHeld s)) = discardWrite (unitStep s)) ∧
  (∀ (s : State) (w : Word), (startCommand w s).status.busy = true → startHeld w s = startCommand w s) ∧
  (∀ s : State, s.held = none → (unitStep s).status.busy = true → unitStepHeld s = unitStep s) ∧
  (∀ (s : State) (w : Word) (rest : List HostEvent), s.status.busy = false →
    s.port = .startCmd true w :: rest → step s = .next (startHeld w { s with port := rest })) ∧
  (∀ (s : State) (rest : List HostEvent), s.port = .wait true :: rest →
    step s = .next (unitStepHeld { s with port := rest }))
end

