-- ==== Sys2Proof/Laws/Memory.lean ====
section
/-! SUPPORT. The laws of the stores: read after write, writes leave other elements alone, and every
operation keeps the canonical form. -/

namespace Sys2Proof.Machine

/-! ### Cells -/

theorem cellsGet_cellsSet (m : List Host.Cell) (i j : Nat) (b : Byte) :
    cellsGet (cellsSet m i b) j = if j = i then some b else cellsGet m j := by
  induction m with
  | nil => simp [cellsSet, cellsGet]
  | cons hd tl ih =>
    obtain ⟨k, c⟩ := hd
    by_cases h1 : i < k
    · simp [cellsSet, cellsGet, h1]
    · by_cases h2 : i = k
      · subst h2
        by_cases h3 : j = i <;> simp [cellsSet, cellsGet, h3]
      · simp only [cellsSet, h1, h2, if_false, cellsGet, ih]
        by_cases h3 : j = k
        · have : j ≠ i := fun h => h2 (h ▸ h3)
          simp [h3, Ne.symm h2]
        · simp [h3]

theorem cellsGet_cellsSet_same (m : List Host.Cell) (i : Nat) (b : Byte) :
    cellsGet (cellsSet m i b) i = some b := by simp [cellsGet_cellsSet]

theorem cellsGet_cellsSet_other (m : List Host.Cell) {i j : Nat} (b : Byte) (h : j ≠ i) :
    cellsGet (cellsSet m i b) j = cellsGet m j := by simp [cellsGet_cellsSet, h]

theorem mem_cellsSet {m : List Host.Cell} {i : Nat} {b : Byte} {c : Host.Cell}
    (h : c ∈ cellsSet m i b) : c = (i, b) ∨ c ∈ m := by
  induction m with
  | nil => simpa [cellsSet] using h
  | cons hd tl ih =>
    obtain ⟨k, d⟩ := hd
    unfold cellsSet at h
    split at h
    · simpa using h
    · split at h
      · rcases List.mem_cons.1 h with h | h
        · exact .inl h
        · exact .inr (List.mem_cons_of_mem _ h)
      · rcases List.mem_cons.1 h with h | h
        · exact .inr (h ▸ List.mem_cons_self)
        · rcases ih h with h | h
          · exact .inl h
          · exact .inr (List.mem_cons_of_mem _ h)

/-- Every index of the cells after a write is the one written or an old one. -/
theorem cellsSet_forall {p : Nat → Prop} {m : List Host.Cell} {i : Nat} {b : Byte}
    (hm : ∀ c ∈ m, p c.1) (hi : p i) : ∀ c ∈ cellsSet m i b, p c.1 := by
  intro c hc
  rcases mem_cellsSet hc with rfl | h
  · exact hi
  · exact hm c h

/-- A write keeps the canonical form. -/
theorem cellsSet_wf {m : List Host.Cell} (i : Nat) (b : Byte) (h : cellsWf m) :
    cellsWf (cellsSet m i b) := by
  induction m with
  | nil => simp [cellsSet, cellsWf]
  | cons hd tl ih =>
    obtain ⟨k, c⟩ := hd
    obtain ⟨hk, ht⟩ := List.pairwise_cons.1 h
    unfold cellsSet
    split
    · next hlt =>
      refine List.pairwise_cons.2 ⟨?_, h⟩
      intro d hd
      rcases List.mem_cons.1 hd with rfl | hd
      · exact hlt
      · exact hlt.trans (hk d hd)
    · split
      · next heq =>
        subst heq
        exact List.pairwise_cons.2 ⟨hk, ht⟩
      · next hge hne =>
        refine List.pairwise_cons.2 ⟨?_, ih ht⟩
        intro d hd
        rcases mem_cellsSet hd with rfl | hd
        · show k < i
          omega
        · exact hk d hd

/-- A listed index is the index of a cell. -/
theorem mem_of_cellsGet {m : List Host.Cell} {i : Nat} {b : Byte} (h : cellsGet m i = some b) :
    (i, b) ∈ m := by
  induction m with
  | nil => simp [cellsGet] at h
  | cons hd tl ih =>
    obtain ⟨k, c⟩ := hd
    by_cases hk : i = k
    · subst hk
      have : c = b := by simpa [cellsGet] using h
      simp [this]
    · rw [cellsGet, if_neg hk] at h
      exact List.mem_cons_of_mem _ (ih h)

/-- In the canonical form every cell is what its index reads as. -/
theorem cellsGet_of_mem {m : List Host.Cell} {i : Nat} {b : Byte} (hw : cellsWf m)
    (h : (i, b) ∈ m) : cellsGet m i = some b := by
  induction m with
  | nil => simp at h
  | cons hd tl ih =>
    obtain ⟨k, c⟩ := hd
    obtain ⟨hk, ht⟩ := List.pairwise_cons.1 hw
    rcases List.mem_cons.1 h with h | h
    · obtain ⟨rfl, rfl⟩ := Prod.mk.inj h
      simp [cellsGet]
    · have : k < i := hk _ h
      rw [cellsGet, if_neg (by omega)]
      exact ih ht h

/-- Canonical forms with the same contents are the same list. -/
theorem cells_ext {m m' : List Host.Cell} (hw : cellsWf m) (hw' : cellsWf m')
    (h : ∀ i, cellsGet m i = cellsGet m' i) : m = m' := by
  have key : ∀ c, c ∈ m ↔ c ∈ m' := by
    rintro ⟨i, b⟩
    constructor
    · intro hc
      exact mem_of_cellsGet ((h i) ▸ cellsGet_of_mem hw hc)
    · intro hc
      exact mem_of_cellsGet ((h i).symm ▸ cellsGet_of_mem hw' hc)
  have nd : ∀ {l : List Host.Cell}, cellsWf l → l.Nodup := by
    intro l hl
    exact hl.imp (fun {a b} hab e => by subst e; exact Nat.lt_irrefl _ hab)
  refine List.Perm.eq_of_pairwise (le := fun a b => a.1 < b.1) ?_ hw hw'
    ((List.perm_ext_iff_of_nodup (nd hw) (nd hw')).2 key)
  intro a b _ _ h1 h2
  exact absurd (h1.trans h2) (Nat.lt_irrefl _)

/-! ### Byte stores -/

theorem Memory.read_write (kind : StoreKind) (m : Memory) (i j : Nat) (b : Byte) :
    (m.write i b).read kind j = if j = i then b else m.read kind j := by
  unfold Memory.read Memory.write
  rw [cellsGet_cellsSet]
  by_cases h : j = i <;> simp [h]

@[simp] theorem Memory.read_write_same (kind : StoreKind) (m : Memory) (i : Nat) (b : Byte) :
    (m.write i b).read kind i = b := by simp [Memory.read_write]

theorem Memory.read_write_other (kind : StoreKind) (m : Memory) {i j : Nat} (b : Byte) (h : j ≠ i) :
    (m.write i b).read kind j = m.read kind j := by simp [Memory.read_write, h]

theorem Memory.write_wf {m : Memory} (i : Nat) (b : Byte) (h : m.wf) : (m.write i b).wf :=
  cellsSet_wf i b h

theorem Memory.write_forall {p : Nat → Prop} {m : Memory} {i : Nat} {b : Byte}
    (hm : ∀ c ∈ m.cells, p c.1) (hi : p i) : ∀ c ∈ (m.write i b).cells, p c.1 :=
  cellsSet_forall hm hi

theorem Memory.unspecified_wf (k : Nat) : (Memory.unspecified k).wf := List.Pairwise.nil

theorem Memory.writeList_wf {m : Memory} (i : Nat) (bs : List Byte) (h : m.wf) :
    (m.writeList i bs).wf := by
  induction bs generalizing m i with
  | nil => exact h
  | cons b bs ih => exact ih _ (m.write_wf i b h)

theorem Memory.writeList_forall {p : Nat → Prop} {m : Memory} {i : Nat} {bs : List Byte}
    (hm : ∀ c ∈ m.cells, p c.1) (hi : ∀ j, i ≤ j → j < i + bs.length → p j) :
    ∀ c ∈ (m.writeList i bs).cells, p c.1 := by
  induction bs generalizing m i with
  | nil => exact hm
  | cons b bs ih =>
    refine ih (Memory.write_forall hm (hi i le_rfl (by simp))) ?_
    intro j h1 h2
    exact hi j (by omega) (by simp at h2 ⊢; omega)

/-- A list written from `i` on is read back element by element, and nothing else changes. -/
theorem Memory.read_writeList (kind : StoreKind) (m : Memory) (i : Nat) (bs : List Byte) (j : Nat) :
    (m.writeList i bs).read kind j =
      if h : i ≤ j ∧ j < i + bs.length then bs[j - i]'(by omega) else m.read kind j := by
  induction bs generalizing m i with
  | nil =>
    have : ¬ (i ≤ j ∧ j < i + ([] : List Byte).length) := by simp
    simp [Memory.writeList]
  | cons b bs ih =>
    rw [Memory.writeList, ih, Memory.read_write]
    by_cases h1 : i + 1 ≤ j ∧ j < i + 1 + bs.length
    · have h2 : i ≤ j ∧ j < i + (b :: bs).length := by simp; omega
      rw [dif_pos h1, dif_pos h2]
      have : j - i = (j - (i + 1)) + 1 := by omega
      simp [this]
    · rw [dif_neg h1]
      by_cases h3 : j = i
      · subst h3
        simp
      · have h4 : ¬ (i ≤ j ∧ j < i + (b :: bs).length) := by simp; omega
        rw [if_neg h3, dif_neg h4]

/-- Writing one list after another is writing their concatenation. -/
theorem Memory.writeList_append (m : Memory) (i : Nat) (as bs : List Byte) :
    m.writeList i (as ++ bs) = (m.writeList i as).writeList (i + as.length) bs := by
  induction as generalizing m i with
  | nil => rfl
  | cons a as ih =>
    simp only [List.cons_append, Memory.writeList, List.length_cons, ih]
    congr 1
    omega

/-! ### The code map -/

/-- Two pairs with 16-bit values have the same key only if they are the same pair. -/
theorem codeKey_inj {L L' v v' : Nat} (hv : v < 65536) (hv' : v' < 65536)
    (h : codeKey L v = codeKey L' v') : L = L' ∧ v = v' := by
  unfold codeKey at h
  omega

theorem legalCode_lt {L v : Nat} (h : legalCode L v) : v < 65536 := by
  obtain ⟨_, h16, hv⟩ := h
  calc v < 2 ^ L := hv
    _ ≤ 2 ^ 16 := Nat.pow_le_pow_right (by norm_num) h16

theorem CodeMap.lookup_insert {m : CodeMap} {L v L' v' : Nat} {b : Byte} (hv : v < 65536)
    (hv' : v' < 65536) :
    (m.insert L v b).lookup L' v' = if L' = L ∧ v' = v then some b else m.lookup L' v' := by
  unfold CodeMap.lookup CodeMap.insert
  simp only [cellsGet_cellsSet]
  by_cases h : L' = L ∧ v' = v
  · simp [h]
  · have : codeKey L' v' ≠ codeKey L v := fun e => h (codeKey_inj hv' hv e)
    simp [h, this]

theorem CodeMap.lookup_known (cells : List Host.Cell) (L v : Nat) :
    (CodeMap.mk none cells).lookup L v = cellsGet cells (codeKey L v) := by
  unfold CodeMap.lookup
  cases cellsGet cells (codeKey L v) <;> rfl

/-- Distinct positions of distinct buckets have distinct indices (positions are below 256). -/
theorem symKey_inj {L L' i i' : Nat} (hi : i < 256) (hi' : i' < 256)
    (h : symKey L i = symKey L' i') : L = L' ∧ i = i' := by
  unfold symKey at h
  omega

end Sys2Proof.Machine
end

