-- ==== Sys2Proof/Laws/Build.lean ====
section
/-! SUPPORT. What `build` does (R140, R143): one closed form per loop, and what a built map holds. -/

namespace Sys2Proof.Machine

theorem sumCounts_succ (n : Nat → Nat) (m : Nat) : sumCounts n (m + 1) = sumCounts n m + n (m + 1) :=
  rfl

theorem sumCounts_congr {f g : Nat → Nat} (n : Nat) (h : ∀ L, 1 ≤ L → L ≤ n → f L = g L) :
    sumCounts f n = sumCounts g n := by
  induction n with
  | zero => rfl
  | succ n ih =>
    rw [sumCounts_succ, sumCounts_succ, ih (fun L a b => h L a (by omega)), h (n + 1) (by omega) le_rfl]

/-- Counts are bytes, so `n` of them sum to at most `255 * n` (R97). -/
theorem sumCounts_le (f : Nat → Byte) (n : Nat) : sumCounts (fun L => (f L).toNat) n ≤ n * 255 := by
  induction n with
  | zero => simp [sumCounts]
  | succ n ih =>
    rw [sumCounts_succ]
    have := (f (n + 1)).isLt
    omega

theorem sumCounts_count_le (h : HuffTable) (n : Nat) : sumCounts h.count n ≤ n * 255 :=
  sumCounts_le (fun L => h.cnt.read .htCnt L) n

@[simp] theorem bucket_length (h : HuffTable) (L : Nat) : (h.bucket L).length = h.count L := by
  simp [HuffTable.bucket]

/-- A bucket from position `i` on starts with the symbol at `i`. -/
theorem drop_bucket {h : HuffTable} {L i : Nat} (hi : i < h.count L) :
    (h.bucket L).drop i = h.symbol L i :: (h.bucket L).drop (i + 1) := by
  rw [List.drop_eq_getElem_cons (by simpa using hi)]
  congr 1
  simp [HuffTable.bucket]

/-- The recurrence of R143. -/
theorem firstCode_succ (n : Nat → Nat) {L : Nat} (hL : 1 ≤ L) :
    firstCode n (L + 1) = 2 * (firstCode n L + n L) := by
  obtain ⟨k, rfl⟩ := Nat.exists_eq_add_of_le' hL
  rfl

/-- The cells after the symbols of one bucket got the codes from `code` on. -/
def placeBucket (L : Nat) : Nat → List Byte → List Host.Cell → List Host.Cell
  | _, [], m => m
  | code, b :: bs, m => placeBucket L (code + 1) bs (cellsSet m (codeKey L code) b)

/-- The inner loop succeeds exactly when the whole bucket fits its length (R146, R147). -/
theorem assignBucket_eq {L code : Nat} (bs : List Byte) (m : List Host.Cell) (h : code ≤ 2 ^ L) :
    assignBucket L code bs m =
      if code + bs.length ≤ 2 ^ L then some (code + bs.length, placeBucket L code bs m) else none := by
  induction bs generalizing code m with
  | nil => simp [assignBucket, placeBucket, h]
  | cons b bs ih =>
    by_cases hc : 2 ^ L ≤ code
    · rw [assignBucket, if_pos hc, if_neg (by simp; omega)]
    · rw [assignBucket, if_neg hc, ih _ (by omega), placeBucket]
      have : code + 1 + bs.length = code + (b :: bs).length := by simp; omega
      rw [this]

/-- Reading after one bucket is placed: its own pairs give its symbols, all others are as before. -/
theorem cellsGet_placeBucket {L code : Nat} {bs : List Byte} {m : List Host.Cell} {L' v : Nat}
    (hc : code + bs.length ≤ 65536) (hv : v < 65536) :
    cellsGet (placeBucket L code bs m) (codeKey L' v) =
      if L' = L ∧ code ≤ v ∧ v < code + bs.length then bs[v - code]?
      else cellsGet m (codeKey L' v) := by
  induction bs generalizing code m with
  | nil =>
    have : ¬ (L' = L ∧ code ≤ v ∧ v < code + ([] : List Byte).length) := by simp
    rw [if_neg this, placeBucket]
  | cons b bs ih =>
    have hlen : (b :: bs).length = bs.length + 1 := rfl
    rw [placeBucket, ih (by omega)]
    by_cases h1 : L' = L ∧ code + 1 ≤ v ∧ v < code + 1 + bs.length
    · have h2 : L' = L ∧ code ≤ v ∧ v < code + (b :: bs).length := by omega
      have h3 : v - code = (v - (code + 1)) + 1 := by omega
      rw [if_pos h1, if_pos h2, h3, List.getElem?_cons_succ]
    · rw [if_neg h1, cellsGet_cellsSet]
      by_cases h2 : L' = L ∧ v = code
      · obtain ⟨rfl, rfl⟩ := h2
        simp
      · have h3 : codeKey L' v ≠ codeKey L code := fun e =>
          h2 (codeKey_inj hv (by omega) e)
        have h4 : ¬ (L' = L ∧ code ≤ v ∧ v < code + (b :: bs).length) := by omega
        rw [if_neg h3, if_neg h4]

theorem placeBucket_wf {L code : Nat} (bs : List Byte) {m : List Host.Cell} (h : cellsWf m) :
    cellsWf (placeBucket L code bs m) := by
  induction bs generalizing code m with
  | nil => exact h
  | cons b bs ih => exact ih (cellsSet_wf _ _ h)

theorem placeBucket_forall {p : Nat → Prop} {L code : Nat} {bs : List Byte} {m : List Host.Cell}
    (hm : ∀ c ∈ m, p c.1) (hp : ∀ v, code ≤ v → v < code + bs.length → p (codeKey L v)) :
    ∀ c ∈ placeBucket L code bs m, p c.1 := by
  induction bs generalizing code m with
  | nil => exact hm
  | cons b bs ih =>
    refine ih (cellsSet_forall hm (hp code le_rfl (by simp))) ?_
    intro v h1 h2
    exact hp v (by omega) (by simp at h2 ⊢; omega)

/-- The cells after the `n` lengths from `L` on, every bucket placed from its FIRST code. -/
def placeFrom (bucket : Nat → List Byte) : Nat → Nat → List Host.Cell → List Host.Cell
  | 0, _, m => m
  | n + 1, L, m =>
    placeFrom bucket n (L + 1)
      (placeBucket L (firstCode (fun L => (bucket L).length) L) (bucket L) m)

/-- All the buckets of the `n` lengths from `L` on fit: FIRST[j] + n_j is at most `2^j` (R147). -/
def fitsFrom (bucket : Nat → List Byte) (n L : Nat) : Prop :=
  ∀ j, L ≤ j → j < L + n → firstCode (fun L => (bucket L).length) j + (bucket j).length ≤ 2 ^ j

theorem fitsFrom_succ {bucket : Nat → List Byte} {n L : Nat} :
    fitsFrom bucket (n + 1) L ↔
      firstCode (fun L => (bucket L).length) L + (bucket L).length ≤ 2 ^ L ∧
        fitsFrom bucket n (L + 1) := by
  constructor
  · intro h
    exact ⟨h L le_rfl (by omega), fun j h1 h2 => h j (by omega) (by omega)⟩
  · rintro ⟨h0, h⟩ j h1 h2
    by_cases hj : j = L
    · exact hj ▸ h0
    · exact h j (by omega) (by omega)

/-- The outer loop succeeds exactly when every bucket fits, and then places them all (R143, R147). -/
theorem buildFrom_eq (bucket : Nat → List Byte) (n L : Nat) (m : List Host.Cell) (hL : 1 ≤ L)
    (hfirst : firstCode (fun L => (bucket L).length) L ≤ 2 ^ L) :
    (fitsFrom bucket n L →
      buildFrom bucket n L (firstCode (fun L => (bucket L).length) L) m
        = some (placeFrom bucket n L m)) ∧
    (¬ fitsFrom bucket n L →
      buildFrom bucket n L (firstCode (fun L => (bucket L).length) L) m = none) := by
  induction n generalizing L m with
  | zero =>
    refine ⟨fun _ => rfl, fun h => absurd ?_ h⟩
    intro j h1 h2
    omega
  | succ n ih =>
    rw [fitsFrom_succ, buildFrom, assignBucket_eq _ _ hfirst]
    by_cases hfit : firstCode (fun L => (bucket L).length) L + (bucket L).length ≤ 2 ^ L
    · have hnext : (firstCode (fun L => (bucket L).length) L + (bucket L).length) * 2
          = firstCode (fun L => (bucket L).length) (L + 1) := by
        rw [firstCode_succ _ hL]
        exact Nat.mul_comm _ _
      have hle : firstCode (fun L => (bucket L).length) (L + 1) ≤ 2 ^ (L + 1) := by
        rw [← hnext, pow_succ]
        omega
      have := ih (L + 1) (placeBucket L (firstCode (fun L => (bucket L).length) L) (bucket L) m)
        (by omega) hle
      simp only [hfit, if_true, hnext, true_and, placeFrom]
      exact this
    · simp [hfit]

/-- `build` in closed form: it succeeds exactly when every bucket fits its length. -/
theorem build_eq (bucket : Nat → List Byte) :
    (fitsFrom bucket 16 1 → build bucket = some (placeFrom bucket 16 1 [])) ∧
    (¬ fitsFrom bucket 16 1 → build bucket = none) :=
  buildFrom_eq bucket 16 1 [] le_rfl (by simp [firstCode])

theorem fits_of_build {bucket : Nat → List Byte} {m : List Host.Cell} (h : build bucket = some m) :
    fitsFrom bucket 16 1 ∧ m = placeFrom bucket 16 1 [] := by
  by_cases hf : fitsFrom bucket 16 1
  · rw [(build_eq bucket).1 hf] at h
    exact ⟨hf, (Option.some.inj h).symm⟩
  · rw [(build_eq bucket).2 hf] at h
    cases h

theorem fits_lt {bucket : Nat → List Byte} {n L j : Nat} (h : fitsFrom bucket n L) (h1 : L ≤ j)
    (h2 : j < L + n) (h16 : j ≤ 16) :
    firstCode (fun L => (bucket L).length) j + (bucket j).length ≤ 65536 :=
  (h j h1 h2).trans ((Nat.pow_le_pow_right (by norm_num) h16).trans (by norm_num))

theorem cellsGet_placeFrom {bucket : Nat → List Byte} {n L : Nat} {m : List Host.Cell} {L' v : Nat}
    (hfit : fitsFrom bucket n L) (hn : L + n ≤ 17) (hv : v < 65536) :
    cellsGet (placeFrom bucket n L m) (codeKey L' v) =
      if L ≤ L' ∧ L' < L + n ∧ firstCode (fun L => (bucket L).length) L' ≤ v ∧
          v < firstCode (fun L => (bucket L).length) L' + (bucket L').length then
        (bucket L')[v - firstCode (fun L => (bucket L).length) L']?
      else cellsGet m (codeKey L' v) := by
  induction n generalizing L m with
  | zero =>
    rw [placeFrom, if_neg (by omega)]
  | succ n ih =>
    obtain ⟨h0, hrest⟩ := fitsFrom_succ.1 hfit
    rw [placeFrom, ih hrest (by omega),
      cellsGet_placeBucket (fits_lt hfit le_rfl (by omega) (by omega)) hv]
    by_cases hL : L' = L
    · subst hL
      rw [if_neg (by omega)]
      by_cases hin : firstCode (fun L => (bucket L).length) L' ≤ v ∧
          v < firstCode (fun L => (bucket L).length) L' + (bucket L').length
      · rw [if_pos ⟨rfl, hin⟩, if_pos ⟨le_rfl, by omega, hin⟩]
      · rw [if_neg (fun h => hin h.2), if_neg (fun h => hin h.2.2)]
    · rw [if_neg (fun h : L' = L ∧ _ => hL h.1)]
      by_cases hin : L + 1 ≤ L' ∧ L' < L + 1 + n ∧ firstCode (fun L => (bucket L).length) L' ≤ v ∧
          v < firstCode (fun L => (bucket L).length) L' + (bucket L').length
      · rw [if_pos hin, if_pos ⟨by omega, by omega, hin.2.2⟩]
      · rw [if_neg hin, if_neg (by omega)]

/-- What a built map holds (R143): the pair (L, v) exactly when `FIRST[L] <= v < FIRST[L] + n_L`. -/
theorem lookup_of_build {bucket : Nat → List Byte} {m : List Host.Cell} (h : build bucket = some m)
    {L v : Nat} (hv : v < 65536) :
    (CodeMap.mk none m).lookup L v =
      if 1 ≤ L ∧ L ≤ 16 ∧ firstCode (fun L => (bucket L).length) L ≤ v ∧
          v < firstCode (fun L => (bucket L).length) L + (bucket L).length then
        (bucket L)[v - firstCode (fun L => (bucket L).length) L]?
      else none := by
  obtain ⟨hfit, rfl⟩ := fits_of_build h
  rw [CodeMap.lookup_known, cellsGet_placeFrom hfit (by omega) hv]
  by_cases hin : 1 ≤ L ∧ L ≤ 16 ∧ firstCode (fun L => (bucket L).length) L ≤ v ∧
      v < firstCode (fun L => (bucket L).length) L + (bucket L).length
  · rw [if_pos hin, if_pos ⟨hin.1, by omega, hin.2.2⟩]
  · rw [if_neg hin, if_neg (by omega)]
    rfl

theorem placeFrom_wf {bucket : Nat → List Byte} {n L : Nat} {m : List Host.Cell} (h : cellsWf m) :
    cellsWf (placeFrom bucket n L m) := by
  induction n generalizing L m with
  | zero => exact h
  | succ n ih => exact ih (placeBucket_wf _ h)

/-- A built map is in canonical form. -/
theorem build_wf {bucket : Nat → List Byte} {m : List Host.Cell} (h : build bucket = some m) :
    cellsWf m := by
  obtain ⟨_, rfl⟩ := fits_of_build h
  exact placeFrom_wf List.Pairwise.nil

theorem placeFrom_legal {bucket : Nat → List Byte} {n L : Nat} {m : List Host.Cell} (hL : 1 ≤ L)
    (hn : L + n ≤ 17) (hfit : fitsFrom bucket n L)
    (hm : ∀ c ∈ m, ∃ L v, legalCode L v ∧ c.1 = codeKey L v) :
    ∀ c ∈ placeFrom bucket n L m, ∃ L v, legalCode L v ∧ c.1 = codeKey L v := by
  induction n generalizing L m with
  | zero => exact hm
  | succ n ih =>
    obtain ⟨h0, hrest⟩ := fitsFrom_succ.1 hfit
    refine ih (by omega) (by omega) hrest ?_
    refine placeBucket_forall (p := fun k => ∃ L v, legalCode L v ∧ k = codeKey L v) hm ?_
    intro v _ h2
    exact ⟨L, v, ⟨hL, by omega, by omega⟩, rfl⟩

/-- Every key of a built map is a legal pair: `1 <= L <= 16`, `v < 2^L` (R34, R146). -/
theorem build_legal {bucket : Nat → List Byte} {m : List Host.Cell} (h : build bucket = some m) :
    ∀ c ∈ m, ∃ L v, legalCode L v ∧ c.1 = codeKey L v := by
  obtain ⟨hfit, rfl⟩ := fits_of_build h
  exact placeFrom_legal le_rfl (by omega) hfit (by simp)

/-- `build` looks at the buckets 1 to 16 only. -/
theorem build_congr {f g : Nat → List Byte} (h : ∀ L, 1 ≤ L → L ≤ 16 → f L = g L) :
    build f = build g := by
  have key : ∀ n L code m, 1 ≤ L → L + n ≤ 17 → buildFrom f n L code m = buildFrom g n L code m := by
    intro n
    induction n with
    | zero => intros; rfl
    | succ n ih =>
      intro L code m h1 h2
      rw [buildFrom, buildFrom, h L h1 (by omega)]
      split
      · rfl
      · exact ih _ _ _ (by omega) (by omega)
  exact key 16 1 0 [] le_rfl (by omega)

end Sys2Proof.Machine
end

