-- ==== Sys2Proof/Laws/Entropy.lean ====
section
/-! SUPPORT. What the bit sequence, the window and `decode` do (R64, R65, R171): one lemma per loop that
says all it can answer. -/

namespace Sys2Proof.Machine

theorem streamBit_le_one (buf : Nat → Byte) (k : Nat) : streamBit buf k ≤ 1 := by
  unfold streamBit
  rw [BitVec.toNat_and]
  exact Nat.and_le_right

@[simp] theorem window_zero (bit : Nat → Nat) (c : Nat) : window bit c 0 = 0 := rfl

theorem window_succ (bit : Nat → Nat) (c n : Nat) :
    window bit c (n + 1) = 2 * window bit c n + bit (c + n) := rfl

theorem window_lt {bit : Nat → Nat} (hb : ∀ k, bit k ≤ 1) (c n : Nat) : window bit c n < 2 ^ n := by
  induction n with
  | zero => simp
  | succ n ih =>
    have := hb (c + n)
    rw [window_succ, pow_succ]
    omega

/-- The shorter window is the longer one without its last bits: it is its prefix. -/
theorem window_div {bit : Nat → Nat} (hb : ∀ k, bit k ≤ 1) (c n d : Nat) :
    window bit c (n + d) / 2 ^ d = window bit c n := by
  induction d with
  | zero => simp
  | succ d ih =>
    have := hb (c + (n + d))
    rw [← Nat.add_assoc, window_succ, pow_succ', ← Nat.div_div_eq_div_mul]
    have h2 : (2 * window bit c (n + d) + bit (c + (n + d))) / 2 = window bit c (n + d) := by omega
    rw [h2, ih]

/-- A window read only the bits it covers. -/
theorem window_congr {bit bit' : Nat → Nat} {c n : Nat}
    (h : ∀ k, c ≤ k → k < c + n → bit k = bit' k) : window bit c n = window bit' c n := by
  induction n with
  | zero => rfl
  | succ n ih =>
    rw [window_succ, window_succ, ih (fun k h1 h2 => h k h1 (by omega)), h (c + n) (by omega) (by omega)]

/-- The inner loop answers the first length that fits and whose window is a key (R171). -/
theorem tryLengths_some {map : Nat → Nat → Option Byte} {bit : Nat → Nat} {nbits c k len L : Nat}
    {b : Byte} (h : tryLengths map bit nbits c k len = some (L, b)) :
    len ≤ L ∧ L < len + k ∧ c + L ≤ nbits ∧ map L (window bit c L) = some b ∧
      ∀ l, len ≤ l → l < L → map l (window bit c l) = none := by
  induction k generalizing len with
  | zero => simp [tryLengths] at h
  | succ k ih =>
    rw [tryLengths] at h
    split at h
    · next hfit =>
      split at h
      · next b' hb =>
        obtain ⟨rfl, rfl⟩ := Prod.mk.inj (Option.some.inj h)
        exact ⟨le_rfl, by omega, hfit, hb, fun l h1 h2 => by omega⟩
      · next hn =>
        obtain ⟨h1, h2, h3, h4, h5⟩ := ih h
        refine ⟨by omega, by omega, h3, h4, fun l hl1 hl2 => ?_⟩
        by_cases he : l = len
        · exact he ▸ hn
        · exact h5 l (by omega) hl2
    · next hfit =>
      obtain ⟨h1, h2, h3, -, -⟩ := ih h
      omega

/-- The inner loop answers nothing exactly when no length that fits has a key's window (R171, R174). -/
theorem tryLengths_none {map : Nat → Nat → Option Byte} {bit : Nat → Nat} {nbits c k len : Nat} :
    tryLengths map bit nbits c k len = none ↔
      ∀ l, len ≤ l → l < len + k → c + l ≤ nbits → map l (window bit c l) = none := by
  induction k generalizing len with
  | zero =>
    constructor
    · intro _ l h1 h2
      omega
    · intro _
      rfl
  | succ k ih =>
    rw [tryLengths]
    split
    · next hfit =>
      split
      · next b hb =>
        constructor
        · intro h
          cases h
        · intro h
          rw [h len le_rfl (by omega) hfit] at hb
          cases hb
      · next hn =>
        rw [ih]
        constructor
        · intro h l h1 h2 h3
          by_cases he : l = len
          · exact he ▸ hn
          · exact h l (by omega) (by omega) h3
        · intro h l h1 h2 h3
          exact h l (by omega) (by omega) h3
    · next hfit =>
      rw [ih]
      constructor
      · intro h l h1 h2 h3
        exact h l (by omega) (by omega) h3
      · intro h l h1 h2 h3
        exact h l (by omega) (by omega) h3

/-- The inner loop sees the map at the lengths it tries and the bits before `nbits` only. -/
theorem tryLengths_congr {map map' : Nat → Nat → Option Byte} {bit bit' : Nat → Nat} {nbits c k len : Nat}
    (hbit : ∀ i, i < nbits → bit i = bit' i)
    (hmap : ∀ l, len ≤ l → l < len + k → map l (window bit c l) = map' l (window bit c l)) :
    tryLengths map bit nbits c k len = tryLengths map' bit' nbits c k len := by
  induction k generalizing len with
  | zero => rfl
  | succ k ih =>
    rw [tryLengths, tryLengths, ih (fun l h1 h2 => hmap l (by omega) (by omega))]
    split
    · next hfit =>
      rw [hmap len le_rfl (by omega),
        window_congr (bit := bit) (bit' := bit') (fun i _ h2 => hbit i (by omega))]
    · rfl

/-- The outer loop's success: the symbols are those of codes of the map that spell the bits from the
cursor to the end. -/
theorem decodeFrom_ok {map : Nat → Nat → Option Byte} {bit : Nat → Nat} {nbits fuel c : Nat}
    {out : List Byte} {cur : Nat} (hc : c ≤ nbits)
    (h : decodeFrom map bit nbits fuel c = .ok (out, cur)) :
    cur = nbits ∧ ∃ codes : List Coded,
      (∀ x ∈ codes, 1 ≤ x.1 ∧ x.1 ≤ 16 ∧ map x.1 x.2.1 = some x.2.2) ∧
      spells bit c codes ∧ c + (codes.map fun x => x.1).sum = nbits ∧
      codes.map (fun x => x.2.2) = out := by
  induction fuel generalizing c out with
  | zero => cases h
  | succ fuel ih =>
    rw [decodeFrom] at h
    split at h
    · next hlt =>
      split at h
      · cases h
      · next L b htry =>
        obtain ⟨h1, h2, h3, h4, -⟩ := tryLengths_some htry
        split at h
        · cases h
        · next out' c' hrec =>
          obtain ⟨rfl, rfl⟩ := Prod.mk.inj (Except.ok.inj h)
          obtain ⟨hcur, codes, hk, hs, hsum, hout⟩ := ih h3 hrec
          have h16 : Config.nlen = 16 := rfl
          refine ⟨hcur, (L, window bit c L, b) :: codes, ?_, ⟨rfl, hs⟩, ?_, ?_⟩
          · intro x hx
            rcases List.mem_cons.1 hx with rfl | hx
            · exact ⟨h1, by omega, h4⟩
            · exact hk x hx
          · simp only [List.map_cons, List.sum_cons]
            omega
          · simp [hout]
    · next hge =>
      obtain ⟨rfl, rfl⟩ := Prod.mk.inj (Except.ok.inj h)
      exact ⟨by omega, [], by simp, trivial, by simp; omega, rfl⟩

/-- The outer loop's failure, with enough fuel: a cursor before the end at which no length matches. -/
theorem decodeFrom_error {map : Nat → Nat → Option Byte} {bit : Nat → Nat} {nbits fuel c cur : Nat}
    (hc : c ≤ nbits) (hf : nbits < c + fuel) (h : decodeFrom map bit nbits fuel c = .error cur) :
    c ≤ cur ∧ cur < nbits ∧ tryLengths map bit nbits cur 16 1 = none := by
  induction fuel generalizing c with
  | zero => omega
  | succ fuel ih =>
    rw [decodeFrom] at h
    split at h
    · next hlt =>
      split at h
      · next htry =>
        cases h
        exact ⟨le_rfl, hlt, htry⟩
      · next L b htry =>
        obtain ⟨h1, h2, h3, -, -⟩ := tryLengths_some htry
        split at h
        · next c' hrec =>
          cases h
          obtain ⟨g1, g2, g3⟩ := ih h3 (by omega) hrec
          exact ⟨by omega, g2, g3⟩
        · cases h
    · cases h

/-- A failing decode stops before the end (R178). -/
theorem decode_error_lt {map : Nat → Nat → Option Byte} {buf : Nat → Byte} {n cur : Nat}
    (h : decode map buf n = .error cur) : cur < 8 * n :=
  (decodeFrom_error (c := 0) (by omega) (by omega) h).2.1

/-- A successful decode ends at the end, with at most one symbol per bit (R178). -/
theorem decode_ok_bounds {map : Nat → Nat → Option Byte} {buf : Nat → Byte} {n : Nat} {out : List Byte}
    {cur : Nat} (h : decode map buf n = .ok (out, cur)) : cur = 8 * n ∧ out.length ≤ 8 * n := by
  obtain ⟨e, codes, hk, _, hsum, rfl⟩ := decodeFrom_ok (c := 0) (by omega) h
  refine ⟨e, ?_⟩
  have key : ∀ l : List Coded, (∀ x ∈ l, 1 ≤ x.1) → l.length ≤ (l.map fun x => x.1).sum := by
    intro l hl
    induction l with
    | nil => simp
    | cons a l ih =>
      have h1 := hl a List.mem_cons_self
      have h2 := ih (fun x hx => hl x (List.mem_cons_of_mem _ hx))
      simp only [List.length_cons, List.map_cons, List.sum_cons]
      omega
  have := key codes (fun x hx => (hk x hx).1)
  simp only [List.length_map]
  omega

/-- The outer loop sees the map at the lengths 1 to 16 and the bits before `nbits` only. -/
theorem decodeFrom_congr {map map' : Nat → Nat → Option Byte} {bit bit' : Nat → Nat} {nbits fuel c : Nat}
    (hbit : ∀ i, i < nbits → bit i = bit' i)
    (hmap : ∀ l c, 1 ≤ l → l ≤ 16 → map l (window bit c l) = map' l (window bit c l)) :
    decodeFrom map bit nbits fuel c = decodeFrom map' bit' nbits fuel c := by
  induction fuel generalizing c with
  | zero => rfl
  | succ fuel ih =>
    have h16 : Config.nlen = 16 := rfl
    rw [decodeFrom, decodeFrom,
      tryLengths_congr hbit (fun l h1 h2 => hmap l c h1 (by omega))]
    simp only [ih]

/-- `decode` sees the map at the lengths 1 to 16 and the bytes before `n` only (R170). -/
theorem decode_congr {map map' : Nat → Nat → Option Byte} {buf buf' : Nat → Byte} {n : Nat}
    (hbuf : ∀ i, i < n → buf i = buf' i)
    (hmap : ∀ l v, 1 ≤ l → l ≤ 16 → v < 65536 → map l v = map' l v) :
    decode map buf n = decode map' buf' n := by
  refine decodeFrom_congr ?_ ?_
  · intro i hi
    unfold streamBit
    rw [hbuf (i / 8) (by omega)]
  · intro l c h1 h2
    refine hmap l _ h1 h2 ((window_lt (streamBit_le_one buf) c l).trans_le ?_)
    calc 2 ^ l ≤ 2 ^ 16 := Nat.pow_le_pow_right (by norm_num) h2
      _ = 65536 := by norm_num

end Sys2Proof.Machine
end

