-- ==== Sys2Proof/Laws/Load.lean ====
section
/-! SUPPORT. What `parse` answers (R121) and what loading its answer leaves in HT (R120). -/

namespace Sys2Proof.Machine

/-- The bytes `buf[p .. p+k-1]`. -/
def bytesAt (buf : Nat → Byte) (p k : Nat) : List Byte := (List.range k).map fun j => buf (p + j)

@[simp] theorem bytesAt_length (buf : Nat → Byte) (p k : Nat) : (bytesAt buf p k).length = k := by
  simp [bytesAt]

theorem bytesAt_getElem (buf : Nat → Byte) (p k j : Nat) (h : j < (bytesAt buf p k).length) :
    (bytesAt buf p k)[j] = buf (p + j) := by
  simp [bytesAt]

theorem bytesAt_succ (buf : Nat → Byte) (p k : Nat) :
    bytesAt buf p (k + 1) = buf p :: bytesAt buf (p + 1) k := by
  apply List.ext_getElem
  · simp
  · intro j h1 h2
    cases j with
    | zero => simp [bytesAt]
    | succ j =>
      rw [List.getElem_cons_succ, bytesAt_getElem, bytesAt_getElem]
      congr 1
      omega

/-- The checked reads succeed exactly when the buffer holds them all (R121). -/
theorem takeBytes_eq (buf : Nat → Byte) (n p k : Nat) (hp : p ≤ n) :
    takeBytes buf n p k = if p + k ≤ n then some (bytesAt buf p k) else none := by
  induction k generalizing p with
  | zero => simp [takeBytes, bytesAt, hp]
  | succ k ih =>
    rw [takeBytes]
    by_cases hlt : p < n
    · rw [if_pos hlt, ih (p + 1) hlt]
      by_cases hle : p + 1 + k ≤ n
      · rw [if_pos hle, if_pos (by omega), bytesAt_succ]
      · rw [if_neg hle, if_neg (by omega)]
    · rw [if_neg hlt, if_neg (by omega)]

/-- The buckets of the counts `cs`, one after the other from `p` on. -/
def bucketsAt (buf : Nat → Byte) : Nat → List Byte → List (List Byte)
  | _, [] => []
  | p, c :: cs => bytesAt buf p c.toNat :: bucketsAt buf (p + c.toNat) cs

/-- The number of symbols the counts `cs` declare. -/
def symbolsOf (cs : List Byte) : Nat := (cs.map BitVec.toNat).sum

theorem takeBuckets_eq (buf : Nat → Byte) (n p : Nat) (cs : List Byte) (hp : p ≤ n) :
    takeBuckets buf n p cs =
      if p + symbolsOf cs ≤ n then some (bucketsAt buf p cs, p + symbolsOf cs) else none := by
  induction cs generalizing p with
  | nil => simp [takeBuckets, bucketsAt, symbolsOf, hp]
  | cons c cs ih =>
    have hs : symbolsOf (c :: cs) = c.toNat + symbolsOf cs := rfl
    rw [takeBuckets, takeBytes_eq _ _ _ _ hp, hs, ← Nat.add_assoc]
    by_cases hle : p + c.toNat ≤ n
    · rw [if_pos hle]
      simp only [ih (p + c.toNat) hle]
      by_cases hle2 : p + c.toNat + symbolsOf cs ≤ n
      · simp [hle2, bucketsAt]
      · simp [hle2]
    · rw [if_neg hle, if_neg (by omega)]

/-- The counts of the definition add up to the sum of its count bytes 1 to `k`. -/
theorem symbolsOf_bytesAt (buf : Nat → Byte) (k : Nat) :
    symbolsOf (bytesAt buf 1 k) = sumCounts (fun L => (buf L).toNat) k := by
  induction k with
  | zero => rfl
  | succ k ih =>
    have : bytesAt buf 1 (k + 1) = bytesAt buf 1 k ++ [buf (k + 1)] := by
      simp [bytesAt, List.range_succ, Nat.add_comm]
    have hs : ∀ a b : List Byte, symbolsOf (a ++ b) = symbolsOf a + symbolsOf b := by
      intro a b
      simp [symbolsOf]
    rw [this, hs, ih]
    rfl

/-- `parse` on a whole definition (R121). -/
theorem parse_ok {buf : Nat → Byte} {n : Nat} (hid : legalIdentity (buf 0) = true)
    (hn : 17 + sumCounts (fun L => (buf L).toNat) 16 ≤ n) :
    parse buf n = .ok
      { cls := classOf (buf 0), id := idOf (buf 0), cnt := bytesAt buf 1 16,
        sym := bucketsAt buf 17 (bytesAt buf 1 16),
        fin := 17 + sumCounts (fun L => (buf L).toNat) 16 } := by
  have h16 : Config.nlen = 16 := rfl
  rw [parse, if_neg (by omega), if_pos hid, h16, takeBytes_eq _ _ _ _ (by omega), if_pos (by omega)]
  simp only []
  rw [takeBuckets_eq _ _ _ _ (by omega), symbolsOf_bytesAt, if_pos hn]

/-- `parse` on a definition that is cut off after a legal identity byte (R121). -/
theorem parse_short {buf : Nat → Byte} {n : Nat} (hid : legalIdentity (buf 0) = true)
    (hn : n < 17 + sumCounts (fun L => (buf L).toNat) 16) : parse buf n = .error .trunc := by
  have h16 : Config.nlen = 16 := rfl
  rw [parse]
  by_cases h0 : n = 0
  · rw [if_pos h0]
  · rw [if_neg h0, if_pos hid, h16, takeBytes_eq _ _ _ _ (by omega)]
    by_cases h17 : 1 + 16 ≤ n
    · rw [if_pos h17]
      simp only []
      rw [takeBuckets_eq _ _ _ _ (by omega), symbolsOf_bytesAt, if_neg (by omega)]
    · rw [if_neg h17]

theorem parse_empty (buf : Nat → Byte) : parse buf 0 = .error .trunc := by
  rw [parse, if_pos rfl]

/-- `parse` on a bad identity byte, before any later truncation is noticed (R121). -/
theorem parse_badId {buf : Nat → Byte} {n : Nat} (hid : legalIdentity (buf 0) = false) (hn : 1 ≤ n) :
    parse buf n = .error .badId := by
  rw [parse, if_neg (by omega), if_neg (by simp [hid])]

/-- The identity bytes are the four of R96. -/
theorem legalIdentity_iff (b : Byte) :
    legalIdentity b = true ↔ b ∈ [0x00#8, 0x01#8, 0x10#8, 0x11#8] := by
  simp [legalIdentity, or_assoc]

/-- `parse` looks at the bytes before `n` only. -/
theorem parse_congr {buf buf' : Nat → Byte} {n : Nat} (h : ∀ i, i < n → buf i = buf' i) :
    parse buf n = parse buf' n := by
  have hb : ∀ k p, takeBytes buf n p k = takeBytes buf' n p k := by
    intro k
    induction k with
    | zero => intro p; rfl
    | succ k ih =>
      intro p
      rw [takeBytes, takeBytes, ih]
      split
      · next hp => rw [h p hp]
      · rfl
  have hbs : ∀ cs p, takeBuckets buf n p cs = takeBuckets buf' n p cs := by
    intro cs
    induction cs with
    | nil => intro p; rfl
    | cons c cs ih =>
      intro p
      rw [takeBuckets, takeBuckets, hb, ih]
  unfold parse
  by_cases h0 : n = 0
  · rw [if_pos h0, if_pos h0]
  · rw [if_neg h0, if_neg h0, h 0 (by omega), hb]
    simp only [hbs]

/-! ### HT after the load -/

theorem count_load {h : HuffTable} {t : TableDef} (hc : t.cnt.length = 16) {L : Nat} (h1 : 1 ≤ L)
    (h2 : L ≤ 16) : (h.load t).count L = (t.cnt[L - 1]'(by omega)).toNat := by
  show ((h.cnt.writeList 1 t.cnt).read .htCnt L).toNat = _
  rw [Memory.read_writeList, dif_pos ⟨h1, by omega⟩]

/-- Writing the later buckets leaves bucket `L`'s positions alone. -/
theorem read_writeBuckets_before {m : Memory} {bs : List (List Byte)} {K L i : Nat} (hL : L < K)
    (hi : i < 256) (hlen : ∀ b ∈ bs, b.length ≤ 255) :
    (writeBuckets m K bs).read .htSym (symKey L i) = m.read .htSym (symKey L i) := by
  induction bs generalizing m K with
  | nil => rfl
  | cons b bs ih =>
    rw [writeBuckets, ih (by omega) (fun x hx => hlen x (List.mem_cons_of_mem _ hx)),
      Memory.read_writeList, dif_neg]
    unfold symKey
    omega

/-- Symbol `i` of bucket `L` after the buckets from `K` on were written (R120). -/
theorem read_writeBuckets {m : Memory} {bs : List (List Byte)} {K L i : Nat}
    (hlen : ∀ b ∈ bs, b.length ≤ 255) (h1 : K ≤ L) (h2 : L - K < bs.length)
    (hi : i < (bs[L - K]).length) :
    (writeBuckets m K bs).read .htSym (symKey L i) = bs[L - K][i] := by
  induction bs generalizing m K with
  | nil => simp at h2
  | cons b bs ih =>
    have hb : b.length ≤ 255 := hlen b List.mem_cons_self
    have hbs : ∀ x ∈ bs, x.length ≤ 255 := fun x hx => hlen x (List.mem_cons_of_mem _ hx)
    by_cases hL : L = K
    · subst hL
      have hi' : i < b.length := by simpa using hi
      rw [writeBuckets, read_writeBuckets_before (by omega) (by omega) hbs, Memory.read_writeList,
        dif_pos ⟨by unfold symKey; omega, by unfold symKey; omega⟩]
      have e : symKey L i - symKey L 0 = i := by unfold symKey; omega
      simp [e]
    · have e : L - K = (L - (K + 1)) + 1 := by omega
      have h2' : L - (K + 1) < bs.length := by
        rw [e] at h2
        simpa using h2
      have he : (b :: bs)[L - K] = bs[L - (K + 1)] := by simp [e]
      rw [writeBuckets, ih hbs (by omega) h2' (by rw [← he]; exact hi)]
      simp [he]

theorem bucketsAt_length (buf : Nat → Byte) (p : Nat) (cs : List Byte) :
    (bucketsAt buf p cs).length = cs.length := by
  induction cs generalizing p with
  | nil => rfl
  | cons c cs ih => simp [bucketsAt, ih]

theorem bucketsAt_small (buf : Nat → Byte) (p : Nat) (cs : List Byte) :
    ∀ b ∈ bucketsAt buf p cs, b.length ≤ 255 := by
  induction cs generalizing p with
  | nil => simp [bucketsAt]
  | cons c cs ih =>
    intro b hb
    rcases List.mem_cons.1 hb with rfl | hb
    · have := c.isLt
      simp
      omega
    · exact ih _ b hb

/-- Bucket `k` starts after the symbols of the buckets before it (R95). -/
theorem bucketsAt_getElem (buf : Nat → Byte) (p : Nat) (cs : List Byte) (k : Nat)
    (hk : k < (bucketsAt buf p cs).length) :
    (bucketsAt buf p cs)[k] =
      bytesAt buf (p + symbolsOf (cs.take k)) ((cs[k]'(by
        rw [bucketsAt_length] at hk
        exact hk)).toNat) := by
  induction cs generalizing p k with
  | nil => simp [bucketsAt] at hk
  | cons c cs ih =>
    cases k with
    | zero => simp [bucketsAt, symbolsOf]
    | succ k =>
      have hk' : k < (bucketsAt buf (p + c.toNat) cs).length := by
        simpa [bucketsAt] using hk
      have := ih (p + c.toNat) k hk'
      simp only [bucketsAt, List.getElem_cons_succ, List.take_succ_cons]
      rw [this]
      have hs : symbolsOf (c :: cs.take k) = c.toNat + symbolsOf (cs.take k) := rfl
      rw [hs, Nat.add_assoc]

theorem writeBuckets_wf {m : Memory} (K : Nat) (bs : List (List Byte)) (h : m.wf) :
    (writeBuckets m K bs).wf := by
  induction bs generalizing m K with
  | nil => exact h
  | cons b bs ih => exact ih _ (Memory.writeList_wf _ _ h)

theorem writeBuckets_forall {p : Nat → Prop} {m : Memory} {K : Nat} {bs : List (List Byte)}
    (hm : ∀ c ∈ m.cells, p c.1)
    (hp : ∀ L i, K ≤ L → L < K + bs.length → i < 255 → p (symKey L i))
    (hlen : ∀ b ∈ bs, b.length ≤ 255) :
    ∀ c ∈ (writeBuckets m K bs).cells, p c.1 := by
  induction bs generalizing m K with
  | nil => exact hm
  | cons b bs ih =>
    have hb : b.length ≤ 255 := hlen b List.mem_cons_self
    refine ih (Memory.writeList_forall hm ?_) ?_ (fun x hx => hlen x (List.mem_cons_of_mem _ hx))
    · intro j h1 h2
      have : symKey K (j - symKey K 0) = j := by unfold symKey at *; omega
      rw [← this]
      exact hp K _ le_rfl (by simp) (by unfold symKey at *; omega)
    · intro L i h1 h2 h3
      exact hp L i (by omega) (by simp; omega) h3

end Sys2Proof.Machine
end

