-- ==== Sys2Proof/Laws/State.lean ====
section
/-! SUPPORT. One lemma per field per named update of the state, each true by rfl: no later proof unfolds
a record update. -/

namespace Sys2Proof.Machine

/-! ### accept -/

@[simp] theorem accept_status (s : State) :
    (accept s).status = { s.status with busy := true } := rfl
@[simp] theorem accept_inLen (s : State) : (accept s).inLen = s.inLen := rfl
@[simp] theorem accept_outLen (s : State) : (accept s).outLen = s.outLen := rfl
@[simp] theorem accept_bitPos (s : State) : (accept s).bitPos = s.bitPos := rfl
@[simp] theorem accept_bitRem (s : State) : (accept s).bitRem = s.bitRem := rfl
@[simp] theorem accept_tdefEnd (s : State) : (accept s).tdefEnd = s.tdefEnd := rfl
@[simp] theorem accept_lkpRes (s : State) : (accept s).lkpRes = s.lkpRes := rfl
@[simp] theorem accept_ht (s : State) : (accept s).ht = s.ht := rfl
@[simp] theorem accept_cmap (s : State) : (accept s).cmap = s.cmap := rfl
@[simp] theorem accept_ibuf (s : State) : (accept s).ibuf = s.ibuf := rfl
@[simp] theorem accept_obuf (s : State) : (accept s).obuf = s.obuf := rfl
@[simp] theorem accept_tlState (s : State) : (accept s).tlState = s.tlState := rfl
@[simp] theorem accept_tbState (s : State) : (accept s).tbState = s.tbState := rfl
@[simp] theorem accept_edState (s : State) : (accept s).edState = s.edState := rfl
@[simp] theorem accept_tl (s : State) : (accept s).tl = s.tl := rfl
@[simp] theorem accept_tb (s : State) : (accept s).tb = s.tb := rfl
@[simp] theorem accept_ed (s : State) : (accept s).ed = s.ed := rfl
@[simp] theorem accept_held (s : State) : (accept s).held = s.held := rfl
@[simp] theorem accept_ibufSize (s : State) : (accept s).ibufSize = s.ibufSize := rfl
@[simp] theorem accept_port (s : State) : (accept s).port = s.port := rfl
@[simp] theorem accept_replies (s : State) : (accept s).replies = s.replies := rfl
@[simp] theorem accept_freeCtr (s : State) : (accept s).freeCtr = s.freeCtr := rfl
@[simp] theorem accept_inCount (s : State) : (accept s).inCount = s.inCount := rfl
@[simp] theorem accept_ibufAt (s : State) : (accept s).ibufAt = s.ibufAt := rfl
@[simp] theorem accept_obufAt (s : State) : (accept s).obufAt = s.obufAt := rfl

/-! ### succeed -/

@[simp] theorem succeed_status (s : State) :
    (succeed s).status = { s.status with err := false, errCode := .none, busy := false } := rfl
@[simp] theorem succeed_inLen (s : State) : (succeed s).inLen = s.inLen := rfl
@[simp] theorem succeed_outLen (s : State) : (succeed s).outLen = s.outLen := rfl
@[simp] theorem succeed_bitPos (s : State) : (succeed s).bitPos = s.bitPos := rfl
@[simp] theorem succeed_bitRem (s : State) : (succeed s).bitRem = s.bitRem := rfl
@[simp] theorem succeed_tdefEnd (s : State) : (succeed s).tdefEnd = s.tdefEnd := rfl
@[simp] theorem succeed_lkpRes (s : State) : (succeed s).lkpRes = s.lkpRes := rfl
@[simp] theorem succeed_ht (s : State) : (succeed s).ht = s.ht := rfl
@[simp] theorem succeed_cmap (s : State) : (succeed s).cmap = s.cmap := rfl
@[simp] theorem succeed_ibuf (s : State) : (succeed s).ibuf = s.ibuf := rfl
@[simp] theorem succeed_obuf (s : State) : (succeed s).obuf = s.obuf := rfl
@[simp] theorem succeed_tlState (s : State) : (succeed s).tlState = s.tlState := rfl
@[simp] theorem succeed_tbState (s : State) : (succeed s).tbState = s.tbState := rfl
@[simp] theorem succeed_edState (s : State) : (succeed s).edState = s.edState := rfl
@[simp] theorem succeed_tl (s : State) : (succeed s).tl = s.tl := rfl
@[simp] theorem succeed_tb (s : State) : (succeed s).tb = s.tb := rfl
@[simp] theorem succeed_ed (s : State) : (succeed s).ed = s.ed := rfl
@[simp] theorem succeed_held (s : State) : (succeed s).held = s.held := rfl
@[simp] theorem succeed_ibufSize (s : State) : (succeed s).ibufSize = s.ibufSize := rfl
@[simp] theorem succeed_port (s : State) : (succeed s).port = s.port := rfl
@[simp] theorem succeed_replies (s : State) : (succeed s).replies = s.replies := rfl
@[simp] theorem succeed_freeCtr (s : State) : (succeed s).freeCtr = s.freeCtr := rfl
@[simp] theorem succeed_inCount (s : State) : (succeed s).inCount = s.inCount := rfl
@[simp] theorem succeed_ibufAt (s : State) : (succeed s).ibufAt = s.ibufAt := rfl
@[simp] theorem succeed_obufAt (s : State) : (succeed s).obufAt = s.obufAt := rfl

/-! ### raiseFail -/

@[simp] theorem raiseFail_status (c : ErrCode) (s : State) :
    (raiseFail c s).status = { s.status with err := true, errCode := c, busy := false } := rfl
@[simp] theorem raiseFail_inLen (c : ErrCode) (s : State) : (raiseFail c s).inLen = s.inLen := rfl
@[simp] theorem raiseFail_outLen (c : ErrCode) (s : State) :
    (raiseFail c s).outLen = s.outLen := rfl
@[simp] theorem raiseFail_bitPos (c : ErrCode) (s : State) :
    (raiseFail c s).bitPos = s.bitPos := rfl
@[simp] theorem raiseFail_bitRem (c : ErrCode) (s : State) :
    (raiseFail c s).bitRem = s.bitRem := rfl
@[simp] theorem raiseFail_tdefEnd (c : ErrCode) (s : State) :
    (raiseFail c s).tdefEnd = s.tdefEnd := rfl
@[simp] theorem raiseFail_lkpRes (c : ErrCode) (s : State) :
    (raiseFail c s).lkpRes = s.lkpRes := rfl
@[simp] theorem raiseFail_ht (c : ErrCode) (s : State) : (raiseFail c s).ht = s.ht := rfl
@[simp] theorem raiseFail_cmap (c : ErrCode) (s : State) : (raiseFail c s).cmap = s.cmap := rfl
@[simp] theorem raiseFail_ibuf (c : ErrCode) (s : State) : (raiseFail c s).ibuf = s.ibuf := rfl
@[simp] theorem raiseFail_obuf (c : ErrCode) (s : State) : (raiseFail c s).obuf = s.obuf := rfl
@[simp] theorem raiseFail_tlState (c : ErrCode) (s : State) :
    (raiseFail c s).tlState = s.tlState := rfl
@[simp] theorem raiseFail_tbState (c : ErrCode) (s : State) :
    (raiseFail c s).tbState = s.tbState := rfl
@[simp] theorem raiseFail_edState (c : ErrCode) (s : State) :
    (raiseFail c s).edState = s.edState := rfl
@[simp] theorem raiseFail_tl (c : ErrCode) (s : State) : (raiseFail c s).tl = s.tl := rfl
@[simp] theorem raiseFail_tb (c : ErrCode) (s : State) : (raiseFail c s).tb = s.tb := rfl
@[simp] theorem raiseFail_ed (c : ErrCode) (s : State) : (raiseFail c s).ed = s.ed := rfl
@[simp] theorem raiseFail_held (c : ErrCode) (s : State) : (raiseFail c s).held = s.held := rfl
@[simp] theorem raiseFail_ibufSize (c : ErrCode) (s : State) :
    (raiseFail c s).ibufSize = s.ibufSize := rfl
@[simp] theorem raiseFail_port (c : ErrCode) (s : State) : (raiseFail c s).port = s.port := rfl
@[simp] theorem raiseFail_replies (c : ErrCode) (s : State) :
    (raiseFail c s).replies = s.replies := rfl
@[simp] theorem raiseFail_freeCtr (c : ErrCode) (s : State) :
    (raiseFail c s).freeCtr = s.freeCtr := rfl
@[simp] theorem raiseFail_inCount (c : ErrCode) (s : State) : (raiseFail c s).inCount = s.inCount := rfl
@[simp] theorem raiseFail_ibufAt (c : ErrCode) (s : State) : (raiseFail c s).ibufAt = s.ibufAt := rfl
@[simp] theorem raiseFail_obufAt (c : ErrCode) (s : State) : (raiseFail c s).obufAt = s.obufAt := rfl

/-! ### retireTl -/

@[simp] theorem retireTl_status (s : State) : (retireTl s).status = s.status := rfl
@[simp] theorem retireTl_inLen (s : State) : (retireTl s).inLen = s.inLen := rfl
@[simp] theorem retireTl_outLen (s : State) : (retireTl s).outLen = s.outLen := rfl
@[simp] theorem retireTl_bitPos (s : State) : (retireTl s).bitPos = s.bitPos := rfl
@[simp] theorem retireTl_bitRem (s : State) : (retireTl s).bitRem = s.bitRem := rfl
@[simp] theorem retireTl_tdefEnd (s : State) : (retireTl s).tdefEnd = s.tdefEnd := rfl
@[simp] theorem retireTl_lkpRes (s : State) : (retireTl s).lkpRes = s.lkpRes := rfl
@[simp] theorem retireTl_ht (s : State) : (retireTl s).ht = s.ht := rfl
@[simp] theorem retireTl_cmap (s : State) : (retireTl s).cmap = s.cmap := rfl
@[simp] theorem retireTl_ibuf (s : State) : (retireTl s).ibuf = s.ibuf := rfl
@[simp] theorem retireTl_obuf (s : State) : (retireTl s).obuf = s.obuf := rfl
@[simp] theorem retireTl_tlState (s : State) : (retireTl s).tlState = .idle := rfl
@[simp] theorem retireTl_tbState (s : State) : (retireTl s).tbState = s.tbState := rfl
@[simp] theorem retireTl_edState (s : State) : (retireTl s).edState = s.edState := rfl
@[simp] theorem retireTl_tb (s : State) : (retireTl s).tb = s.tb := rfl
@[simp] theorem retireTl_ed (s : State) : (retireTl s).ed = s.ed := rfl
@[simp] theorem retireTl_held (s : State) : (retireTl s).held = s.held := rfl
@[simp] theorem retireTl_ibufSize (s : State) : (retireTl s).ibufSize = s.ibufSize := rfl
@[simp] theorem retireTl_port (s : State) : (retireTl s).port = s.port := rfl
@[simp] theorem retireTl_replies (s : State) : (retireTl s).replies = s.replies := rfl
@[simp] theorem retireTl_freeCtr (s : State) : (retireTl s).freeCtr = s.freeCtr + 1 := rfl
@[simp] theorem retireTl_inCount (s : State) : (retireTl s).inCount = s.inCount := rfl
@[simp] theorem retireTl_ibufAt (s : State) : (retireTl s).ibufAt = s.ibufAt := rfl
@[simp] theorem retireTl_obufAt (s : State) : (retireTl s).obufAt = s.obufAt := rfl

/-! ### retireTb -/

@[simp] theorem retireTb_status (s : State) : (retireTb s).status = s.status := rfl
@[simp] theorem retireTb_inLen (s : State) : (retireTb s).inLen = s.inLen := rfl
@[simp] theorem retireTb_outLen (s : State) : (retireTb s).outLen = s.outLen := rfl
@[simp] theorem retireTb_bitPos (s : State) : (retireTb s).bitPos = s.bitPos := rfl
@[simp] theorem retireTb_bitRem (s : State) : (retireTb s).bitRem = s.bitRem := rfl
@[simp] theorem retireTb_tdefEnd (s : State) : (retireTb s).tdefEnd = s.tdefEnd := rfl
@[simp] theorem retireTb_lkpRes (s : State) : (retireTb s).lkpRes = s.lkpRes := rfl
@[simp] theorem retireTb_ht (s : State) : (retireTb s).ht = s.ht := rfl
@[simp] theorem retireTb_cmap (s : State) : (retireTb s).cmap = s.cmap := rfl
@[simp] theorem retireTb_ibuf (s : State) : (retireTb s).ibuf = s.ibuf := rfl
@[simp] theorem retireTb_obuf (s : State) : (retireTb s).obuf = s.obuf := rfl
@[simp] theorem retireTb_tlState (s : State) : (retireTb s).tlState = s.tlState := rfl
@[simp] theorem retireTb_tbState (s : State) : (retireTb s).tbState = .idle := rfl
@[simp] theorem retireTb_edState (s : State) : (retireTb s).edState = s.edState := rfl
@[simp] theorem retireTb_tl (s : State) : (retireTb s).tl = s.tl := rfl
@[simp] theorem retireTb_ed (s : State) : (retireTb s).ed = s.ed := rfl
@[simp] theorem retireTb_held (s : State) : (retireTb s).held = s.held := rfl
@[simp] theorem retireTb_ibufSize (s : State) : (retireTb s).ibufSize = s.ibufSize := rfl
@[simp] theorem retireTb_port (s : State) : (retireTb s).port = s.port := rfl
@[simp] theorem retireTb_replies (s : State) : (retireTb s).replies = s.replies := rfl
@[simp] theorem retireTb_freeCtr (s : State) : (retireTb s).freeCtr = s.freeCtr + 1 := rfl
@[simp] theorem retireTb_inCount (s : State) : (retireTb s).inCount = s.inCount := rfl
@[simp] theorem retireTb_ibufAt (s : State) : (retireTb s).ibufAt = s.ibufAt := rfl
@[simp] theorem retireTb_obufAt (s : State) : (retireTb s).obufAt = s.obufAt := rfl

/-! ### retireEd -/

@[simp] theorem retireEd_status (s : State) : (retireEd s).status = s.status := rfl
@[simp] theorem retireEd_inLen (s : State) : (retireEd s).inLen = s.inLen := rfl
@[simp] theorem retireEd_outLen (s : State) : (retireEd s).outLen = s.outLen := rfl
@[simp] theorem retireEd_bitPos (s : State) : (retireEd s).bitPos = s.bitPos := rfl
@[simp] theorem retireEd_bitRem (s : State) : (retireEd s).bitRem = s.bitRem := rfl
@[simp] theorem retireEd_tdefEnd (s : State) : (retireEd s).tdefEnd = s.tdefEnd := rfl
@[simp] theorem retireEd_lkpRes (s : State) : (retireEd s).lkpRes = s.lkpRes := rfl
@[simp] theorem retireEd_ht (s : State) : (retireEd s).ht = s.ht := rfl
@[simp] theorem retireEd_cmap (s : State) : (retireEd s).cmap = s.cmap := rfl
@[simp] theorem retireEd_ibuf (s : State) : (retireEd s).ibuf = s.ibuf := rfl
@[simp] theorem retireEd_obuf (s : State) : (retireEd s).obuf = s.obuf := rfl
@[simp] theorem retireEd_tlState (s : State) : (retireEd s).tlState = s.tlState := rfl
@[simp] theorem retireEd_tbState (s : State) : (retireEd s).tbState = s.tbState := rfl
@[simp] theorem retireEd_edState (s : State) : (retireEd s).edState = .idle := rfl
@[simp] theorem retireEd_tl (s : State) : (retireEd s).tl = s.tl := rfl
@[simp] theorem retireEd_tb (s : State) : (retireEd s).tb = s.tb := rfl
@[simp] theorem retireEd_held (s : State) : (retireEd s).held = s.held := rfl
@[simp] theorem retireEd_ibufSize (s : State) : (retireEd s).ibufSize = s.ibufSize := rfl
@[simp] theorem retireEd_port (s : State) : (retireEd s).port = s.port := rfl
@[simp] theorem retireEd_replies (s : State) : (retireEd s).replies = s.replies := rfl
@[simp] theorem retireEd_freeCtr (s : State) : (retireEd s).freeCtr = s.freeCtr + 1 := rfl
@[simp] theorem retireEd_inCount (s : State) : (retireEd s).inCount = s.inCount := rfl
@[simp] theorem retireEd_ibufAt (s : State) : (retireEd s).ibufAt = s.ibufAt := rfl
@[simp] theorem retireEd_obufAt (s : State) : (retireEd s).obufAt = s.obufAt := rfl

/-! ### reply -/

@[simp] theorem reply_status (v : Reply) (s : State) : (reply v s).status = s.status := rfl
@[simp] theorem reply_inLen (v : Reply) (s : State) : (reply v s).inLen = s.inLen := rfl
@[simp] theorem reply_outLen (v : Reply) (s : State) : (reply v s).outLen = s.outLen := rfl
@[simp] theorem reply_bitPos (v : Reply) (s : State) : (reply v s).bitPos = s.bitPos := rfl
@[simp] theorem reply_bitRem (v : Reply) (s : State) : (reply v s).bitRem = s.bitRem := rfl
@[simp] theorem reply_tdefEnd (v : Reply) (s : State) : (reply v s).tdefEnd = s.tdefEnd := rfl
@[simp] theorem reply_lkpRes (v : Reply) (s : State) : (reply v s).lkpRes = s.lkpRes := rfl
@[simp] theorem reply_ht (v : Reply) (s : State) : (reply v s).ht = s.ht := rfl
@[simp] theorem reply_cmap (v : Reply) (s : State) : (reply v s).cmap = s.cmap := rfl
@[simp] theorem reply_ibuf (v : Reply) (s : State) : (reply v s).ibuf = s.ibuf := rfl
@[simp] theorem reply_obuf (v : Reply) (s : State) : (reply v s).obuf = s.obuf := rfl
@[simp] theorem reply_tlState (v : Reply) (s : State) : (reply v s).tlState = s.tlState := rfl
@[simp] theorem reply_tbState (v : Reply) (s : State) : (reply v s).tbState = s.tbState := rfl
@[simp] theorem reply_edState (v : Reply) (s : State) : (reply v s).edState = s.edState := rfl
@[simp] theorem reply_tl (v : Reply) (s : State) : (reply v s).tl = s.tl := rfl
@[simp] theorem reply_tb (v : Reply) (s : State) : (reply v s).tb = s.tb := rfl
@[simp] theorem reply_ed (v : Reply) (s : State) : (reply v s).ed = s.ed := rfl
@[simp] theorem reply_held (v : Reply) (s : State) : (reply v s).held = s.held := rfl
@[simp] theorem reply_ibufSize (v : Reply) (s : State) : (reply v s).ibufSize = s.ibufSize := rfl
@[simp] theorem reply_port (v : Reply) (s : State) : (reply v s).port = s.port := rfl
@[simp] theorem reply_replies (v : Reply) (s : State) : (reply v s).replies = v :: s.replies := rfl
@[simp] theorem reply_freeCtr (v : Reply) (s : State) : (reply v s).freeCtr = s.freeCtr := rfl
@[simp] theorem reply_inCount (v : Reply) (s : State) : (reply v s).inCount = s.inCount := rfl
@[simp] theorem reply_ibufAt (v : Reply) (s : State) : (reply v s).ibufAt = s.ibufAt := rfl
@[simp] theorem reply_obufAt (v : Reply) (s : State) : (reply v s).obufAt = s.obufAt := rfl

/-! ### replyBusy -/

@[simp] theorem replyBusy_status (v : Reply) (s : State) : (replyBusy v s).status = s.status := rfl
@[simp] theorem replyBusy_inLen (v : Reply) (s : State) : (replyBusy v s).inLen = s.inLen := rfl
@[simp] theorem replyBusy_outLen (v : Reply) (s : State) : (replyBusy v s).outLen = s.outLen := rfl
@[simp] theorem replyBusy_bitPos (v : Reply) (s : State) : (replyBusy v s).bitPos = s.bitPos := rfl
@[simp] theorem replyBusy_bitRem (v : Reply) (s : State) : (replyBusy v s).bitRem = s.bitRem := rfl
@[simp] theorem replyBusy_tdefEnd (v : Reply) (s : State) :
    (replyBusy v s).tdefEnd = s.tdefEnd := rfl
@[simp] theorem replyBusy_lkpRes (v : Reply) (s : State) : (replyBusy v s).lkpRes = s.lkpRes := rfl
@[simp] theorem replyBusy_ht (v : Reply) (s : State) : (replyBusy v s).ht = s.ht := rfl
@[simp] theorem replyBusy_cmap (v : Reply) (s : State) : (replyBusy v s).cmap = s.cmap := rfl
@[simp] theorem replyBusy_ibuf (v : Reply) (s : State) : (replyBusy v s).ibuf = s.ibuf := rfl
@[simp] theorem replyBusy_obuf (v : Reply) (s : State) : (replyBusy v s).obuf = s.obuf := rfl
@[simp] theorem replyBusy_tlState (v : Reply) (s : State) :
    (replyBusy v s).tlState = s.tlState := rfl
@[simp] theorem replyBusy_tbState (v : Reply) (s : State) :
    (replyBusy v s).tbState = s.tbState := rfl
@[simp] theorem replyBusy_edState (v : Reply) (s : State) :
    (replyBusy v s).edState = s.edState := rfl
@[simp] theorem replyBusy_tl (v : Reply) (s : State) : (replyBusy v s).tl = s.tl := rfl
@[simp] theorem replyBusy_tb (v : Reply) (s : State) : (replyBusy v s).tb = s.tb := rfl
@[simp] theorem replyBusy_ed (v : Reply) (s : State) : (replyBusy v s).ed = s.ed := rfl
@[simp] theorem replyBusy_held (v : Reply) (s : State) : (replyBusy v s).held = s.held := rfl
@[simp] theorem replyBusy_ibufSize (v : Reply) (s : State) :
    (replyBusy v s).ibufSize = s.ibufSize := rfl
@[simp] theorem replyBusy_port (v : Reply) (s : State) : (replyBusy v s).port = s.port := rfl
@[simp] theorem replyBusy_replies (v : Reply) (s : State) :
    (replyBusy v s).replies = v :: s.replies := rfl
@[simp] theorem replyBusy_freeCtr (v : Reply) (s : State) :
    (replyBusy v s).freeCtr = s.freeCtr + 1 := rfl
@[simp] theorem replyBusy_inCount (v : Reply) (s : State) : (replyBusy v s).inCount = s.inCount := rfl
@[simp] theorem replyBusy_ibufAt (v : Reply) (s : State) : (replyBusy v s).ibufAt = s.ibufAt := rfl
@[simp] theorem replyBusy_obufAt (v : Reply) (s : State) : (replyBusy v s).obufAt = s.obufAt := rfl

/-! ### discardWrite -/

@[simp] theorem discardWrite_status (s : State) :
    (discardWrite s).status = { s.status with ovr := true } := rfl
@[simp] theorem discardWrite_inLen (s : State) : (discardWrite s).inLen = s.inLen := rfl
@[simp] theorem discardWrite_outLen (s : State) : (discardWrite s).outLen = s.outLen := rfl
@[simp] theorem discardWrite_bitPos (s : State) : (discardWrite s).bitPos = s.bitPos := rfl
@[simp] theorem discardWrite_bitRem (s : State) : (discardWrite s).bitRem = s.bitRem := rfl
@[simp] theorem discardWrite_tdefEnd (s : State) : (discardWrite s).tdefEnd = s.tdefEnd := rfl
@[simp] theorem discardWrite_lkpRes (s : State) : (discardWrite s).lkpRes = s.lkpRes := rfl
@[simp] theorem discardWrite_ht (s : State) : (discardWrite s).ht = s.ht := rfl
@[simp] theorem discardWrite_cmap (s : State) : (discardWrite s).cmap = s.cmap := rfl
@[simp] theorem discardWrite_ibuf (s : State) : (discardWrite s).ibuf = s.ibuf := rfl
@[simp] theorem discardWrite_obuf (s : State) : (discardWrite s).obuf = s.obuf := rfl
@[simp] theorem discardWrite_tlState (s : State) : (discardWrite s).tlState = s.tlState := rfl
@[simp] theorem discardWrite_tbState (s : State) : (discardWrite s).tbState = s.tbState := rfl
@[simp] theorem discardWrite_edState (s : State) : (discardWrite s).edState = s.edState := rfl
@[simp] theorem discardWrite_tl (s : State) : (discardWrite s).tl = s.tl := rfl
@[simp] theorem discardWrite_tb (s : State) : (discardWrite s).tb = s.tb := rfl
@[simp] theorem discardWrite_ed (s : State) : (discardWrite s).ed = s.ed := rfl
@[simp] theorem discardWrite_held (s : State) : (discardWrite s).held = s.held := rfl
@[simp] theorem discardWrite_ibufSize (s : State) : (discardWrite s).ibufSize = s.ibufSize := rfl
@[simp] theorem discardWrite_port (s : State) : (discardWrite s).port = s.port := rfl
@[simp] theorem discardWrite_replies (s : State) : (discardWrite s).replies = s.replies := rfl
@[simp] theorem discardWrite_freeCtr (s : State) : (discardWrite s).freeCtr = s.freeCtr := rfl
@[simp] theorem discardWrite_inCount (s : State) : (discardWrite s).inCount = s.inCount := rfl
@[simp] theorem discardWrite_ibufAt (s : State) : (discardWrite s).ibufAt = s.ibufAt := rfl
@[simp] theorem discardWrite_obufAt (s : State) : (discardWrite s).obufAt = s.obufAt := rfl

/-! ### ldtAccept -/

@[simp] theorem ldtAccept_status (s : State) :
    (ldtAccept s).status = { s.status with busy := true, tblValid := false, mapValid := false } := rfl
@[simp] theorem ldtAccept_inLen (s : State) : (ldtAccept s).inLen = s.inLen := rfl
@[simp] theorem ldtAccept_outLen (s : State) : (ldtAccept s).outLen = s.outLen := rfl
@[simp] theorem ldtAccept_bitPos (s : State) : (ldtAccept s).bitPos = s.bitPos := rfl
@[simp] theorem ldtAccept_bitRem (s : State) : (ldtAccept s).bitRem = s.bitRem := rfl
@[simp] theorem ldtAccept_tdefEnd (s : State) : (ldtAccept s).tdefEnd = 0#32 := rfl
@[simp] theorem ldtAccept_lkpRes (s : State) : (ldtAccept s).lkpRes = s.lkpRes := rfl
@[simp] theorem ldtAccept_ht (s : State) : (ldtAccept s).ht = .unspecified s.freeCtr := rfl
@[simp] theorem ldtAccept_cmap (s : State) : (ldtAccept s).cmap = .unspecified s.freeCtr := rfl
@[simp] theorem ldtAccept_ibuf (s : State) : (ldtAccept s).ibuf = s.ibuf := rfl
@[simp] theorem ldtAccept_obuf (s : State) : (ldtAccept s).obuf = s.obuf := rfl
@[simp] theorem ldtAccept_tlState (s : State) : (ldtAccept s).tlState = s.tlState := rfl
@[simp] theorem ldtAccept_tbState (s : State) : (ldtAccept s).tbState = s.tbState := rfl
@[simp] theorem ldtAccept_edState (s : State) : (ldtAccept s).edState = s.edState := rfl
@[simp] theorem ldtAccept_tl (s : State) : (ldtAccept s).tl = s.tl := rfl
@[simp] theorem ldtAccept_tb (s : State) : (ldtAccept s).tb = s.tb := rfl
@[simp] theorem ldtAccept_ed (s : State) : (ldtAccept s).ed = s.ed := rfl
@[simp] theorem ldtAccept_held (s : State) : (ldtAccept s).held = s.held := rfl
@[simp] theorem ldtAccept_ibufSize (s : State) : (ldtAccept s).ibufSize = s.ibufSize := rfl
@[simp] theorem ldtAccept_port (s : State) : (ldtAccept s).port = s.port := rfl
@[simp] theorem ldtAccept_replies (s : State) : (ldtAccept s).replies = s.replies := rfl
@[simp] theorem ldtAccept_freeCtr (s : State) : (ldtAccept s).freeCtr = s.freeCtr := rfl
@[simp] theorem ldtAccept_inCount (s : State) : (ldtAccept s).inCount = s.inCount := rfl
@[simp] theorem ldtAccept_ibufAt (s : State) : (ldtAccept s).ibufAt = s.ibufAt := rfl
@[simp] theorem ldtAccept_obufAt (s : State) : (ldtAccept s).obufAt = s.obufAt := rfl

/-! ### ldtFail -/

@[simp] theorem ldtFail_status (c : ErrCode) (s : State) :
    (ldtFail c s).status = { s.status with err := true, errCode := c, busy := false } := rfl
@[simp] theorem ldtFail_inLen (c : ErrCode) (s : State) : (ldtFail c s).inLen = s.inLen := rfl
@[simp] theorem ldtFail_outLen (c : ErrCode) (s : State) : (ldtFail c s).outLen = s.outLen := rfl
@[simp] theorem ldtFail_bitPos (c : ErrCode) (s : State) : (ldtFail c s).bitPos = s.bitPos := rfl
@[simp] theorem ldtFail_bitRem (c : ErrCode) (s : State) : (ldtFail c s).bitRem = s.bitRem := rfl
@[simp] theorem ldtFail_tdefEnd (c : ErrCode) (s : State) : (ldtFail c s).tdefEnd = s.tdefEnd := rfl
@[simp] theorem ldtFail_lkpRes (c : ErrCode) (s : State) : (ldtFail c s).lkpRes = s.lkpRes := rfl
@[simp] theorem ldtFail_ht (c : ErrCode) (s : State) :
    (ldtFail c s).ht = .unspecified s.freeCtr := rfl
@[simp] theorem ldtFail_cmap (c : ErrCode) (s : State) : (ldtFail c s).cmap = s.cmap := rfl
@[simp] theorem ldtFail_ibuf (c : ErrCode) (s : State) : (ldtFail c s).ibuf = s.ibuf := rfl
@[simp] theorem ldtFail_obuf (c : ErrCode) (s : State) : (ldtFail c s).obuf = s.obuf := rfl
@[simp] theorem ldtFail_tlState (c : ErrCode) (s : State) : (ldtFail c s).tlState = .idle := rfl
@[simp] theorem ldtFail_tbState (c : ErrCode) (s : State) : (ldtFail c s).tbState = s.tbState := rfl
@[simp] theorem ldtFail_edState (c : ErrCode) (s : State) : (ldtFail c s).edState = s.edState := rfl
@[simp] theorem ldtFail_tb (c : ErrCode) (s : State) : (ldtFail c s).tb = s.tb := rfl
@[simp] theorem ldtFail_ed (c : ErrCode) (s : State) : (ldtFail c s).ed = s.ed := rfl
@[simp] theorem ldtFail_held (c : ErrCode) (s : State) : (ldtFail c s).held = s.held := rfl
@[simp] theorem ldtFail_ibufSize (c : ErrCode) (s : State) :
    (ldtFail c s).ibufSize = s.ibufSize := rfl
@[simp] theorem ldtFail_port (c : ErrCode) (s : State) : (ldtFail c s).port = s.port := rfl
@[simp] theorem ldtFail_replies (c : ErrCode) (s : State) : (ldtFail c s).replies = s.replies := rfl
@[simp] theorem ldtFail_freeCtr (c : ErrCode) (s : State) :
    (ldtFail c s).freeCtr = s.freeCtr + 1 := rfl
@[simp] theorem ldtFail_inCount (c : ErrCode) (s : State) : (ldtFail c s).inCount = s.inCount := rfl
@[simp] theorem ldtFail_ibufAt (c : ErrCode) (s : State) : (ldtFail c s).ibufAt = s.ibufAt := rfl
@[simp] theorem ldtFail_obufAt (c : ErrCode) (s : State) : (ldtFail c s).obufAt = s.obufAt := rfl

/-! ### ldtDone -/

@[simp] theorem ldtDone_status (e : Word) (s : State) :
    (ldtDone e s).status = { s.status with tblValid := true, err := false, errCode := .none, busy := false } := rfl
@[simp] theorem ldtDone_inLen (e : Word) (s : State) : (ldtDone e s).inLen = s.inLen := rfl
@[simp] theorem ldtDone_outLen (e : Word) (s : State) : (ldtDone e s).outLen = s.outLen := rfl
@[simp] theorem ldtDone_bitPos (e : Word) (s : State) : (ldtDone e s).bitPos = s.bitPos := rfl
@[simp] theorem ldtDone_bitRem (e : Word) (s : State) : (ldtDone e s).bitRem = s.bitRem := rfl
@[simp] theorem ldtDone_tdefEnd (e : Word) (s : State) : (ldtDone e s).tdefEnd = e := rfl
@[simp] theorem ldtDone_lkpRes (e : Word) (s : State) : (ldtDone e s).lkpRes = s.lkpRes := rfl
@[simp] theorem ldtDone_ht (e : Word) (s : State) : (ldtDone e s).ht = s.ht := rfl
@[simp] theorem ldtDone_cmap (e : Word) (s : State) : (ldtDone e s).cmap = s.cmap := rfl
@[simp] theorem ldtDone_ibuf (e : Word) (s : State) : (ldtDone e s).ibuf = s.ibuf := rfl
@[simp] theorem ldtDone_obuf (e : Word) (s : State) : (ldtDone e s).obuf = s.obuf := rfl
@[simp] theorem ldtDone_tlState (e : Word) (s : State) : (ldtDone e s).tlState = .idle := rfl
@[simp] theorem ldtDone_tbState (e : Word) (s : State) : (ldtDone e s).tbState = s.tbState := rfl
@[simp] theorem ldtDone_edState (e : Word) (s : State) : (ldtDone e s).edState = s.edState := rfl
@[simp] theorem ldtDone_tb (e : Word) (s : State) : (ldtDone e s).tb = s.tb := rfl
@[simp] theorem ldtDone_ed (e : Word) (s : State) : (ldtDone e s).ed = s.ed := rfl
@[simp] theorem ldtDone_held (e : Word) (s : State) : (ldtDone e s).held = s.held := rfl
@[simp] theorem ldtDone_ibufSize (e : Word) (s : State) : (ldtDone e s).ibufSize = s.ibufSize := rfl
@[simp] theorem ldtDone_port (e : Word) (s : State) : (ldtDone e s).port = s.port := rfl
@[simp] theorem ldtDone_replies (e : Word) (s : State) : (ldtDone e s).replies = s.replies := rfl
@[simp] theorem ldtDone_freeCtr (e : Word) (s : State) :
    (ldtDone e s).freeCtr = s.freeCtr + 1 := rfl
@[simp] theorem ldtDone_inCount (e : Word) (s : State) : (ldtDone e s).inCount = s.inCount := rfl
@[simp] theorem ldtDone_ibufAt (e : Word) (s : State) : (ldtDone e s).ibufAt = s.ibufAt := rfl
@[simp] theorem ldtDone_obufAt (e : Word) (s : State) : (ldtDone e s).obufAt = s.obufAt := rfl

/-! ### bldAccept -/

@[simp] theorem bldAccept_status (s : State) :
    (bldAccept s).status = { s.status with busy := true, mapValid := false } := rfl
@[simp] theorem bldAccept_inLen (s : State) : (bldAccept s).inLen = s.inLen := rfl
@[simp] theorem bldAccept_outLen (s : State) : (bldAccept s).outLen = s.outLen := rfl
@[simp] theorem bldAccept_bitPos (s : State) : (bldAccept s).bitPos = s.bitPos := rfl
@[simp] theorem bldAccept_bitRem (s : State) : (bldAccept s).bitRem = s.bitRem := rfl
@[simp] theorem bldAccept_tdefEnd (s : State) : (bldAccept s).tdefEnd = s.tdefEnd := rfl
@[simp] theorem bldAccept_lkpRes (s : State) : (bldAccept s).lkpRes = s.lkpRes := rfl
@[simp] theorem bldAccept_ht (s : State) : (bldAccept s).ht = s.ht := rfl
@[simp] theorem bldAccept_cmap (s : State) : (bldAccept s).cmap = .unspecified s.freeCtr := rfl
@[simp] theorem bldAccept_ibuf (s : State) : (bldAccept s).ibuf = s.ibuf := rfl
@[simp] theorem bldAccept_obuf (s : State) : (bldAccept s).obuf = s.obuf := rfl
@[simp] theorem bldAccept_tlState (s : State) : (bldAccept s).tlState = s.tlState := rfl
@[simp] theorem bldAccept_tbState (s : State) : (bldAccept s).tbState = s.tbState := rfl
@[simp] theorem bldAccept_edState (s : State) : (bldAccept s).edState = s.edState := rfl
@[simp] theorem bldAccept_tl (s : State) : (bldAccept s).tl = s.tl := rfl
@[simp] theorem bldAccept_tb (s : State) : (bldAccept s).tb = s.tb := rfl
@[simp] theorem bldAccept_ed (s : State) : (bldAccept s).ed = s.ed := rfl
@[simp] theorem bldAccept_held (s : State) : (bldAccept s).held = s.held := rfl
@[simp] theorem bldAccept_ibufSize (s : State) : (bldAccept s).ibufSize = s.ibufSize := rfl
@[simp] theorem bldAccept_port (s : State) : (bldAccept s).port = s.port := rfl
@[simp] theorem bldAccept_replies (s : State) : (bldAccept s).replies = s.replies := rfl
@[simp] theorem bldAccept_freeCtr (s : State) : (bldAccept s).freeCtr = s.freeCtr := rfl
@[simp] theorem bldAccept_inCount (s : State) : (bldAccept s).inCount = s.inCount := rfl
@[simp] theorem bldAccept_ibufAt (s : State) : (bldAccept s).ibufAt = s.ibufAt := rfl
@[simp] theorem bldAccept_obufAt (s : State) : (bldAccept s).obufAt = s.obufAt := rfl

/-! ### bldFail -/

@[simp] theorem bldFail_status (c : ErrCode) (s : State) :
    (bldFail c s).status = { s.status with err := true, errCode := c, busy := false } := rfl
@[simp] theorem bldFail_inLen (c : ErrCode) (s : State) : (bldFail c s).inLen = s.inLen := rfl
@[simp] theorem bldFail_outLen (c : ErrCode) (s : State) : (bldFail c s).outLen = s.outLen := rfl
@[simp] theorem bldFail_bitPos (c : ErrCode) (s : State) : (bldFail c s).bitPos = s.bitPos := rfl
@[simp] theorem bldFail_bitRem (c : ErrCode) (s : State) : (bldFail c s).bitRem = s.bitRem := rfl
@[simp] theorem bldFail_tdefEnd (c : ErrCode) (s : State) : (bldFail c s).tdefEnd = s.tdefEnd := rfl
@[simp] theorem bldFail_lkpRes (c : ErrCode) (s : State) : (bldFail c s).lkpRes = s.lkpRes := rfl
@[simp] theorem bldFail_ht (c : ErrCode) (s : State) : (bldFail c s).ht = s.ht := rfl
@[simp] theorem bldFail_cmap (c : ErrCode) (s : State) :
    (bldFail c s).cmap = .unspecified s.freeCtr := rfl
@[simp] theorem bldFail_ibuf (c : ErrCode) (s : State) : (bldFail c s).ibuf = s.ibuf := rfl
@[simp] theorem bldFail_obuf (c : ErrCode) (s : State) : (bldFail c s).obuf = s.obuf := rfl
@[simp] theorem bldFail_tlState (c : ErrCode) (s : State) : (bldFail c s).tlState = s.tlState := rfl
@[simp] theorem bldFail_tbState (c : ErrCode) (s : State) : (bldFail c s).tbState = .idle := rfl
@[simp] theorem bldFail_edState (c : ErrCode) (s : State) : (bldFail c s).edState = s.edState := rfl
@[simp] theorem bldFail_tl (c : ErrCode) (s : State) : (bldFail c s).tl = s.tl := rfl
@[simp] theorem bldFail_ed (c : ErrCode) (s : State) : (bldFail c s).ed = s.ed := rfl
@[simp] theorem bldFail_held (c : ErrCode) (s : State) : (bldFail c s).held = s.held := rfl
@[simp] theorem bldFail_ibufSize (c : ErrCode) (s : State) :
    (bldFail c s).ibufSize = s.ibufSize := rfl
@[simp] theorem bldFail_port (c : ErrCode) (s : State) : (bldFail c s).port = s.port := rfl
@[simp] theorem bldFail_replies (c : ErrCode) (s : State) : (bldFail c s).replies = s.replies := rfl
@[simp] theorem bldFail_freeCtr (c : ErrCode) (s : State) :
    (bldFail c s).freeCtr = s.freeCtr + 1 := rfl
@[simp] theorem bldFail_inCount (c : ErrCode) (s : State) : (bldFail c s).inCount = s.inCount := rfl
@[simp] theorem bldFail_ibufAt (c : ErrCode) (s : State) : (bldFail c s).ibufAt = s.ibufAt := rfl
@[simp] theorem bldFail_obufAt (c : ErrCode) (s : State) : (bldFail c s).obufAt = s.obufAt := rfl

/-! ### bldDone -/

@[simp] theorem bldDone_status (s : State) :
    (bldDone s).status = { s.status with mapValid := true, err := false, errCode := .none, busy := false } := rfl
@[simp] theorem bldDone_inLen (s : State) : (bldDone s).inLen = s.inLen := rfl
@[simp] theorem bldDone_outLen (s : State) : (bldDone s).outLen = s.outLen := rfl
@[simp] theorem bldDone_bitPos (s : State) : (bldDone s).bitPos = s.bitPos := rfl
@[simp] theorem bldDone_bitRem (s : State) : (bldDone s).bitRem = s.bitRem := rfl
@[simp] theorem bldDone_tdefEnd (s : State) : (bldDone s).tdefEnd = s.tdefEnd := rfl
@[simp] theorem bldDone_lkpRes (s : State) : (bldDone s).lkpRes = s.lkpRes := rfl
@[simp] theorem bldDone_ht (s : State) : (bldDone s).ht = s.ht := rfl
@[simp] theorem bldDone_cmap (s : State) : (bldDone s).cmap = s.cmap := rfl
@[simp] theorem bldDone_ibuf (s : State) : (bldDone s).ibuf = s.ibuf := rfl
@[simp] theorem bldDone_obuf (s : State) : (bldDone s).obuf = s.obuf := rfl
@[simp] theorem bldDone_tlState (s : State) : (bldDone s).tlState = s.tlState := rfl
@[simp] theorem bldDone_tbState (s : State) : (bldDone s).tbState = .idle := rfl
@[simp] theorem bldDone_edState (s : State) : (bldDone s).edState = s.edState := rfl
@[simp] theorem bldDone_tl (s : State) : (bldDone s).tl = s.tl := rfl
@[simp] theorem bldDone_ed (s : State) : (bldDone s).ed = s.ed := rfl
@[simp] theorem bldDone_held (s : State) : (bldDone s).held = s.held := rfl
@[simp] theorem bldDone_ibufSize (s : State) : (bldDone s).ibufSize = s.ibufSize := rfl
@[simp] theorem bldDone_port (s : State) : (bldDone s).port = s.port := rfl
@[simp] theorem bldDone_replies (s : State) : (bldDone s).replies = s.replies := rfl
@[simp] theorem bldDone_freeCtr (s : State) : (bldDone s).freeCtr = s.freeCtr + 1 := rfl
@[simp] theorem bldDone_inCount (s : State) : (bldDone s).inCount = s.inCount := rfl
@[simp] theorem bldDone_ibufAt (s : State) : (bldDone s).ibufAt = s.ibufAt := rfl
@[simp] theorem bldDone_obufAt (s : State) : (bldDone s).obufAt = s.obufAt := rfl

/-! ### decAccept -/

@[simp] theorem decAccept_status (s : State) :
    (decAccept s).status = { s.status with busy := true, outValid := false } := rfl
@[simp] theorem decAccept_inLen (s : State) : (decAccept s).inLen = s.inLen := rfl
@[simp] theorem decAccept_outLen (s : State) : (decAccept s).outLen = 0#32 := rfl
@[simp] theorem decAccept_bitPos (s : State) : (decAccept s).bitPos = 0#32 := rfl
@[simp] theorem decAccept_bitRem (s : State) : (decAccept s).bitRem = 0#32 := rfl
@[simp] theorem decAccept_tdefEnd (s : State) : (decAccept s).tdefEnd = s.tdefEnd := rfl
@[simp] theorem decAccept_lkpRes (s : State) : (decAccept s).lkpRes = s.lkpRes := rfl
@[simp] theorem decAccept_ht (s : State) : (decAccept s).ht = s.ht := rfl
@[simp] theorem decAccept_cmap (s : State) : (decAccept s).cmap = s.cmap := rfl
@[simp] theorem decAccept_ibuf (s : State) : (decAccept s).ibuf = s.ibuf := rfl
@[simp] theorem decAccept_obuf (s : State) : (decAccept s).obuf = .unspecified s.freeCtr := rfl
@[simp] theorem decAccept_tlState (s : State) : (decAccept s).tlState = s.tlState := rfl
@[simp] theorem decAccept_tbState (s : State) : (decAccept s).tbState = s.tbState := rfl
@[simp] theorem decAccept_edState (s : State) : (decAccept s).edState = s.edState := rfl
@[simp] theorem decAccept_tl (s : State) : (decAccept s).tl = s.tl := rfl
@[simp] theorem decAccept_tb (s : State) : (decAccept s).tb = s.tb := rfl
@[simp] theorem decAccept_ed (s : State) : (decAccept s).ed = s.ed := rfl
@[simp] theorem decAccept_held (s : State) : (decAccept s).held = s.held := rfl
@[simp] theorem decAccept_ibufSize (s : State) : (decAccept s).ibufSize = s.ibufSize := rfl
@[simp] theorem decAccept_port (s : State) : (decAccept s).port = s.port := rfl
@[simp] theorem decAccept_replies (s : State) : (decAccept s).replies = s.replies := rfl
@[simp] theorem decAccept_freeCtr (s : State) : (decAccept s).freeCtr = s.freeCtr := rfl
@[simp] theorem decAccept_inCount (s : State) : (decAccept s).inCount = s.inCount := rfl
@[simp] theorem decAccept_ibufAt (s : State) : (decAccept s).ibufAt = s.ibufAt := rfl

/-! ### decFail -/

@[simp] theorem decFail_status (c : ErrCode) (s : State) :
    (decFail c s).status = { s.status with err := true, errCode := c, busy := false } := rfl
@[simp] theorem decFail_inLen (c : ErrCode) (s : State) : (decFail c s).inLen = s.inLen := rfl
@[simp] theorem decFail_outLen (c : ErrCode) (s : State) : (decFail c s).outLen = s.outLen := rfl
@[simp] theorem decFail_bitPos (c : ErrCode) (s : State) : (decFail c s).bitPos = s.bitPos := rfl
@[simp] theorem decFail_bitRem (c : ErrCode) (s : State) : (decFail c s).bitRem = s.bitRem := rfl
@[simp] theorem decFail_tdefEnd (c : ErrCode) (s : State) : (decFail c s).tdefEnd = s.tdefEnd := rfl
@[simp] theorem decFail_lkpRes (c : ErrCode) (s : State) : (decFail c s).lkpRes = s.lkpRes := rfl
@[simp] theorem decFail_ht (c : ErrCode) (s : State) : (decFail c s).ht = s.ht := rfl
@[simp] theorem decFail_cmap (c : ErrCode) (s : State) : (decFail c s).cmap = s.cmap := rfl
@[simp] theorem decFail_ibuf (c : ErrCode) (s : State) : (decFail c s).ibuf = s.ibuf := rfl
@[simp] theorem decFail_obuf (c : ErrCode) (s : State) :
    (decFail c s).obuf = .unspecified s.freeCtr := rfl
@[simp] theorem decFail_tlState (c : ErrCode) (s : State) : (decFail c s).tlState = s.tlState := rfl
@[simp] theorem decFail_tbState (c : ErrCode) (s : State) : (decFail c s).tbState = s.tbState := rfl
@[simp] theorem decFail_edState (c : ErrCode) (s : State) : (decFail c s).edState = .idle := rfl
@[simp] theorem decFail_tl (c : ErrCode) (s : State) : (decFail c s).tl = s.tl := rfl
@[simp] theorem decFail_tb (c : ErrCode) (s : State) : (decFail c s).tb = s.tb := rfl
@[simp] theorem decFail_held (c : ErrCode) (s : State) : (decFail c s).held = s.held := rfl
@[simp] theorem decFail_ibufSize (c : ErrCode) (s : State) :
    (decFail c s).ibufSize = s.ibufSize := rfl
@[simp] theorem decFail_port (c : ErrCode) (s : State) : (decFail c s).port = s.port := rfl
@[simp] theorem decFail_replies (c : ErrCode) (s : State) : (decFail c s).replies = s.replies := rfl
@[simp] theorem decFail_freeCtr (c : ErrCode) (s : State) :
    (decFail c s).freeCtr = s.freeCtr + 1 := rfl
@[simp] theorem decFail_inCount (c : ErrCode) (s : State) : (decFail c s).inCount = s.inCount := rfl
@[simp] theorem decFail_ibufAt (c : ErrCode) (s : State) : (decFail c s).ibufAt = s.ibufAt := rfl

/-! ### decNoCode -/

@[simp] theorem decNoCode_status (p r : Word) (s : State) :
    (decNoCode p r s).status = { s.status with err := true, errCode := .noCode, busy := false } := rfl
@[simp] theorem decNoCode_inLen (p r : Word) (s : State) : (decNoCode p r s).inLen = s.inLen := rfl
@[simp] theorem decNoCode_outLen (p r : Word) (s : State) :
    (decNoCode p r s).outLen = s.outLen := rfl
@[simp] theorem decNoCode_bitPos (p r : Word) (s : State) : (decNoCode p r s).bitPos = p := rfl
@[simp] theorem decNoCode_bitRem (p r : Word) (s : State) : (decNoCode p r s).bitRem = r := rfl
@[simp] theorem decNoCode_tdefEnd (p r : Word) (s : State) :
    (decNoCode p r s).tdefEnd = s.tdefEnd := rfl
@[simp] theorem decNoCode_lkpRes (p r : Word) (s : State) :
    (decNoCode p r s).lkpRes = s.lkpRes := rfl
@[simp] theorem decNoCode_ht (p r : Word) (s : State) : (decNoCode p r s).ht = s.ht := rfl
@[simp] theorem decNoCode_cmap (p r : Word) (s : State) : (decNoCode p r s).cmap = s.cmap := rfl
@[simp] theorem decNoCode_ibuf (p r : Word) (s : State) : (decNoCode p r s).ibuf = s.ibuf := rfl
@[simp] theorem decNoCode_obuf (p r : Word) (s : State) :
    (decNoCode p r s).obuf = .unspecified s.freeCtr := rfl
@[simp] theorem decNoCode_tlState (p r : Word) (s : State) :
    (decNoCode p r s).tlState = s.tlState := rfl
@[simp] theorem decNoCode_tbState (p r : Word) (s : State) :
    (decNoCode p r s).tbState = s.tbState := rfl
@[simp] theorem decNoCode_edState (p r : Word) (s : State) :
    (decNoCode p r s).edState = .idle := rfl
@[simp] theorem decNoCode_tl (p r : Word) (s : State) : (decNoCode p r s).tl = s.tl := rfl
@[simp] theorem decNoCode_tb (p r : Word) (s : State) : (decNoCode p r s).tb = s.tb := rfl
@[simp] theorem decNoCode_held (p r : Word) (s : State) : (decNoCode p r s).held = s.held := rfl
@[simp] theorem decNoCode_ibufSize (p r : Word) (s : State) :
    (decNoCode p r s).ibufSize = s.ibufSize := rfl
@[simp] theorem decNoCode_port (p r : Word) (s : State) : (decNoCode p r s).port = s.port := rfl
@[simp] theorem decNoCode_replies (p r : Word) (s : State) :
    (decNoCode p r s).replies = s.replies := rfl
@[simp] theorem decNoCode_freeCtr (p r : Word) (s : State) :
    (decNoCode p r s).freeCtr = s.freeCtr + 1 := rfl
@[simp] theorem decNoCode_inCount (p r : Word) (s : State) : (decNoCode p r s).inCount = s.inCount := rfl
@[simp] theorem decNoCode_ibufAt (p r : Word) (s : State) : (decNoCode p r s).ibufAt = s.ibufAt := rfl

/-! ### decDone -/

@[simp] theorem decDone_status (n p : Word) (s : State) :
    (decDone n p s).status = { s.status with outValid := true, err := false, errCode := .none, busy := false } := rfl
@[simp] theorem decDone_inLen (n p : Word) (s : State) : (decDone n p s).inLen = s.inLen := rfl
@[simp] theorem decDone_outLen (n p : Word) (s : State) : (decDone n p s).outLen = n := rfl
@[simp] theorem decDone_bitPos (n p : Word) (s : State) : (decDone n p s).bitPos = p := rfl
@[simp] theorem decDone_bitRem (n p : Word) (s : State) : (decDone n p s).bitRem = 0#32 := rfl
@[simp] theorem decDone_tdefEnd (n p : Word) (s : State) :
    (decDone n p s).tdefEnd = s.tdefEnd := rfl
@[simp] theorem decDone_lkpRes (n p : Word) (s : State) : (decDone n p s).lkpRes = s.lkpRes := rfl
@[simp] theorem decDone_ht (n p : Word) (s : State) : (decDone n p s).ht = s.ht := rfl
@[simp] theorem decDone_cmap (n p : Word) (s : State) : (decDone n p s).cmap = s.cmap := rfl
@[simp] theorem decDone_ibuf (n p : Word) (s : State) : (decDone n p s).ibuf = s.ibuf := rfl
@[simp] theorem decDone_obuf (n p : Word) (s : State) : (decDone n p s).obuf = s.obuf := rfl
@[simp] theorem decDone_tlState (n p : Word) (s : State) :
    (decDone n p s).tlState = s.tlState := rfl
@[simp] theorem decDone_tbState (n p : Word) (s : State) :
    (decDone n p s).tbState = s.tbState := rfl
@[simp] theorem decDone_edState (n p : Word) (s : State) : (decDone n p s).edState = .idle := rfl
@[simp] theorem decDone_tl (n p : Word) (s : State) : (decDone n p s).tl = s.tl := rfl
@[simp] theorem decDone_tb (n p : Word) (s : State) : (decDone n p s).tb = s.tb := rfl
@[simp] theorem decDone_held (n p : Word) (s : State) : (decDone n p s).held = s.held := rfl
@[simp] theorem decDone_ibufSize (n p : Word) (s : State) :
    (decDone n p s).ibufSize = s.ibufSize := rfl
@[simp] theorem decDone_port (n p : Word) (s : State) : (decDone n p s).port = s.port := rfl
@[simp] theorem decDone_replies (n p : Word) (s : State) :
    (decDone n p s).replies = s.replies := rfl
@[simp] theorem decDone_freeCtr (n p : Word) (s : State) :
    (decDone n p s).freeCtr = s.freeCtr + 1 := rfl
@[simp] theorem decDone_inCount (n p : Word) (s : State) : (decDone n p s).inCount = s.inCount := rfl
@[simp] theorem decDone_ibufAt (n p : Word) (s : State) : (decDone n p s).ibufAt = s.ibufAt := rfl
@[simp] theorem decDone_obufAt (n p : Word) (s : State) : (decDone n p s).obufAt = s.obufAt := rfl

/-! ### holdAccepted -/

@[simp] theorem holdAccepted_status (w : Word) (s : State) :
    (holdAccepted w s).status = { s.status with busy := true } := rfl
@[simp] theorem holdAccepted_inLen (w : Word) (s : State) :
    (holdAccepted w s).inLen = s.inLen := rfl
@[simp] theorem holdAccepted_outLen (w : Word) (s : State) :
    (holdAccepted w s).outLen = s.outLen := rfl
@[simp] theorem holdAccepted_bitPos (w : Word) (s : State) :
    (holdAccepted w s).bitPos = s.bitPos := rfl
@[simp] theorem holdAccepted_bitRem (w : Word) (s : State) :
    (holdAccepted w s).bitRem = s.bitRem := rfl
@[simp] theorem holdAccepted_tdefEnd (w : Word) (s : State) :
    (holdAccepted w s).tdefEnd = s.tdefEnd := rfl
@[simp] theorem holdAccepted_lkpRes (w : Word) (s : State) :
    (holdAccepted w s).lkpRes = s.lkpRes := rfl
@[simp] theorem holdAccepted_ht (w : Word) (s : State) : (holdAccepted w s).ht = s.ht := rfl
@[simp] theorem holdAccepted_cmap (w : Word) (s : State) : (holdAccepted w s).cmap = s.cmap := rfl
@[simp] theorem holdAccepted_ibuf (w : Word) (s : State) : (holdAccepted w s).ibuf = s.ibuf := rfl
@[simp] theorem holdAccepted_obuf (w : Word) (s : State) : (holdAccepted w s).obuf = s.obuf := rfl
@[simp] theorem holdAccepted_tlState (w : Word) (s : State) :
    (holdAccepted w s).tlState = s.tlState := rfl
@[simp] theorem holdAccepted_tbState (w : Word) (s : State) :
    (holdAccepted w s).tbState = s.tbState := rfl
@[simp] theorem holdAccepted_edState (w : Word) (s : State) :
    (holdAccepted w s).edState = s.edState := rfl
@[simp] theorem holdAccepted_tl (w : Word) (s : State) : (holdAccepted w s).tl = s.tl := rfl
@[simp] theorem holdAccepted_tb (w : Word) (s : State) : (holdAccepted w s).tb = s.tb := rfl
@[simp] theorem holdAccepted_ed (w : Word) (s : State) : (holdAccepted w s).ed = s.ed := rfl
@[simp] theorem holdAccepted_held (w : Word) (s : State) :
    (holdAccepted w s).held = some (.accepted w) := rfl
@[simp] theorem holdAccepted_ibufSize (w : Word) (s : State) :
    (holdAccepted w s).ibufSize = s.ibufSize := rfl
@[simp] theorem holdAccepted_port (w : Word) (s : State) : (holdAccepted w s).port = s.port := rfl
@[simp] theorem holdAccepted_replies (w : Word) (s : State) :
    (holdAccepted w s).replies = s.replies := rfl
@[simp] theorem holdAccepted_freeCtr (w : Word) (s : State) :
    (holdAccepted w s).freeCtr = s.freeCtr := rfl
@[simp] theorem holdAccepted_inCount (w : Word) (s : State) : (holdAccepted w s).inCount = s.inCount := rfl
@[simp] theorem holdAccepted_ibufAt (w : Word) (s : State) : (holdAccepted w s).ibufAt = s.ibufAt := rfl
@[simp] theorem holdAccepted_obufAt (w : Word) (s : State) : (holdAccepted w s).obufAt = s.obufAt := rfl

/-! ### holdResult -/

@[simp] theorem holdResult_status (x s : State) : (holdResult x s).status = x.status := rfl
@[simp] theorem holdResult_inLen (x s : State) : (holdResult x s).inLen = s.inLen := rfl
@[simp] theorem holdResult_outLen (x s : State) : (holdResult x s).outLen = x.outLen := rfl
@[simp] theorem holdResult_bitPos (x s : State) : (holdResult x s).bitPos = x.bitPos := rfl
@[simp] theorem holdResult_bitRem (x s : State) : (holdResult x s).bitRem = x.bitRem := rfl
@[simp] theorem holdResult_tdefEnd (x s : State) : (holdResult x s).tdefEnd = x.tdefEnd := rfl
@[simp] theorem holdResult_lkpRes (x s : State) : (holdResult x s).lkpRes = s.lkpRes := rfl
@[simp] theorem holdResult_ht (x s : State) : (holdResult x s).ht = s.ht := rfl
@[simp] theorem holdResult_cmap (x s : State) : (holdResult x s).cmap = s.cmap := rfl
@[simp] theorem holdResult_ibuf (x s : State) : (holdResult x s).ibuf = s.ibuf := rfl
@[simp] theorem holdResult_obuf (x s : State) : (holdResult x s).obuf = s.obuf := rfl
@[simp] theorem holdResult_tlState (x s : State) : (holdResult x s).tlState = s.tlState := rfl
@[simp] theorem holdResult_tbState (x s : State) : (holdResult x s).tbState = s.tbState := rfl
@[simp] theorem holdResult_edState (x s : State) : (holdResult x s).edState = s.edState := rfl
@[simp] theorem holdResult_tl (x s : State) : (holdResult x s).tl = s.tl := rfl
@[simp] theorem holdResult_tb (x s : State) : (holdResult x s).tb = s.tb := rfl
@[simp] theorem holdResult_ed (x s : State) : (holdResult x s).ed = s.ed := rfl
@[simp] theorem holdResult_held (x s : State) :
    (holdResult x s).held = some (.result (resultOf s)) := rfl
@[simp] theorem holdResult_ibufSize (x s : State) : (holdResult x s).ibufSize = s.ibufSize := rfl
@[simp] theorem holdResult_port (x s : State) : (holdResult x s).port = s.port := rfl
@[simp] theorem holdResult_replies (x s : State) : (holdResult x s).replies = s.replies := rfl
@[simp] theorem holdResult_freeCtr (x s : State) : (holdResult x s).freeCtr = s.freeCtr := rfl
@[simp] theorem holdResult_inCount (x s : State) : (holdResult x s).inCount = s.inCount := rfl
@[simp] theorem holdResult_ibufAt (x s : State) : (holdResult x s).ibufAt = s.ibufAt := rfl
@[simp] theorem holdResult_obufAt (x s : State) : (holdResult x s).obufAt = s.obufAt := rfl

/-! ### writeResult -/

@[simp] theorem writeResult_status (r : Result) (s : State) :
    (writeResult r s).status = { s.status with
      tblValid := r.tblValid, mapValid := r.mapValid, outValid := r.outValid, err := r.err
      errCode := r.errCode, busy := false } := rfl
@[simp] theorem writeResult_inLen (r : Result) (s : State) :
    (writeResult r s).inLen = s.inLen := rfl
@[simp] theorem writeResult_outLen (r : Result) (s : State) :
    (writeResult r s).outLen = r.outLen := rfl
@[simp] theorem writeResult_bitPos (r : Result) (s : State) :
    (writeResult r s).bitPos = r.bitPos := rfl
@[simp] theorem writeResult_bitRem (r : Result) (s : State) :
    (writeResult r s).bitRem = r.bitRem := rfl
@[simp] theorem writeResult_tdefEnd (r : Result) (s : State) :
    (writeResult r s).tdefEnd = r.tdefEnd := rfl
@[simp] theorem writeResult_lkpRes (r : Result) (s : State) :
    (writeResult r s).lkpRes = s.lkpRes := rfl
@[simp] theorem writeResult_ht (r : Result) (s : State) : (writeResult r s).ht = s.ht := rfl
@[simp] theorem writeResult_cmap (r : Result) (s : State) : (writeResult r s).cmap = s.cmap := rfl
@[simp] theorem writeResult_ibuf (r : Result) (s : State) : (writeResult r s).ibuf = s.ibuf := rfl
@[simp] theorem writeResult_obuf (r : Result) (s : State) : (writeResult r s).obuf = s.obuf := rfl
@[simp] theorem writeResult_tlState (r : Result) (s : State) :
    (writeResult r s).tlState = s.tlState := rfl
@[simp] theorem writeResult_tbState (r : Result) (s : State) :
    (writeResult r s).tbState = s.tbState := rfl
@[simp] theorem writeResult_edState (r : Result) (s : State) :
    (writeResult r s).edState = s.edState := rfl
@[simp] theorem writeResult_tl (r : Result) (s : State) : (writeResult r s).tl = s.tl := rfl
@[simp] theorem writeResult_tb (r : Result) (s : State) : (writeResult r s).tb = s.tb := rfl
@[simp] theorem writeResult_ed (r : Result) (s : State) : (writeResult r s).ed = s.ed := rfl
@[simp] theorem writeResult_held (r : Result) (s : State) : (writeResult r s).held = none := rfl
@[simp] theorem writeResult_ibufSize (r : Result) (s : State) :
    (writeResult r s).ibufSize = s.ibufSize := rfl
@[simp] theorem writeResult_port (r : Result) (s : State) : (writeResult r s).port = s.port := rfl
@[simp] theorem writeResult_replies (r : Result) (s : State) :
    (writeResult r s).replies = s.replies := rfl
@[simp] theorem writeResult_freeCtr (r : Result) (s : State) :
    (writeResult r s).freeCtr = s.freeCtr := rfl
@[simp] theorem writeResult_inCount (r : Result) (s : State) : (writeResult r s).inCount = s.inCount := rfl
@[simp] theorem writeResult_ibufAt (r : Result) (s : State) : (writeResult r s).ibufAt = s.ibufAt := rfl
@[simp] theorem writeResult_obufAt (r : Result) (s : State) : (writeResult r s).obufAt = s.obufAt := rfl

end Sys2Proof.Machine
end

