-- ==== Sys2Proof/Laws/Commands.lean ====
section
/-! SUPPORT. Each command in closed form, case by case, and once for each everything it can answer: the
lemmas later proofs cite instead of unfolding a meaning. -/

namespace Sys2Proof.Machine

/-! ### LDT -/

theorem ldtBody_len {s : State} (h : s.ibufSize < s.inCount) : ldtBody s = ldtFail .len s := by
  rw [ldtBody, if_pos h]

theorem ldtBody_error {s : State} {c : ErrCode} (hn : s.inCount ≤ s.ibufSize)
    (h : parse s.ibufAt s.inCount = .error c) : ldtBody s = ldtFail c s := by
  rw [ldtBody, if_neg (by omega), h]

theorem ldtBody_ok {s : State} {t : TableDef} (hn : s.inCount ≤ s.ibufSize)
    (h : parse s.ibufAt s.inCount = .ok t) :
    ldtBody s = ldtDone (BitVec.ofNat 32 t.fin) { s with ht := s.ht.load t } := by
  rw [ldtBody, if_neg (by omega), h]

/-- A failing parse names one of its two causes (R121). -/
theorem parse_error_ne_none {buf : Nat → Byte} {n : Nat} {c : ErrCode} (h : parse buf n = .error c) :
    c ≠ .none := by
  rintro rfl
  by_cases h0 : n = 0
  · subst h0
    rw [parse_empty] at h
    cases h
  · by_cases hid : legalIdentity (buf 0) = true
    · by_cases hn : 17 + sumCounts (fun L => (buf L).toNat) 16 ≤ n
      · rw [parse_ok hid hn] at h
        cases h
      · rw [parse_short hid (by omega)] at h
        cases h
    · rw [parse_badId (by simpa using hid) (by omega)] at h
      cases h

/-- What a successful parse answered (R121). -/
theorem of_parse_ok {buf : Nat → Byte} {n : Nat} {t : TableDef} (h : parse buf n = .ok t) :
    legalIdentity (buf 0) = true ∧ 17 + sumCounts (fun L => (buf L).toNat) 16 ≤ n ∧
      t = { cls := classOf (buf 0), id := idOf (buf 0), cnt := bytesAt buf 1 16,
            sym := bucketsAt buf 17 (bytesAt buf 1 16),
            fin := 17 + sumCounts (fun L => (buf L).toNat) 16 } := by
  by_cases h0 : n = 0
  · subst h0
    rw [parse_empty] at h
    cases h
  · by_cases hid : legalIdentity (buf 0) = true
    · by_cases hn : 17 + sumCounts (fun L => (buf L).toNat) 16 ≤ n
      · rw [parse_ok hid hn] at h
        exact ⟨hid, hn, (Except.ok.inj h).symm⟩
      · rw [parse_short hid (by omega)] at h
        cases h
    · rw [parse_badId (by simpa using hid) (by omega)] at h
      cases h

/-- Everything LDT can answer (R120). -/
theorem ldtBody_cases (s : State) :
    (∃ c, c ≠ .none ∧ ldtBody s = ldtFail c s) ∨
    (∃ t, s.inCount ≤ s.ibufSize ∧ parse s.ibufAt s.inCount = .ok t ∧
      ldtBody s = ldtDone (BitVec.ofNat 32 t.fin) { s with ht := s.ht.load t }) := by
  by_cases hn : s.inCount ≤ s.ibufSize
  · cases hp : parse s.ibufAt s.inCount with
    | error c => exact .inl ⟨c, parse_error_ne_none hp, ldtBody_error hn hp⟩
    | ok t => exact .inr ⟨t, hn, rfl, ldtBody_ok hn hp⟩
  · exact .inl ⟨.len, by simp, ldtBody_len (by omega)⟩

/-! ### BLD -/

theorem bldBody_noTbl {s : State} (h : s.status.tblValid = false) : bldBody s = bldFail .noTbl s := by
  simp [bldBody, h]

theorem bldBody_overSub {s : State} (h : s.status.tblValid = true) (hb : build s.ht.bucket = none) :
    bldBody s = bldFail .overSub s := by
  simp [bldBody, h, hb]

theorem bldBody_ok {s : State} {m : List Host.Cell} (h : s.status.tblValid = true)
    (hb : build s.ht.bucket = some m) : bldBody s = bldDone { s with cmap := ⟨none, m⟩ } := by
  simp [bldBody, h, hb]

/-- Everything BLD can answer (R141). -/
theorem bldBody_cases (s : State) :
    (∃ c, c ≠ .none ∧ bldBody s = bldFail c s) ∨
    (∃ m, s.status.tblValid = true ∧ build s.ht.bucket = some m ∧
      bldBody s = bldDone { s with cmap := ⟨none, m⟩ }) := by
  cases ht : s.status.tblValid with
  | false => exact .inl ⟨.noTbl, by simp, bldBody_noTbl ht⟩
  | true =>
    cases hb : build s.ht.bucket with
    | none => exact .inl ⟨.overSub, by simp, bldBody_overSub ht hb⟩
    | some m => exact .inr ⟨m, rfl, rfl, bldBody_ok ht hb⟩

/-! ### LKP -/

theorem lkpBody_hit {s : State} {len pat : Nat} {b : Byte} (h : s.status.mapValid = true)
    (hl : s.cmap.lookup len pat = some b) : lkpBody len pat s = succeed { s with lkpRes := lkpHit b } := by
  simp [lkpBody, h, hl]

theorem lkpBody_miss {s : State} {len pat : Nat} (h : s.status.mapValid = true)
    (hl : s.cmap.lookup len pat = none) : lkpBody len pat s = succeed { s with lkpRes := lkpMiss } := by
  simp [lkpBody, h, hl]

theorem lkpBody_noMap {s : State} (len pat : Nat) (h : s.status.mapValid = false) :
    lkpBody len pat s = raiseFail .noMap { s with lkpRes := lkpMiss } := by
  simp [lkpBody, h]

/-- Everything LKP can answer (R148). -/
theorem lkpBody_cases (len pat : Nat) (s : State) :
    ∃ v, (s.status.mapValid = false ∧ lkpBody len pat s = raiseFail .noMap { s with lkpRes := v }) ∨
      (s.status.mapValid = true ∧ lkpBody len pat s = succeed { s with lkpRes := v }) := by
  cases h : s.status.mapValid with
  | false => exact ⟨_, .inl ⟨rfl, lkpBody_noMap len pat h⟩⟩
  | true =>
    cases hl : s.cmap.lookup len pat with
    | none => exact ⟨_, .inr ⟨rfl, lkpBody_miss h hl⟩⟩
    | some b => exact ⟨_, .inr ⟨rfl, lkpBody_hit h hl⟩⟩

/-! ### DEC -/

theorem decBody_noMap {s : State} (h : s.status.mapValid = false) : decBody s = decFail .noMap s := by
  simp [decBody, h]

theorem decBody_len {s : State} (h : s.status.mapValid = true) (hn : s.ibufSize < s.inCount) :
    decBody s = decFail .len s := by
  simp [decBody, h, hn]

theorem decBody_noCode {s : State} {cur : Nat} (h : s.status.mapValid = true)
    (hn : s.inCount ≤ s.ibufSize) (hd : decode s.cmap.lookup s.ibufAt s.inCount = .error cur) :
    decBody s = decNoCode (BitVec.ofNat 32 cur) (BitVec.ofNat 32 (8 * s.inCount - cur)) s := by
  simp [decBody, h, Nat.not_lt.2 hn, hd]

theorem decBody_ok {s : State} {out : List Byte} {cur : Nat} (h : s.status.mapValid = true)
    (hn : s.inCount ≤ s.ibufSize) (hd : decode s.cmap.lookup s.ibufAt s.inCount = .ok (out, cur)) :
    decBody s = decDone (BitVec.ofNat 32 out.length) (BitVec.ofNat 32 cur)
      { s with obuf := s.obuf.writeList 0 out } := by
  simp [decBody, h, Nat.not_lt.2 hn, hd]

/-- Everything DEC can answer (R172). -/
theorem decBody_cases (s : State) :
    (∃ c, c ≠ .none ∧ decBody s = decFail c s) ∨
    (∃ cur rem, s.status.mapValid = true ∧ decBody s = decNoCode cur rem s) ∨
    (∃ out cur, s.inCount ≤ s.ibufSize ∧ s.status.mapValid = true ∧
      decode s.cmap.lookup s.ibufAt s.inCount = .ok (out, cur) ∧
      decBody s = decDone (BitVec.ofNat 32 out.length) (BitVec.ofNat 32 cur)
        { s with obuf := s.obuf.writeList 0 out }) := by
  cases hm : s.status.mapValid with
  | false => exact .inl ⟨.noMap, by simp, decBody_noMap hm⟩
  | true =>
    by_cases hn : s.inCount ≤ s.ibufSize
    · cases hd : decode s.cmap.lookup s.ibufAt s.inCount with
      | error cur => exact .inr (.inl ⟨_, _, rfl, decBody_noCode hm hn hd⟩)
      | ok r => exact .inr (.inr ⟨r.1, r.2, hn, rfl, rfl, decBody_ok hm hn hd⟩)
    · exact .inl ⟨.len, by simp, decBody_len hm (by omega)⟩

/-! ### All commands -/

/-- The state in which a command completes. -/
def completed : Instr → State → State
  | .clr, s => clrBody (accept s)
  | .ldt, s => ldtBody (ldtAccept s)
  | .bld, s => bldBody (bldAccept s)
  | .dec, s => decBody (decAccept s)
  | .lkp len pat, s => lkpBody (lkpLen len) (lkpPat pat) (accept s)

/-- `exec` always answers a next state. -/
theorem exec_eq (i : Instr) (s : State) : exec i s = .next (completed i s) := by
  cases i <;> rfl

/-! ### Steps -/

/-- What no unit step changes while no completion is put off (R23, R24, R29, R74). -/
structure UnitFrame (s t : State) : Prop where
  ovr : t.status.ovr = s.status.ovr
  inLen : t.inLen = s.inLen
  lkpRes : t.lkpRes = s.lkpRes
  ibuf : t.ibuf = s.ibuf
  ibufSize : t.ibufSize = s.ibufSize
  port : t.port = s.port
  replies : t.replies = s.replies
  held : t.held = s.held

theorem UnitFrame.rfl {s : State} : UnitFrame s s :=
  ⟨Eq.refl _, Eq.refl _, Eq.refl _, Eq.refl _, Eq.refl _, Eq.refl _, Eq.refl _, Eq.refl _⟩

theorem tlStep_frame (s : State) : UnitFrame s (tlStep s) := by
  unfold tlStep tlIdStep tlCountsStep tlSymsStep
  repeat' split
  all_goals exact ⟨rfl, rfl, rfl, rfl, rfl, rfl, rfl, rfl⟩

theorem tbStep_frame (s : State) : UnitFrame s (tbStep s) := by
  unfold tbStep tbAssignStep tbShiftStep
  repeat' split
  all_goals first | exact ⟨rfl, rfl, rfl, rfl, rfl, rfl, rfl, rfl⟩ | skip
  dsimp only
  split
  all_goals exact ⟨rfl, rfl, rfl, rfl, rfl, rfl, rfl, rfl⟩

theorem edStep_frame (s : State) : UnitFrame s (edStep s) := by
  unfold edStep edTestStep edTryStep
  repeat' split
  all_goals exact ⟨rfl, rfl, rfl, rfl, rfl, rfl, rfl, rfl⟩

theorem runningStep_frame (s : State) : UnitFrame s (runningStep s) := by
  unfold runningStep
  repeat' split
  · exact edStep_frame s
  · exact tbStep_frame s
  · exact tbStep_frame s
  · exact tlStep_frame s
  · exact tlStep_frame s
  · exact tlStep_frame s

theorem unitStep_of_held_none {s : State} (hb : s.status.busy = true) (h : s.held = none) :
    unitStep s = runningStep s := by
  simp [unitStep, hb, h]

theorem unitStep_of_held {s : State} {x : Held} (hb : s.status.busy = true) (h : s.held = some x) :
    unitStep s = release x s := by
  simp [unitStep, hb, h]

theorem unitStep_of_idle {s : State} (hb : s.status.busy = false) : unitStep s = s := by
  simp [unitStep, hb]

theorem unitStep_frame {s : State} (h : s.held = none) : UnitFrame s (unitStep s) := by
  cases hb : s.status.busy with
  | false => rw [unitStep_of_idle hb]; exact .rfl
  | true => rw [unitStep_of_held_none hb h]; exact runningStep_frame s

/-- The same block before other events of the outside. -/
abbrev State.withPort (p : List HostEvent) (s : State) : State := { s with port := p }

/-- No unit looks at what the outside does next. -/
theorem tlStep_port (s : State) (p : List HostEvent) : tlStep (s.withPort p) = (tlStep s).withPort p := by
  unfold tlStep tlIdStep tlCountsStep tlSymsStep
  cases h : s.tlState <;> simp only [apply_ite (State.withPort p)] <;> rfl

theorem tbStep_port (s : State) (p : List HostEvent) : tbStep (s.withPort p) = (tbStep s).withPort p := by
  unfold tbStep tbAssignStep tbShiftStep
  cases h : s.tbState <;> simp only [apply_ite (State.withPort p)] <;> rfl

theorem edStep_port (s : State) (p : List HostEvent) : edStep (s.withPort p) = (edStep s).withPort p := by
  unfold edStep edTestStep edTryStep
  cases h : s.edState <;> simp only [apply_ite (State.withPort p)] <;> try rfl
  generalize hl : s.cmap.lookup s.ed.len.toNat
    (window (streamBit s.ibufAt) s.ed.cursor.toNat s.ed.len.toNat) = r
  have hl' : (s.withPort p).cmap.lookup (s.withPort p).ed.len.toNat (window (streamBit (s.withPort p).ibufAt)
    (s.withPort p).ed.cursor.toNat (s.withPort p).ed.len.toNat) = r := hl
  rw [hl']
  cases r <;> rfl

theorem runningStep_port (s : State) (p : List HostEvent) :
    runningStep (s.withPort p) = (runningStep s).withPort p := by
  unfold runningStep
  rw [show (s.withPort p).tlState = s.tlState from rfl, show (s.withPort p).tbState = s.tbState from rfl]
  cases s.tlState with
  | idle =>
    cases s.tbState with
    | idle => exact edStep_port s p
    | assign => exact tbStep_port s p
    | shift => exact tbStep_port s p
  | id => exact tlStep_port s p
  | counts => exact tlStep_port s p
  | syms => exact tlStep_port s p

/-- Acceptance raises BUSY, so a command begun from an accepted state is the command begun (R202). -/
theorem startCommand_accept (w : Word) (s : State) : startCommand w (accept s) = startCommand w s := by
  unfold startCommand
  split
  · next i _ => cases i <;> rfl
  · rfl

/-- A put-off completion, once made up, is the completion (R202). -/
theorem writeResult_holdResult {s t : State} (ho : t.status.ovr = s.status.ovr)
    (hb : t.status.busy = false) (hh : t.held = none) : writeResult (resultOf t) (holdResult s t) = t := by
  obtain ⟨⟨_, _, _, _, _, _, _⟩⟩ := t
  simp only at ho hb hh
  subst ho hb hh
  rfl

/-- Everything a step that puts a completion off can do (R41). -/
theorem unitStepHeld_cases (s : State) :
    (s.held ≠ none ∧ unitStepHeld s = s) ∨
    (s.held = none ∧ s.status.busy = true ∧ (unitStep s).status.busy = false ∧
      unitStepHeld s = holdResult s (unitStep s)) ∨
    (s.held = none ∧ (s.status.busy = false ∨ (unitStep s).status.busy = true) ∧
      unitStepHeld s = unitStep s) := by
  unfold unitStepHeld
  cases hh : s.held with
  | some x => exact .inl ⟨by simp, rfl⟩
  | none =>
    right
    dsimp only
    split
    · next hc =>
      simp only [Bool.and_eq_true, Bool.not_eq_true'] at hc
      exact .inl ⟨rfl, hc.1, hc.2, rfl⟩
    · next hc =>
      refine .inr ⟨rfl, ?_, rfl⟩
      cases hb : s.status.busy with
      | false => exact .inl rfl
      | true => exact .inr (by simpa [hb] using hc)

/-- Everything an acceptance whose completion may be put off can do (R41). -/
theorem startHeld_cases (w : Word) (s : State) :
    ((startCommand w s).status.busy = true ∧ startHeld w s = startCommand w s) ∨
    ((startCommand w s).status.busy = false ∧ startHeld w s = holdAccepted w s) := by
  unfold startHeld
  cases hb : (startCommand w s).status.busy with
  | true => exact .inl ⟨rfl, by simp⟩
  | false => exact .inr ⟨rfl, by simp⟩

/-- A step, once and for all: what can have happened, and what the next state then is. -/
theorem step_cases {s t : State} (h : step s = .next t) :
    (s.port = [] ∧ t = unitStep s) ∨
    ∃ e rest, s.port = e :: rest ∧
      ((e = .wait false ∧ t = unitStep { s with port := rest }) ∨
       (e = .hwReset ∧ t = hardReset { s with port := rest }) ∨
       (s.status.busy = true ∧ t = discardWrite { s with port := rest } ∧
         ((∃ r w, e = .access (.regWrite r w)) ∨ (∃ i b, e = .access (.ibufWrite i b)) ∨
           ∃ hold w, e = .startCmd hold w)) ∨
       (∃ v, s.status.busy = true ∧ t = replyBusy v { s with port := rest }) ∨
       (∃ v, s.status.busy = false ∧ t = reply v { s with port := rest }) ∨
       (∃ i b, s.status.busy = false ∧ e = .access (.ibufWrite i b) ∧
         t = ibufWrite i b { s with port := rest }) ∨
       (∃ w, s.status.busy = false ∧ e = .access (.regWrite 2 w) ∧
         t = { s with port := rest, inLen := w }) ∨
       (s.status.busy = false ∧ t = { s with port := rest }) ∨
       (∃ w, s.status.busy = false ∧ (e = .access (.regWrite 0 w) ∨ e = .startCmd false w) ∧
         (∃ x, decodeCmd w = .error x) ∧ t = illegalBody { s with port := rest }) ∨
       (∃ w i, s.status.busy = false ∧ e = .access (.regWrite 0 w) ∧ decodeCmd w = .ok i ∧
         t = completed i { s with port := rest }) ∨
       (∃ w i, s.status.busy = false ∧ e = .startCmd false w ∧ decodeCmd w = .ok i ∧
         t = startInstr i { s with port := rest }) ∨
       (e = .wait true ∧ t = unitStepHeld { s with port := rest }) ∨
       (∃ w, s.status.busy = false ∧ e = .startCmd true w ∧ t = startHeld w { s with port := rest })) := by
  unfold step at h
  split at h
  · next hp =>
    injection h with h
    exact .inl ⟨hp, h.symm⟩
  · next e rest hp =>
    refine .inr ⟨e, rest, hp, ?_⟩
    cases e with
    | wait hold =>
      injection h with h
      cases hold with
      | false => exact .inl ⟨rfl, h.symm⟩
      | true =>
        iterate 11 right
        exact .inl ⟨rfl, h.symm⟩
    | hwReset =>
      injection h with h
      exact .inr (.inl ⟨rfl, h.symm⟩)
    | startCmd hold w =>
      simp only [hostEvent] at h
      injection h with h
      cases hb : s.status.busy with
      | true =>
        simp [hb] at h
        exact .inr (.inr (.inl ⟨rfl, h.symm, .inr (.inr ⟨hold, w, rfl⟩)⟩))
      | false =>
        cases hold with
        | true =>
          simp [hb] at h
          iterate 12 right
          exact ⟨w, rfl, rfl, h.symm⟩
        | false =>
          simp [hb, startCommand] at h
          iterate 8 right
          cases hd : decodeCmd w with
          | error x =>
            simp [hd] at h
            exact .inl ⟨w, rfl, .inr rfl, ⟨x, hd⟩, h.symm⟩
          | ok i =>
            simp [hd] at h
            exact .inr (.inr (.inl ⟨w, i, rfl, rfl, hd, h.symm⟩))
    | access a =>
      simp only [hostEvent] at h
      cases hb : s.status.busy with
      | true =>
        simp [hb] at h
        right; right
        cases a with
        | regRead r => exact .inr (.inl ⟨_, rfl, h.symm⟩)
        | ibufRead i => exact .inr (.inl ⟨_, rfl, h.symm⟩)
        | obufRead i => exact .inr (.inl ⟨_, rfl, h.symm⟩)
        | regWrite r w => exact .inl ⟨rfl, h.symm, .inl ⟨_, _, rfl⟩⟩
        | ibufWrite i b => exact .inl ⟨rfl, h.symm, .inr (.inl ⟨_, _, rfl⟩)⟩
      | false =>
        simp [hb] at h
        iterate 4 right
        cases a with
        | regRead r =>
          injection h with h
          exact .inl ⟨_, rfl, h.symm⟩
        | ibufRead i =>
          injection h with h
          exact .inl ⟨_, rfl, h.symm⟩
        | obufRead i =>
          injection h with h
          exact .inl ⟨_, rfl, h.symm⟩
        | ibufWrite i b =>
          injection h with h
          exact .inr (.inl ⟨i, b, rfl, rfl, h.symm⟩)
        | regWrite r w =>
          simp only [accessIdle] at h
          unfold regWrite at h
          right; right
          split at h
          · unfold runCommand at h
            split at h
            · next i hd =>
              rw [exec_eq] at h
              injection h with h
              exact .inr (.inr (.inr (.inl ⟨w, i, rfl, rfl, hd, h.symm⟩)))
            · next x hd =>
              injection h with h
              exact .inr (.inr (.inl ⟨w, rfl, .inl rfl, ⟨x, hd⟩, h.symm⟩))
          · injection h with h
            exact .inl ⟨w, rfl, rfl, h.symm⟩
          · injection h with h
            exact .inr (.inl ⟨rfl, h.symm⟩)

end Sys2Proof.Machine
end

