-- ==== Sys2Proof/Laws/Decode.lean ====
section
/-! SUPPORT. The fields of a command word as numbers (R90, R91), for the decoder and the encoder. -/

namespace Sys2Proof

theorem opcOf_toNat (w : Word) : (opcOf w).toNat = w.toNat % 256 := by
  simp [opcOf]

theorem upperOf_toNat (w : Word) : (upperOf w).toNat = w.toNat / 256 := by
  have := w.isLt
  simp [upperOf, Nat.shiftRight_eq_div_pow]
  omega

theorem reservedOf_toNat (w : Word) : (reservedOf w).toNat = w.toNat / 8192 % 8 := by
  simp [reservedOf, Nat.shiftRight_eq_div_pow]

theorem lenOf_toNat (w : Word) : (lenOf w).toNat = w.toNat / 256 % 32 := by
  simp [lenOf, Nat.shiftRight_eq_div_pow]

theorem patOf_toNat (w : Word) : (patOf w).toNat = w.toNat / 65536 := by
  have := w.isLt
  simp [patOf, Nat.shiftRight_eq_div_pow]
  omega

/-- A concatenation of bit fields as a number. -/
theorem toNat_append_fields {m n : Nat} (x : BitVec m) (y : BitVec n) :
    (x ++ y).toNat = x.toNat * 2 ^ n + y.toNat := by
  rw [BitVec.toNat_append, ← Nat.shiftLeft_add_eq_or_of_lt y.isLt, Nat.shiftLeft_eq]

end Sys2Proof
end

