-- ==== Sys2Proof/Laws/Invariant.lean ====
section
/-! SUPPORT. The invariant through each way the block can change: the acceptance and the completion of a
command, a step of each unit, reset. -/

namespace Sys2Proof.Machine

/-- The same block with other host-side bookkeeping and OVR. -/
theorem sound_port {s : State} (h : s.Sound) (p : List HostEvent) (r : List Reply) (f : Nat) (o : Bool) :
    ({ s with port := p, replies := r, freeCtr := f, status := { s.status with ovr := o } }).Sound := by
  obtain ⟨h1, h2, h3, h4, h5, h6, h7, h8, h9, h10, h11, h12, h13, h14, h15, h16, h17, h18, h19, h20, h21,
    h22, h23⟩ := h
  exact ⟨h1, h2, h3, h4, h5, h6, h7, h8, h9, h10, h11, h12, h13, h14, h15, h16, h17, h18, h19, h20, h21,
    h22, h23⟩

theorem sound_rest {s : State} (h : s.Sound) (p : List HostEvent) : ({ s with port := p }).Sound :=
  sound_port h p s.replies s.freeCtr s.status.ovr

theorem nil_in {p : Host.Cell → Prop} : ∀ c ∈ ([] : List Host.Cell), p c := fun _ hc => nomatch hc

/-- The invariant of a state whose three units are idle needs only its first eighteen clauses. -/
theorem sound_of_idle {s : State} (hu : s.tlState = .idle ∧ s.tbState = .idle ∧ s.edState = .idle)
    (hb : s.status.busy = false) (h1 : 1 ≤ s.ibufSize) (h2 : s.ibufSize ≤ Config.ibufSizeMax)
    (h3 : s.ibuf.wf) (h4 : ∀ c ∈ s.ibuf.cells, c.1 < s.ibufSize) (h5 : s.obuf.wf)
    (h6 : ∀ c ∈ s.obuf.cells, c.1 < 8 * s.ibufSize) (h7 : s.ht.cnt.wf)
    (h8 : ∀ c ∈ s.ht.cnt.cells, 1 ≤ c.1 ∧ c.1 ≤ 16) (h9 : s.ht.sym.wf)
    (h10 : ∀ c ∈ s.ht.sym.cells, ∃ L i, 1 ≤ L ∧ L ≤ 16 ∧ i < 255 ∧ c.1 = symKey L i)
    (h11 : cellsWf s.cmap.cells) (h12 : ∀ c ∈ s.cmap.cells, ∃ L v, legalCode L v ∧ c.1 = codeKey L v)
    (h13 : s.status.mapValid = true → s.status.tblValid = true)
    (h14 : s.status.mapValid = true → s.cmap.bg = none ∧ build s.ht.bucket = some s.cmap.cells)
    (h15 : s.status.tblValid = true → s.tdefEnd.toNat = 17 + sumCounts s.ht.count 16)
    (h16 : s.status.err = false ↔ s.status.errCode = .none)
    (h17 : s.status.outValid = false → s.outLen = 0#32)
    (h18 : s.status.outValid = true → s.bitRem = 0#32) : s.Sound :=
  ⟨h1, h2, h3, h4, h5, h6, h7, h8, h9, h10, h11, h12, h13, h14, h15, h16, h17, h18, fun _ => hu,
    fun h => absurd (h.symm.trans hb) (by simp), fun h => absurd hu.1 h, fun h => absurd hu.2.1 h,
    fun h => absurd hu.2.2 h⟩

theorem sound_hard {s : State} (h : s.Sound) : (hardReset s).Sound :=
  sound_of_idle ⟨rfl, rfl, rfl⟩ rfl h.capPos h.capMax .nil nil_in .nil nil_in .nil nil_in .nil nil_in .nil
    nil_in (fun h => nomatch h) (fun h => nomatch h) (fun h => nomatch h) ⟨fun _ => rfl, fun _ => rfl⟩
    (fun _ => rfl) (fun h => nomatch h)

theorem sound_clr {s : State} (h : s.Sound) (hb : s.status.busy = false) : (clrBody (accept s)).Sound :=
  sound_of_idle (h.idleUnits hb) rfl h.capPos h.capMax h.ibufWf h.ibufIn .nil nil_in .nil nil_in .nil nil_in
    .nil nil_in (fun h => nomatch h) (fun h => nomatch h) (fun h => nomatch h)
    ⟨fun _ => rfl, fun _ => rfl⟩ (fun _ => rfl) (fun h => nomatch h)

theorem sound_succeed {s : State} (h : s.Sound) (hb : s.status.busy = false) (v : Word) :
    (succeed { accept s with lkpRes := v }).Sound :=
  sound_of_idle (h.idleUnits hb) rfl h.capPos h.capMax h.ibufWf h.ibufIn h.obufWf h.obufIn h.cntWf h.cntIn
    h.symWf h.symIn h.cmapWf h.cmapIn h.mapHasTable h.mapIsBuilt h.tdefIsLength
    ⟨fun _ => rfl, fun _ => rfl⟩ h.noOutNoLength h.outNoRemainder

theorem sound_raiseFail {s : State} (h : s.Sound) (hb : s.status.busy = false) (v : Word) {c : ErrCode}
    (hc : c ≠ .none) : (raiseFail c { accept s with lkpRes := v }).Sound :=
  sound_of_idle (h.idleUnits hb) rfl h.capPos h.capMax h.ibufWf h.ibufIn h.obufWf h.obufIn h.cntWf h.cntIn
    h.symWf h.symIn h.cmapWf h.cmapIn h.mapHasTable h.mapIsBuilt h.tdefIsLength
    ⟨fun h => (nomatch h), fun h => absurd h hc⟩ h.noOutNoLength h.outNoRemainder

theorem sound_lkp {s : State} (h : s.Sound) (hb : s.status.busy = false) (l p : Nat) :
    (lkpBody l p (accept s)).Sound := by
  obtain ⟨v, ⟨_, e⟩ | ⟨_, e⟩⟩ := lkpBody_cases l p (accept s)
  · rw [e]
    exact sound_raiseFail h hb v (by simp)
  · rw [e]
    exact sound_succeed h hb v

theorem sound_ill {s : State} (h : s.Sound) (hb : s.status.busy = false) : (illegalBody s).Sound :=
  sound_raiseFail h hb s.lkpRes (by simp)

/-! ### LDT -/

theorem sound_ldtFail {s : State} (h : s.Sound) (ht : s.status.tblValid = false)
    (hm : s.status.mapValid = false) (htb : s.tbState = .idle) (hed : s.edState = .idle) {c : ErrCode}
    (hc : c ≠ .none) : (ldtFail c s).Sound :=
  sound_of_idle ⟨rfl, htb, hed⟩ rfl h.capPos h.capMax h.ibufWf h.ibufIn h.obufWf h.obufIn .nil nil_in .nil
    nil_in h.cmapWf h.cmapIn (fun h => nomatch hm.symm.trans h) (fun h => nomatch hm.symm.trans h)
    (fun h => nomatch ht.symm.trans h) ⟨fun h => (nomatch h), fun h => absurd h hc⟩ h.noOutNoLength
    h.outNoRemainder

theorem sound_ldtFail_accept {s : State} (h : s.Sound) (hb : s.status.busy = false) {c : ErrCode}
    (hc : c ≠ .none) : (ldtFail c (ldtAccept s)).Sound :=
  sound_of_idle ⟨rfl, (h.idleUnits hb).2⟩ rfl h.capPos h.capMax h.ibufWf h.ibufIn h.obufWf h.obufIn .nil
    nil_in .nil nil_in .nil nil_in (fun h => nomatch h) (fun h => nomatch h) (fun h => nomatch h)
    ⟨fun h => (nomatch h), fun h => absurd h hc⟩ h.noOutNoLength h.outNoRemainder

theorem sound_ldtAccept {s : State} (h : s.Sound) (hb : s.status.busy = false)
    (hn : s.inCount ≤ s.ibufSize) :
    ({ ldtAccept s with tl := { (ldtAccept s).tl with p := 0#13 }, tlState := .id }).Sound := by
  have hu := h.idleUnits hb
  exact ⟨h.capPos, h.capMax, h.ibufWf, h.ibufIn, h.obufWf, h.obufIn, .nil, nil_in, .nil, nil_in, .nil,
    nil_in, (fun h => nomatch h), (fun h => nomatch h), (fun h => nomatch h), h.errHasCode,
    h.noOutNoLength, h.outNoRemainder, (fun h => nomatch h), fun _ => .inl ⟨by simp, hu.2⟩,
    fun _ => ⟨rfl, rfl, hn, rfl⟩, fun h => absurd hu.2.1 h, fun h => absurd hu.2.2 h⟩

theorem sound_ldtDone {s : State} (h : s.Sound) (hu : s.tbState = .idle ∧ s.edState = .idle)
    (ht : HuffTable) (fin : Word) (w1 : ht.cnt.wf) (w2 : ∀ c ∈ ht.cnt.cells, 1 ≤ c.1 ∧ c.1 ≤ 16)
    (w3 : ht.sym.wf) (w4 : ∀ c ∈ ht.sym.cells, ∃ L i, 1 ≤ L ∧ L ≤ 16 ∧ i < 255 ∧ c.1 = symKey L i)
    (w5 : fin.toNat = 17 + sumCounts ht.count 16) : (ldtDone fin { ldtAccept s with ht := ht }).Sound :=
  sound_of_idle ⟨rfl, hu⟩ rfl h.capPos h.capMax h.ibufWf h.ibufIn h.obufWf h.obufIn w1 w2 w3 w4 .nil nil_in
    (fun h => nomatch h) (fun h => nomatch h) (fun _ => w5) ⟨fun _ => rfl, fun _ => rfl⟩ h.noOutNoLength
    h.outNoRemainder

/-- The counts of a loaded table are the definition's count bytes. -/
theorem sumCounts_load (h : HuffTable) (buf : Nat → Byte) (cls id : BitVec 1) (sym : List (List Byte))
    (fin : Nat) :
    sumCounts (h.load (TableDef.mk cls id (bytesAt buf 1 16) sym fin)).count 16 =
      sumCounts (fun L => (buf L).toNat) 16 := by
  apply sumCounts_congr
  intro L a b
  rw [count_load (bytesAt_length _ _ _) a b]
  simp only [bytesAt_getElem]
  rw [show 1 + (L - 1) = L by omega]

theorem sound_ldt_ok {s : State} {t : TableDef} (h : s.Sound) (hb : s.status.busy = false)
    (hp : parse s.ibufAt s.inCount = .ok t) :
    (ldtDone (BitVec.ofNat 32 t.fin) { ldtAccept s with ht := (ldtAccept s).ht.load t }).Sound := by
  obtain ⟨_, hlen, rfl⟩ := of_parse_ok hp
  apply sound_ldtDone h (h.idleUnits hb).2
  · exact Memory.writeList_wf 1 _ (Memory.unspecified_wf _)
  · refine Memory.writeList_forall (p := fun i => 1 ≤ i ∧ i ≤ 16) (i := 1) nil_in ?_
    intro j a b
    rw [bytesAt_length] at b
    omega
  · exact writeBuckets_wf 1 _ (Memory.unspecified_wf _)
  · refine writeBuckets_forall (p := fun i => ∃ L k, 1 ≤ L ∧ L ≤ 16 ∧ k < 255 ∧ i = symKey L k) (K := 1)
      nil_in ?_ (bucketsAt_small _ _ _)
    intro L i a b c
    rw [bucketsAt_length, bytesAt_length] at b
    exact ⟨L, i, a, by omega, c, rfl⟩
  · have h1 := sumCounts_le s.ibufAt 16
    rw [sumCounts_load]
    generalize sumCounts (fun L => (s.ibufAt L).toNat) 16 = x at h1
    show (BitVec.ofNat 32 (17 + x)).toNat = 17 + x
    rw [BitVec.toNat_ofNat, Nat.mod_eq_of_lt (by omega)]

/-! ### BLD -/

theorem sound_bldFail {s : State} (h : s.Sound) (htl : s.tlState = .idle) (hed : s.edState = .idle)
    (hm : s.status.mapValid = false) {c : ErrCode} (hc : c ≠ .none) : (bldFail c s).Sound :=
  sound_of_idle ⟨htl, rfl, hed⟩ rfl h.capPos h.capMax h.ibufWf h.ibufIn h.obufWf h.obufIn h.cntWf h.cntIn
    h.symWf h.symIn .nil nil_in (fun h => nomatch hm.symm.trans h) (fun h => nomatch hm.symm.trans h)
    h.tdefIsLength ⟨fun h => (nomatch h), fun h => absurd h hc⟩ h.noOutNoLength h.outNoRemainder

theorem sound_bldFail_accept {s : State} (h : s.Sound) (hb : s.status.busy = false) {c : ErrCode}
    (hc : c ≠ .none) : (bldFail c (bldAccept s)).Sound :=
  sound_of_idle ⟨(h.idleUnits hb).1, rfl, (h.idleUnits hb).2.2⟩ rfl h.capPos h.capMax h.ibufWf h.ibufIn
    h.obufWf h.obufIn h.cntWf h.cntIn h.symWf h.symIn .nil nil_in (fun h => nomatch h)
    (fun h => nomatch h) h.tdefIsLength ⟨fun h => (nomatch h), fun h => absurd h hc⟩ h.noOutNoLength
    h.outNoRemainder

theorem sound_bldDone {s : State} (h : s.Sound) (htl : s.tlState = .idle) (hed : s.edState = .idle)
    (ht : s.status.tblValid = true) (hbg : s.cmap.bg = none)
    (hbu : build s.ht.bucket = some s.cmap.cells) : (bldDone s).Sound :=
  sound_of_idle ⟨htl, rfl, hed⟩ rfl h.capPos h.capMax h.ibufWf h.ibufIn h.obufWf h.obufIn h.cntWf h.cntIn
    h.symWf h.symIn h.cmapWf h.cmapIn (fun _ => ht) (fun _ => ⟨hbg, hbu⟩) h.tdefIsLength
    ⟨fun _ => rfl, fun _ => rfl⟩ h.noOutNoLength h.outNoRemainder

theorem sound_bld_ok {s : State} {m : List Host.Cell} (h : s.Sound) (hb : s.status.busy = false)
    (ht : s.status.tblValid = true) (hp : build s.ht.bucket = some m) :
    (bldDone { bldAccept s with cmap := ⟨none, m⟩ }).Sound :=
  sound_of_idle ⟨(h.idleUnits hb).1, rfl, (h.idleUnits hb).2.2⟩ rfl h.capPos h.capMax h.ibufWf h.ibufIn
    h.obufWf h.obufIn h.cntWf h.cntIn h.symWf h.symIn (build_wf hp) (build_legal hp) (fun _ => ht)
    (fun _ => ⟨rfl, hp⟩) h.tdefIsLength ⟨fun _ => rfl, fun _ => rfl⟩ h.noOutNoLength h.outNoRemainder

/-- A running builder: what changes of the state is CMAP and the working registers. -/
theorem sound_tb {s : State} (h : s.Sound) (hbusy : s.status.busy = true) (hm : s.status.mapValid = false)
    (hu : s.tlState = .idle ∧ s.edState = .idle) (m : CodeMap) (w : cellsWf m.cells)
    (w2 : ∀ c ∈ m.cells, ∃ L v, legalCode L v ∧ c.1 = codeKey L v) (tb : TbRegs) (ts : TbState)
    (hts : ts ≠ .idle) (hr : TbRunning { s with cmap := m, tb := tb, tbState := ts }) :
    ({ s with cmap := m, tb := tb, tbState := ts }).Sound :=
  ⟨h.capPos, h.capMax, h.ibufWf, h.ibufIn, h.obufWf, h.obufIn, h.cntWf, h.cntIn, h.symWf, h.symIn, w, w2,
    h.mapHasTable, (fun h => nomatch hm.symm.trans h), h.tdefIsLength, h.errHasCode, h.noOutNoLength,
    h.outNoRemainder, (fun h => nomatch hbusy.symm.trans h), fun _ => .inr (.inl ⟨hu.1, hts, hu.2⟩),
    fun h => absurd hu.1 h, fun _ => hr, fun h => absurd hu.2 h⟩

/-! ### DEC -/

theorem sound_decFail_accept {s : State} (h : s.Sound) (hb : s.status.busy = false) {c : ErrCode}
    (hc : c ≠ .none) : (decFail c (decAccept s)).Sound :=
  sound_of_idle ⟨(h.idleUnits hb).1, (h.idleUnits hb).2.1, rfl⟩ rfl h.capPos h.capMax h.ibufWf h.ibufIn .nil
    nil_in h.cntWf h.cntIn h.symWf h.symIn h.cmapWf h.cmapIn h.mapHasTable h.mapIsBuilt h.tdefIsLength
    ⟨fun h => (nomatch h), fun h => absurd h hc⟩ (fun _ => rfl) (fun h => nomatch h)

theorem sound_decNoCode_accept {s : State} (h : s.Sound) (hb : s.status.busy = false) (cur rem : Word) :
    (decNoCode cur rem (decAccept s)).Sound :=
  sound_of_idle ⟨(h.idleUnits hb).1, (h.idleUnits hb).2.1, rfl⟩ rfl h.capPos h.capMax h.ibufWf h.ibufIn .nil
    nil_in h.cntWf h.cntIn h.symWf h.symIn h.cmapWf h.cmapIn h.mapHasTable h.mapIsBuilt h.tdefIsLength
    ⟨fun h => (nomatch h), fun h => (nomatch h)⟩ (fun _ => rfl) (fun h => nomatch h)

theorem sound_decNoCode {s : State} (h : s.Sound) (hu : s.tlState = .idle ∧ s.tbState = .idle)
    (ho : s.status.outValid = false) (cur rem : Word) : (decNoCode cur rem s).Sound :=
  sound_of_idle ⟨hu.1, hu.2, rfl⟩ rfl h.capPos h.capMax h.ibufWf h.ibufIn .nil nil_in h.cntWf h.cntIn h.symWf
    h.symIn h.cmapWf h.cmapIn h.mapHasTable h.mapIsBuilt h.tdefIsLength
    ⟨fun h => (nomatch h), fun h => (nomatch h)⟩ h.noOutNoLength (fun h => nomatch ho.symm.trans h)

theorem sound_decDone {s : State} (h : s.Sound) (hu : s.tlState = .idle ∧ s.tbState = .idle)
    (len cur : Word) : (decDone len cur s).Sound :=
  sound_of_idle ⟨hu.1, hu.2, rfl⟩ rfl h.capPos h.capMax h.ibufWf h.ibufIn h.obufWf h.obufIn h.cntWf h.cntIn
    h.symWf h.symIn h.cmapWf h.cmapIn h.mapHasTable h.mapIsBuilt h.tdefIsLength
    ⟨fun _ => rfl, fun _ => rfl⟩ (fun h => nomatch h) (fun _ => rfl)

theorem sound_dec_ok {s : State} {out : List Byte} {c : Nat} (h : s.Sound) (hb : s.status.busy = false)
    (hn : s.inCount ≤ s.ibufSize) (hp : decode s.cmap.lookup s.ibufAt s.inCount = .ok (out, c))
    (len cur : Word) :
    (decDone len cur { decAccept s with obuf := (decAccept s).obuf.writeList 0 out }).Sound := by
  have hl := (decode_ok_bounds hp).2
  refine sound_of_idle ⟨(h.idleUnits hb).1, (h.idleUnits hb).2.1, rfl⟩ rfl h.capPos h.capMax h.ibufWf h.ibufIn
    (Memory.writeList_wf 0 _ (Memory.unspecified_wf _)) ?_ h.cntWf h.cntIn h.symWf h.symIn h.cmapWf h.cmapIn
    h.mapHasTable h.mapIsBuilt h.tdefIsLength ⟨fun _ => rfl, fun _ => rfl⟩ (fun h => nomatch h)
    (fun _ => rfl)
  refine Memory.writeList_forall (p := fun i => i < 8 * s.ibufSize) (i := 0) nil_in ?_
  intro j a b
  omega

/-- A running decoder: what changes of the state is OBUF and the working registers. -/
theorem sound_ed {s : State} (h : s.Sound) (hbusy : s.status.busy = true)
    (hu : s.tlState = .idle ∧ s.tbState = .idle) (m : Memory) (w : m.wf)
    (w2 : ∀ c ∈ m.cells, c.1 < 8 * s.ibufSize) (ed : EdRegs) (es : EdState) (hes : es ≠ .idle)
    (hr : EdRunning { s with obuf := m, ed := ed, edState := es }) :
    ({ s with obuf := m, ed := ed, edState := es }).Sound :=
  ⟨h.capPos, h.capMax, h.ibufWf, h.ibufIn, w, w2, h.cntWf, h.cntIn, h.symWf, h.symIn, h.cmapWf, h.cmapIn,
    h.mapHasTable, h.mapIsBuilt, h.tdefIsLength, h.errHasCode, h.noOutNoLength, h.outNoRemainder,
    (fun h => nomatch hbusy.symm.trans h), fun _ => .inr (.inr ⟨hu.1, hu.2, hes⟩), fun h => absurd hu.1 h,
    fun h => absurd hu.2 h, fun _ => hr⟩

/-- A running loader: what changes of the state is HT and the working registers. -/
theorem sound_tl {s : State} (h : s.Sound) (hbusy : s.status.busy = true) (ht : s.status.tblValid = false)
    (hm : s.status.mapValid = false) (hu : s.tbState = .idle ∧ s.edState = .idle) (tab : HuffTable)
    (w1 : tab.cnt.wf) (w2 : ∀ c ∈ tab.cnt.cells, 1 ≤ c.1 ∧ c.1 ≤ 16) (w3 : tab.sym.wf)
    (w4 : ∀ c ∈ tab.sym.cells, ∃ L i, 1 ≤ L ∧ L ≤ 16 ∧ i < 255 ∧ c.1 = symKey L i) (tl : TlRegs)
    (ts : TlState) (hts : ts ≠ .idle) (hr : TlRunning { s with ht := tab, tl := tl, tlState := ts }) :
    ({ s with ht := tab, tl := tl, tlState := ts }).Sound :=
  ⟨h.capPos, h.capMax, h.ibufWf, h.ibufIn, h.obufWf, h.obufIn, w1, w2, w3, w4, h.cmapWf, h.cmapIn,
    h.mapHasTable, (fun h => nomatch hm.symm.trans h), (fun h => nomatch ht.symm.trans h), h.errHasCode,
    h.noOutNoLength, h.outNoRemainder, (fun h => nomatch hbusy.symm.trans h), fun _ => .inl ⟨hts, hu⟩,
    fun _ => hr, fun h => absurd hu.1 h, fun h => absurd hu.2 h⟩

/-- Busy while a unit is not idle, and the other two units idle (R41). -/
theorem running {s : State} (h : s.Sound) :
    (s.tlState ≠ .idle → s.status.busy = true ∧ s.tbState = .idle ∧ s.edState = .idle) ∧
    (s.tbState ≠ .idle → s.status.busy = true ∧ s.tlState = .idle ∧ s.edState = .idle) ∧
    (s.edState ≠ .idle → s.status.busy = true ∧ s.tlState = .idle ∧ s.tbState = .idle) := by
  cases hb : s.status.busy with
  | false =>
    have := h.idleUnits hb
    exact ⟨fun h => absurd this.1 h, fun h => absurd this.2.1 h, fun h => absurd this.2.2 h⟩
  | true =>
    rcases h.oneUnit hb with x | x | x
    · exact ⟨fun _ => ⟨rfl, x.2⟩, fun h => absurd x.2.1 h, fun h => absurd x.2.2 h⟩
    · exact ⟨fun h => absurd x.1 h, fun _ => ⟨rfl, x.1, x.2.2⟩, fun h => absurd x.2.2 h⟩
    · exact ⟨fun h => absurd x.1 h, fun h => absurd x.2.1 h, fun _ => ⟨rfl, x.1, x.2.1⟩⟩

/-! ### Steps of TL -/

theorem tl_step {s : State} (h : s.Sound) (ht : s.tlState ≠ .idle) : (tlStep s).Sound := by
  obtain ⟨r1, r2, r3, r4⟩ := h.tlRun ht
  obtain ⟨hbusy, hu⟩ := (running h).1 ht
  have hfail : (ldtFail .trunc s).Sound := sound_ldtFail h r1 r2 hu.1 hu.2 (by simp)
  unfold tlStep
  cases hst : s.tlState with
  | idle => exact absurd hst ht
  | id =>
    dsimp only
    rw [hst] at r4
    unfold tlIdStep
    by_cases c1 : s.inCount ≤ s.tl.p.toNat
    · rw [if_pos c1]
      exact hfail
    rw [if_neg c1]
    by_cases c2 : legalIdentity (s.ibufAt s.tl.p.toNat) = true
    · rw [if_pos c2]
      refine sound_tl h hbusy r1 r2 hu
        { s.ht with cls := classOf (s.ibufAt s.tl.p.toNat), id := idOf (s.ibufAt s.tl.p.toNat) }
        h.cntWf h.cntIn h.symWf h.symIn _ _ (by simp) ⟨r1, r2, r3, by simp, by simp, by simp, ?_, ?_⟩
      · show 1 ≤ s.inCount
        omega
      · simp [sumCounts]
    · rw [if_neg c2]
      exact sound_ldtFail h r1 r2 hu.1 hu.2 (by simp)
  | counts =>
    dsimp only
    rw [hst] at r4
    obtain ⟨q1, q2, q3, q4, q5⟩ := r4
    unfold tlCountsStep
    by_cases c1 : s.tl.k.toNat ≤ 16
    · rw [if_pos c1]
      by_cases c2 : s.inCount ≤ s.tl.p.toNat
      · rw [if_pos c2]
        exact hfail
      rw [if_neg c2]
      have e1 : (s.tl.k + 1#5).toNat = s.tl.k.toNat + 1 := by
        rw [BitVec.toNat_add]
        simp
        omega
      have e2 : (s.tl.p + 1#13).toNat = s.tl.p.toNat + 1 := by
        rw [BitVec.toNat_add]
        simp
        omega
      have hs := sumCounts_count_le s.ht (s.tl.k.toNat - 1)
      have hb := (s.ibufAt s.tl.p.toNat).isLt
      have e3 : (s.tl.tot + (s.ibufAt s.tl.p.toNat).setWidth 13).toNat
          = s.tl.tot.toNat + (s.ibufAt s.tl.p.toNat).toNat := by
        rw [BitVec.toNat_add]
        simp
        omega
      have := sound_tl h hbusy r1 r2 hu
        { s.ht with cnt := s.ht.cnt.write s.tl.k.toNat (s.ibufAt s.tl.p.toNat) }
        (Memory.write_wf _ _ h.cntWf)
        (Memory.write_forall (p := fun i => 1 ≤ i ∧ i ≤ 16) h.cntIn ⟨q1, c1⟩) h.symWf h.symIn
        { s.tl with
          tot := s.tl.tot + (s.ibufAt s.tl.p.toNat).setWidth 13
          p := s.tl.p + 1#13
          k := s.tl.k + 1#5 } .counts (by simp) ⟨r1, r2, r3, ?_⟩
      · rw [← hst] at this
        exact this
      · refine ⟨by rw [e1]; omega, by rw [e1]; omega, by rw [e1, e2]; omega, ?_, ?_⟩
        · rw [e2]
          show _ ≤ s.inCount
          omega
        · rw [e1, e3]
          obtain ⟨m, hm⟩ : ∃ m, s.tl.k.toNat = m + 1 := ⟨s.tl.k.toNat - 1, by omega⟩
          rw [hm] at q5 ⊢
          show _ = sumCounts _ (m + 1)
          rw [sumCounts_succ, q5]
          congr 1
          · apply sumCounts_congr
            intro L a b
            show (Memory.read _ _ _).toNat = ((Memory.write _ _ _).read _ _).toNat
            rw [Memory.read_write_other _ _ _ (by omega)]
          · show _ = ((Memory.write _ _ _).read _ _).toNat
            rw [Memory.read_write_same]
    · rw [if_neg c1]
      have e : s.tl.k.toNat = 17 := by omega
      rw [e] at q5 q3
      refine sound_tl h hbusy r1 r2 hu s.ht h.cntWf h.cntIn h.symWf h.symIn _ _ (by simp)
        ⟨r1, r2, r3, by simp, by simp, fun _ => Nat.zero_le _, fun _ => rfl, ?_, q4, q5⟩
      show s.tl.p.toNat = 17 + sumCounts s.ht.count 0 + 0
      rw [q3]
      simp [sumCounts]
  | syms =>
    dsimp only
    rw [hst] at r4
    obtain ⟨q1, q2, q3, q4, q5, q6, q7⟩ := r4
    unfold tlSymsStep
    have hcl : s.ht.count s.tl.k.toNat < 256 := BitVec.isLt _
    by_cases c1 : s.tl.k.toNat ≤ 16
    · rw [if_pos c1]
      by_cases c2 : s.tl.j.toNat < s.ht.count s.tl.k.toNat
      · rw [if_pos c2]
        by_cases c3 : s.inCount ≤ s.tl.p.toNat
        · rw [if_pos c3]
          exact hfail
        rw [if_neg c3]
        have hs := sumCounts_count_le s.ht (s.tl.k.toNat - 1)
        have e2 : (s.tl.p + 1#13).toNat = s.tl.p.toNat + 1 := by
          rw [BitVec.toNat_add]
          simp
          omega
        have e1 : (s.tl.j + 1#8).toNat = s.tl.j.toNat + 1 := by
          rw [BitVec.toNat_add]
          simp
          omega
        have := sound_tl h hbusy r1 r2 hu
          { s.ht with
            sym := s.ht.sym.write (symKey s.tl.k.toNat s.tl.j.toNat) (s.ibufAt s.tl.p.toNat) }
          h.cntWf h.cntIn (Memory.write_wf _ _ h.symWf)
          (Memory.write_forall (p := fun i => ∃ L k, 1 ≤ L ∧ L ≤ 16 ∧ k < 255 ∧ i = symKey L k) h.symIn
            ⟨_, _, q1, c1, by omega, rfl⟩)
          { s.tl with p := s.tl.p + 1#13, j := s.tl.j + 1#8 } .syms (by simp)
          ⟨r1, r2, r3, q1, q2, ?_, ?_, ?_, ?_, q7⟩
        · rw [← hst] at this
          exact this
        · intro _
          show (s.tl.j + 1#8).toNat ≤ s.ht.count s.tl.k.toNat
          omega
        · intro (h : s.tl.k.toNat = 17)
          omega
        · show (s.tl.p + 1#13).toNat
            = 17 + sumCounts s.ht.count (s.tl.k.toNat - 1) + (s.tl.j + 1#8).toNat
          omega
        · show (s.tl.p + 1#13).toNat ≤ s.inCount
          omega
      · rw [if_neg c2]
        have e1 : (s.tl.k + 1#5).toNat = s.tl.k.toNat + 1 := by
          rw [BitVec.toNat_add]
          simp
          omega
        have hj : s.tl.j.toNat = s.ht.count s.tl.k.toNat := by
          have := q3 c1
          omega
        have := sound_tl h hbusy r1 r2 hu s.ht h.cntWf h.cntIn h.symWf h.symIn
          { s.tl with k := s.tl.k + 1#5, j := 0#8 } .syms (by simp)
          ⟨r1, r2, r3, by rw [e1]; omega, by rw [e1]; omega, fun _ => Nat.zero_le _, fun _ => rfl, ?_, q6,
            q7⟩
        · rw [← hst] at this
          exact this
        · rw [e1]
          obtain ⟨m, hm⟩ : ∃ m, s.tl.k.toNat = m + 1 := ⟨s.tl.k.toNat - 1, by omega⟩
          rw [hm] at q5 hj ⊢
          show s.tl.p.toNat = 17 + sumCounts s.ht.count (m + 1) + 0
          rw [sumCounts_succ]
          simp at q5
          omega
    · rw [if_neg c1]
      have hk : s.tl.k.toNat = 17 := by omega
      have hj := q4 hk
      refine sound_of_idle ⟨rfl, hu⟩ rfl h.capPos h.capMax h.ibufWf h.ibufIn h.obufWf h.obufIn h.cntWf h.cntIn
        h.symWf h.symIn h.cmapWf h.cmapIn (fun h => nomatch r2.symm.trans h)
        (fun h => nomatch r2.symm.trans h) (fun _ => ?_) ⟨fun _ => rfl, fun _ => rfl⟩ h.noOutNoLength
        h.outNoRemainder
      show (s.tl.p.setWidth 32).toNat = 17 + sumCounts s.ht.count 16
      rw [hk, hj] at q5
      have := s.tl.p.isLt
      simp at q5 ⊢
      omega

/-! ### Steps of TB -/

theorem tb_step {s : State} (h : s.Sound) (ht : s.tbState ≠ .idle) : (tbStep s).Sound := by
  obtain ⟨r1, r2, r3, r4, r5, r6, r7⟩ := h.tbRun ht
  obtain ⟨hbusy, hu⟩ := (running h).2.1 ht
  have hcl : s.ht.count s.tb.l.toNat < 256 := BitVec.isLt _
  have hp : 2 ^ s.tb.l.toNat ≤ 2 ^ 16 := Nat.pow_le_pow_right (by norm_num) r5
  unfold tbStep
  cases hst : s.tbState with
  | idle => exact absurd hst ht
  | assign =>
    dsimp only
    rw [hst] at r7
    obtain ⟨q1, q2⟩ := r7
    unfold tbAssignStep
    by_cases c1 : s.tb.idx.toNat < s.ht.count s.tb.l.toNat
    · rw [if_pos c1]
      by_cases c2 : 2 ^ s.tb.l.toNat ≤ s.tb.code.toNat
      · rw [if_pos c2]
        exact sound_bldFail h hu.1 hu.2 r2 (by simp)
      rw [if_neg c2]
      have e1 : (s.tb.code + 1#32).toNat = s.tb.code.toNat + 1 := by
        rw [BitVec.toNat_add]
        simp
        omega
      have e2 : (s.tb.idx + 1#8).toNat = s.tb.idx.toNat + 1 := by
        rw [BitVec.toNat_add]
        simp
        omega
      have := sound_tb h hbusy r2 hu
        (s.cmap.insert s.tb.l.toNat s.tb.code.toNat (s.ht.symbol s.tb.l.toNat s.tb.idx.toNat))
        (cellsSet_wf _ _ h.cmapWf)
        (cellsSet_forall (p := fun i => ∃ L v, legalCode L v ∧ i = codeKey L v) h.cmapIn
          ⟨_, _, ⟨r4, r5, by omega⟩, rfl⟩)
        { s.tb with code := s.tb.code + 1#32, idx := s.tb.idx + 1#8 } .assign (by simp)
        ⟨r1, r2, r3, r4, r5, ?_, ?_, ?_⟩
      · rw [← hst] at this
        exact this
      · show (s.tb.code + 1#32).toNat ≤ 2 ^ s.tb.l.toNat
        omega
      · show (s.tb.idx + 1#8).toNat ≤ s.ht.count s.tb.l.toNat
        omega
      · rw [← q2, e1, e2]
        dsimp only
        rw [drop_bucket c1, assignBucket, if_neg c2]
        rfl
    · rw [if_neg c1]
      refine sound_tb h hbusy r2 hu s.cmap h.cmapWf h.cmapIn s.tb .shift (by simp)
        ⟨r1, r2, r3, r4, r5, r6, ?_⟩
      dsimp only
      rw [← q2]
      have hd : (s.ht.bucket s.tb.l.toNat).drop s.tb.idx.toNat = [] := by
        apply List.drop_eq_nil_of_le
        rw [bucket_length]
        omega
      rw [hd]
      rfl
  | shift =>
    dsimp only
    rw [hst] at r7
    unfold tbShiftStep
    have e1 : (s.tb.code <<< 1).toNat = s.tb.code.toNat * 2 := by
      rw [BitVec.toNat_shiftLeft, Nat.shiftLeft_eq, Nat.mod_eq_of_lt (by omega)]
    dsimp only
    by_cases c1 : s.tb.l = 16#5
    · rw [if_pos c1]
      rw [c1] at r7
      have hd := sound_bldDone h hu.1 hu.2 r1 r3 r7.symm
      exact hd
    · rw [if_neg c1]
      have hl : s.tb.l.toNat ≠ 16 := fun e => c1 (BitVec.eq_of_toNat_eq e)
      have e2 : (s.tb.l + 1#5).toNat = s.tb.l.toNat + 1 := by
        rw [BitVec.toNat_add]
        simp
        omega
      refine sound_tb h hbusy r2 hu s.cmap h.cmapWf h.cmapIn
        { l := s.tb.l + 1#5, idx := 0#8, code := s.tb.code <<< 1 } .assign (by simp)
        ⟨r1, r2, r3, ?_, ?_, ?_, Nat.zero_le _, ?_⟩
      · dsimp only
        omega
      · dsimp only
        omega
      · dsimp only
        rw [e1, e2, pow_succ]
        omega
      · dsimp only
        rw [← r7, e1, e2]
        obtain ⟨n, hn⟩ : ∃ n, 16 - s.tb.l.toNat = n + 1 := ⟨16 - s.tb.l.toNat - 1, by omega⟩
        rw [hn, buildFrom, show 16 - (s.tb.l.toNat + 1) = n by omega]
        simp only [BitVec.toNat_ofNat, Nat.zero_mod, List.drop_zero]
        all_goals
          generalize assignBucket _ _ _ _ = r
          cases r <;> rfl

/-! ### Steps of ED -/

theorem ed_step {s : State} (h : s.Sound) (ht : s.edState ≠ .idle) : (edStep s).Sound := by
  obtain ⟨r1, r2, r3, r4, r5, r6, r7⟩ := h.edRun ht
  obtain ⟨hbusy, hu⟩ := (running h).2.2 ht
  have hcap := h.capMax
  have hcapv : Config.ibufSizeMax = 268435456 := rfl
  unfold edStep
  cases hst : s.edState with
  | idle => exact absurd hst ht
  | test =>
    dsimp only
    unfold edTestStep
    by_cases c1 : s.ed.nbits.toNat ≤ s.ed.cursor.toNat
    · rw [if_pos c1]
      exact sound_decDone h hu _ _
    · rw [if_neg c1]
      refine sound_ed h hbusy hu s.obuf h.obufWf h.obufIn { s.ed with len := 1#5 } .tryLen (by simp)
        ⟨r1, r2, r3, r4, r5, r6, fun _ => ⟨?_, by simp, by simp⟩⟩
      dsimp only
      omega
  | tryLen =>
    dsimp only
    obtain ⟨q1, q2, q3⟩ := r7 hst
    unfold edTryStep
    by_cases c1 : 16 < s.ed.len.toNat ∨ s.ed.nbits.toNat < s.ed.cursor.toNat + s.ed.len.toNat
    · rw [if_pos c1]
      exact sound_decNoCode h hu r2 _ _
    rw [if_neg c1]
    cases hl : s.cmap.lookup s.ed.len.toNat
        (window (streamBit s.ibufAt) s.ed.cursor.toNat s.ed.len.toNat) with
    | none =>
      dsimp only
      have e1 : (s.ed.len + 1#5).toNat = s.ed.len.toNat + 1 := by
        rw [BitVec.toNat_add]
        simp
        omega
      have := sound_ed h hbusy hu s.obuf h.obufWf h.obufIn { s.ed with len := s.ed.len + 1#5 } .tryLen
        (by simp) ⟨r1, r2, r3, r4, r5, r6, fun _ => ⟨q1, by dsimp only; omega, by dsimp only; omega⟩⟩
      rw [← hst] at this
      exact this
    | some b =>
      dsimp only
      have e1 : (s.ed.optr + 1#32).toNat = s.ed.optr.toNat + 1 := by
        rw [BitVec.toNat_add]
        simp
        omega
      have e2 : (s.ed.cursor + s.ed.len.setWidth 32).toNat = s.ed.cursor.toNat + s.ed.len.toNat := by
        rw [BitVec.toNat_add]
        simp
        omega
      exact sound_ed h hbusy hu _ (Memory.write_wf _ _ h.obufWf)
        (Memory.write_forall (p := fun i => i < 8 * s.ibufSize) h.obufIn (by omega))
        { s.ed with optr := s.ed.optr + 1#32, cursor := s.ed.cursor + s.ed.len.setWidth 32 } .test (by simp)
        ⟨r1, r2, r3, r4, by dsimp only; omega, by dsimp only; omega, fun h => (nomatch h)⟩

theorem sound_runningStep {s : State} (h : s.Sound) (hb : s.status.busy = true) : (runningStep s).Sound := by
  unfold runningStep
  rcases h.oneUnit hb with ⟨x, y, z⟩ | ⟨x, y, z⟩ | ⟨x, y, z⟩
  · have := tl_step h x
    cases hs : s.tlState with
    | idle => exact absurd hs x
    | id => exact this
    | counts => exact this
    | syms => exact this
  · rw [x]
    have := tb_step h y
    dsimp only
    cases hs : s.tbState with
    | idle => exact absurd hs y
    | assign => exact this
    | shift => exact this
  · rw [x, y]
    exact ed_step h z

/-- TL leaves OUT_VALID, TB TBL_VALID and OUT_VALID, ED TBL_VALID and MAP_VALID as they are (R23). -/
theorem tlStep_outValid (s : State) : (tlStep s).status.outValid = s.status.outValid := by
  unfold tlStep tlIdStep tlCountsStep tlSymsStep
  repeat' split
  all_goals rfl

theorem tbStep_flags (s : State) : (tbStep s).status.tblValid = s.status.tblValid ∧
    (tbStep s).status.outValid = s.status.outValid := by
  unfold tbStep tbAssignStep tbShiftStep
  dsimp only
  repeat' split
  all_goals exact ⟨rfl, rfl⟩

theorem edStep_flags (s : State) : (edStep s).status.tblValid = s.status.tblValid ∧
    (edStep s).status.mapValid = s.status.mapValid := by
  unfold edStep edTestStep edTryStep
  repeat' split
  all_goals exact ⟨rfl, rfl⟩

/-- No step of a running unit lowers a valid flag: those its command lowers went at acceptance. -/
theorem runningStep_flags {s : State} (h : s.Sound) (hb : s.status.busy = true) :
    s.status.FlagsIn (resultOf (runningStep s)) := by
  show (_ → (runningStep s).status.tblValid = true) ∧ (_ → (runningStep s).status.mapValid = true) ∧
    (_ → (runningStep s).status.outValid = true)
  rcases h.oneUnit hb with ⟨x, y, z⟩ | ⟨x, y, z⟩ | ⟨x, y, z⟩
  · have hr := h.tlRun x
    have e : runningStep s = tlStep s := by
      unfold runningStep
      cases hs : s.tlState with
      | idle => exact absurd hs x
      | id => rfl
      | counts => rfl
      | syms => rfl
    rw [e, tlStep_outValid, hr.1, hr.2.1]
    exact ⟨nofun, nofun, fun a => a⟩
  · have hr := h.tbRun y
    have e : runningStep s = tbStep s := by
      unfold runningStep
      rw [x]
      cases hs : s.tbState with
      | idle => exact absurd hs y
      | assign => rfl
      | shift => rfl
    rw [e, (tbStep_flags s).1, (tbStep_flags s).2, hr.2.1]
    exact ⟨fun a => a, nofun, fun a => a⟩
  · have hr := h.edRun z
    have e : runningStep s = edStep s := by
      unfold runningStep
      rw [x, y]
    rw [e, (edStep_flags s).1, (edStep_flags s).2, hr.2.1]
    exact ⟨fun a => a, fun a => a, nofun⟩

/-! ### Acceptance and completion -/

theorem sound_completed {s : State} (h : s.Sound) (hb : s.status.busy = false) (i : Instr) :
    (completed i s).Sound := by
  cases i with
  | clr => exact sound_clr h hb
  | lkp len pat => exact sound_lkp h hb _ _
  | ldt =>
    show (ldtBody (ldtAccept s)).Sound
    rcases ldtBody_cases (ldtAccept s) with ⟨c, hc, e⟩ | ⟨t, _, hp, e⟩
    · rw [e]
      exact sound_ldtFail_accept h hb hc
    · rw [e]
      exact sound_ldt_ok h hb hp
  | bld =>
    show (bldBody (bldAccept s)).Sound
    rcases bldBody_cases (bldAccept s) with ⟨c, hc, e⟩ | ⟨m, ht, hp, e⟩
    · rw [e]
      exact sound_bldFail_accept h hb hc
    · rw [e]
      exact sound_bld_ok h hb ht hp
  | dec =>
    show (decBody (decAccept s)).Sound
    rcases decBody_cases (decAccept s) with ⟨c, hc, e⟩ | ⟨_, _, _, e⟩ | ⟨out, cur, hn, _, hp, e⟩
    · rw [e]
      exact sound_decFail_accept h hb hc
    · rw [e]
      exact sound_decNoCode_accept h hb _ _
    · rw [e]
      exact sound_dec_ok h hb hn hp _ _

theorem sound_startInstr {s : State} (h : s.Sound) (hb : s.status.busy = false) (i : Instr) :
    (startInstr i s).Sound := by
  have hi := h.idleUnits hb
  cases i with
  | clr => exact sound_clr h hb
  | lkp len pat => exact sound_lkp h hb _ _
  | ldt =>
    show (ldtStart s).Sound
    unfold ldtStart
    dsimp only
    split
    · exact sound_ldtFail_accept h hb (by simp)
    · next hn =>
      have hn' : s.inCount ≤ s.ibufSize := by simpa using hn
      exact sound_ldtAccept h hb hn'
  | bld =>
    show (bldStart s).Sound
    unfold bldStart
    dsimp only
    split
    · next ht =>
      exact ⟨h.capPos, h.capMax, h.ibufWf, h.ibufIn, h.obufWf, h.obufIn, h.cntWf, h.cntIn, h.symWf, h.symIn,
        .nil, nil_in, (fun h => nomatch h), (fun h => nomatch h), h.tdefIsLength, h.errHasCode,
        h.noOutNoLength, h.outNoRemainder, (fun h => nomatch h),
        fun _ => .inr (.inl ⟨hi.1, by simp, hi.2.2⟩), fun h => absurd hi.1 h,
        fun _ => ⟨ht, rfl, rfl, by simp, by simp, by simp, Nat.zero_le _, rfl⟩,
        fun h => absurd hi.2.2 h⟩
    · exact sound_bldFail_accept h hb (by simp)
  | dec =>
    show (decStart s).Sound
    unfold decStart
    dsimp only
    split
    · next hm =>
      split
      · exact sound_decFail_accept h hb (by simp)
      · next hn =>
        have hn' : s.inCount ≤ s.ibufSize := by simpa using hn
        have hcap := h.capMax
        have hcapv : Config.ibufSizeMax = 268435456 := rfl
        refine ⟨h.capPos, h.capMax, h.ibufWf, h.ibufIn, .nil, nil_in, h.cntWf, h.cntIn, h.symWf, h.symIn,
          h.cmapWf, h.cmapIn, h.mapHasTable, h.mapIsBuilt, h.tdefIsLength, h.errHasCode, fun _ => rfl,
          (fun h => nomatch h), (fun h => nomatch h), fun _ => .inr (.inr ⟨hi.1, hi.2.1, by simp⟩),
          fun h => absurd hi.1 h, fun h => absurd hi.2.1 h,
          fun _ => ⟨hm, rfl, hn', ?_, Nat.zero_le _, Nat.zero_le _, fun h => (nomatch h)⟩⟩
        show (BitVec.ofNat 32 (8 * s.inCount)).toNat = 8 * s.inCount
        rw [BitVec.toNat_ofNat, Nat.mod_eq_of_lt (by omega)]
    · exact sound_decFail_accept h hb (by simp)

theorem sound_startCommand {s : State} (h : s.Sound) (hb : s.status.busy = false) (w : Word) :
    (startCommand w s).Sound := by
  unfold startCommand
  split
  · exact sound_startInstr h hb _
  · exact sound_ill h hb

/-! ### Completions put off: from `Sound` to `Inv` -/

/-- `Sound` says nothing about what is put off. -/
theorem sound_held {s : State} (h : s.Sound) (x : Option Held) : ({ s with held := x }).Sound := by
  obtain ⟨h1, h2, h3, h4, h5, h6, h7, h8, h9, h10, h11, h12, h13, h14, h15, h16, h17, h18, h19, h20, h21,
    h22, h23⟩ := h
  exact ⟨h1, h2, h3, h4, h5, h6, h7, h8, h9, h10, h11, h12, h13, h14, h15, h16, h17, h18, h19, h20, h21,
    h22, h23⟩

theorem settled_of_none {s : State} (h : s.held = none) : s.settled = s := by
  simp [State.settled, h]

theorem inv_of_sound {s : State} (h : s.Sound) (hh : s.held = none) : s.Inv :=
  ⟨by rw [settled_of_none hh]; exact h, fun hn => absurd hh hn,
    fun r hr => absurd (hh.symm.trans hr) (by simp)⟩

/-- What the invariant says of the live STATUS while a unit's results are held: they are sound once
written, and lower no valid flag. -/
theorem State.Inv.of_result {s : State} {r : Result} (h : s.Inv) (hh : s.held = some (.result r)) :
    (writeResult r s).Sound ∧ s.status.FlagsIn r := by
  have := h.sound
  rw [State.settled, hh] at this
  exact ⟨this, h.heldFlags r hh⟩

/-- CMAP lists legal codes only, also while a completion is put off (R34). -/
theorem State.Inv.cmapIn {s : State} (h : s.Inv) :
    ∀ c ∈ s.cmap.cells, ∃ L v, legalCode L v ∧ c.1 = codeKey L v := by
  have hs := h.sound
  rcases hh : s.held with _ | _ | _ <;> simp only [State.settled, hh] at hs <;> exact hs.cmapIn

/-- The live MAP_VALID says in every state that meets the invariant that CMAP is the built map, also while
a completion is put off (R42). -/
theorem State.Inv.mapIsBuilt {s : State} (h : s.Inv) (hm : s.status.mapValid = true) :
    s.cmap.bg = none ∧ build s.ht.bucket = some s.cmap.cells := by
  have hs := h.sound
  rcases hh : s.held with _ | _ | r
  · rw [settled_of_none hh] at hs
    exact hs.mapIsBuilt hm
  · rw [State.settled, hh] at hs
    exact hs.mapIsBuilt hm
  · have hr := h.of_result hh
    exact hr.1.mapIsBuilt (hr.2.2.1 hm)

theorem State.Inv.sound_of_none {s : State} (h : s.Inv) (hh : s.held = none) : s.Sound := by
  have := h.sound
  rwa [settled_of_none hh] at this

theorem State.Inv.held_of_idle {s : State} (h : s.Inv) (hb : s.status.busy = false) : s.held = none := by
  by_contra hn
  exact absurd ((h.heldBusy hn).1.symm.trans hb) (by simp)

theorem State.Inv.sound_of_idle {s : State} (h : s.Inv) (hb : s.status.busy = false) : s.Sound :=
  h.sound_of_none (h.held_of_idle hb)

/-- What the host's reads and discarded writes change keeps the invariant. -/
theorem inv_port {s : State} (h : s.Inv) (p : List HostEvent) (r : List Reply) (f : Nat) (o : Bool) :
    ({ s with port := p, replies := r, freeCtr := f, status := { s.status with ovr := o } }).Inv := by
  refine ⟨?_, h.heldBusy, h.heldFlags⟩
  have hs := h.sound
  cases hh : s.held with
  | none =>
    simp only [State.settled, hh] at hs ⊢
    exact sound_held (sound_port hs p r f o) none
  | some x =>
    cases x with
    | accepted w =>
      simp only [State.settled, hh] at hs ⊢
      exact sound_port hs p r f o
    | result x =>
      simp only [State.settled, hh] at hs ⊢
      exact sound_held (sound_port hs p r f o) none

theorem inv_rest {s : State} (h : s.Inv) (p : List HostEvent) : ({ s with port := p }).Inv :=
  inv_port h p s.replies s.freeCtr s.status.ovr

/-- What the host's writes to an idle block change keeps the invariant. -/
theorem inv_write {s : State} (h : s.Inv) (hb : s.status.busy = false) (w : Word) {m : Memory}
    (hm : m.wf) (hin : ∀ c ∈ m.cells, c.1 < s.ibufSize) : ({ s with inLen := w, ibuf := m }).Inv := by
  have hh := h.held_of_idle hb
  have hs := h.sound_of_idle hb
  exact inv_of_sound (sound_of_idle (hs.idleUnits hb) hb hs.capPos hs.capMax hm hin hs.obufWf hs.obufIn
    hs.cntWf hs.cntIn hs.symWf hs.symIn hs.cmapWf hs.cmapIn hs.mapHasTable hs.mapIsBuilt hs.tdefIsLength
    hs.errHasCode hs.noOutNoLength hs.outNoRemainder) hh

theorem startInstr_held (i : Instr) (s : State) : (startInstr i s).held = s.held := by
  cases i with
  | clr => rfl
  | lkp len pat =>
    show (lkpBody (lkpLen len) (lkpPat pat) (accept s)).held = s.held
    obtain ⟨v, ⟨_, e⟩ | ⟨_, e⟩⟩ := lkpBody_cases (lkpLen len) (lkpPat pat) (accept s) <;> rw [e] <;> rfl
  | ldt =>
    show (ldtStart s).held = s.held
    unfold ldtStart
    dsimp only
    split <;> rfl
  | bld =>
    show (bldStart s).held = s.held
    unfold bldStart
    dsimp only
    split <;> rfl
  | dec =>
    show (decStart s).held = s.held
    unfold decStart
    dsimp only
    repeat' split
    all_goals rfl

theorem startCommand_held (w : Word) (s : State) : (startCommand w s).held = s.held := by
  unfold startCommand
  split
  · exact startInstr_held _ s
  · rfl

theorem completed_held (i : Instr) (s : State) : (completed i s).held = s.held := by
  cases i with
  | clr => rfl
  | lkp len pat =>
    show (lkpBody (lkpLen len) (lkpPat pat) (accept s)).held = s.held
    obtain ⟨v, ⟨_, e⟩ | ⟨_, e⟩⟩ := lkpBody_cases (lkpLen len) (lkpPat pat) (accept s) <;> rw [e] <;> rfl
  | ldt =>
    show (ldtBody (ldtAccept s)).held = s.held
    rcases ldtBody_cases (ldtAccept s) with ⟨c, _, e⟩ | ⟨t, _, _, e⟩ <;> rw [e] <;> rfl
  | bld =>
    show (bldBody (bldAccept s)).held = s.held
    rcases bldBody_cases (bldAccept s) with ⟨c, _, e⟩ | ⟨m, _, _, e⟩ <;> rw [e] <;> rfl
  | dec =>
    show (decBody (decAccept s)).held = s.held
    rcases decBody_cases (decAccept s) with ⟨c, _, e⟩ | ⟨_, _, _, e⟩ | ⟨out, cur, _, _, _, e⟩ <;>
      rw [e] <;> rfl

theorem inv_completed {s : State} (h : s.Inv) (hb : s.status.busy = false) (i : Instr) :
    (completed i s).Inv :=
  inv_of_sound (sound_completed (h.sound_of_idle hb) hb i)
    ((completed_held i s).trans (h.held_of_idle hb))

theorem inv_startCommand {s : State} (h : s.Inv) (hb : s.status.busy = false) (w : Word) :
    (startCommand w s).Inv :=
  inv_of_sound (sound_startCommand (h.sound_of_idle hb) hb w)
    ((startCommand_held w s).trans (h.held_of_idle hb))

theorem inv_startInstr {s : State} (h : s.Inv) (hb : s.status.busy = false) (i : Instr) :
    (startInstr i s).Inv :=
  inv_of_sound (sound_startInstr (h.sound_of_idle hb) hb i)
    ((startInstr_held i s).trans (h.held_of_idle hb))

theorem inv_unitStep {s : State} (h : s.Inv) : (unitStep s).Inv := by
  cases hb : s.status.busy with
  | false =>
    rw [unitStep_of_idle hb]
    exact h
  | true =>
    cases hh : s.held with
    | none =>
      rw [unitStep_of_held_none hb hh]
      exact inv_of_sound (sound_runningStep (h.sound_of_none hh) hb)
        ((runningStep_frame s).held.trans hh)
    | some x =>
      rw [unitStep_of_held hb hh]
      have hs := h.sound
      cases x with
      | accepted w =>
        simp only [State.settled, hh] at hs
        show (startCommand w { s with held := none }).Inv
        rw [← startCommand_accept]
        have := inv_startCommand (inv_of_sound hs rfl) rfl w
        rwa [← startCommand_accept] at this
      | result r =>
        simp only [State.settled, hh] at hs
        exact inv_of_sound hs rfl

theorem inv_unitStepHeld {s : State} (h : s.Inv) : (unitStepHeld s).Inv := by
  rcases unitStepHeld_cases s with ⟨_, e⟩ | ⟨hh, hb, ht, e⟩ | ⟨_, _, e⟩
  · rw [e]
    exact h
  · rw [e]
    have hf := unitStep_frame hh
    have hi := (inv_unitStep h).sound_of_idle ht
    refine ⟨?_, fun _ => ⟨hb, hi.idleUnits ht⟩, fun r hr => ?_⟩
    swap
    · cases hr
      rw [unitStep_of_held_none hb hh]
      exact runningStep_flags (h.sound_of_none hh) hb
    show (writeResult (resultOf (unitStep s)) (holdResult s (unitStep s))).Sound
    rw [writeResult_holdResult hf.ovr ht (hf.held.trans hh)]
    exact hi
  · rw [e]
    exact inv_unitStep h

theorem inv_startHeld {s : State} (h : s.Inv) (hb : s.status.busy = false) (w : Word) :
    (startHeld w s).Inv := by
  rcases startHeld_cases w s with ⟨_, e⟩ | ⟨_, e⟩
  · rw [e]
    exact inv_startCommand h hb w
  · rw [e]
    have hi := h.sound_of_idle hb
    refine ⟨?_, fun _ => ⟨rfl, hi.idleUnits hb⟩, fun _ hr => nomatch hr⟩
    have := sound_held hi none
    have hs : s.status = { s.status with busy := false } := by
      rw [← hb]
    show ({ s with held := none, status := { s.status with busy := false } }).Sound
    rw [← hs]
    exact this

end Sys2Proof.Machine
end

