-- ==== Sys2Proof/Laws/PerInstr.lean ====
section
/-! SUPPORT. Statements made per instruction: one lemma per constructor of `Instr`. -/

namespace Sys2Proof.Laws.OpcodeField

/-- The opcode of a command (R92). -/
def opcode : Instr → BitVec 8
  | .clr => 0x01#8
  | .ldt => 0x02#8
  | .bld => 0x03#8
  | .dec => 0x04#8
  | .lkp _ _ => 0x05#8

/-- The word of a command carries its opcode in bits 7:0, whatever its operands (R90, R92). -/
def Statement (i : Instr) : Prop := opcOf (encode i) = opcode i

theorem clr : Statement .clr := rfl

theorem ldt : Statement .ldt := rfl

theorem bld : Statement .bld := rfl

theorem dec : Statement .dec := rfl

theorem lkp (len : BitVec 5) (pat : BitVec 16) : Statement (.lkp len pat) := by
  show opcOf (encode (.lkp len pat)) = 0x05#8
  apply BitVec.eq_of_toNat_eq
  rw [opcOf_toNat]
  show (pat ++ 0#3 ++ len ++ 0x05#8).toNat % 256 = 5
  rw [toNat_append_fields]
  simp

end Sys2Proof.Laws.OpcodeField
end

