-- ==== Sys2Proof/Laws/Runs.lean ====
section
/-! SUPPORT. Runs of the three units at the step level: what each loop of R122, R142 and R173 reaches
and in how many steps. -/

namespace Sys2Proof.Machine

/-- From `x` the running unit reaches `y` in `n` steps, busy before each of them. -/
def Run (x : State) (n : Nat) (y : State) : Prop := unitSteps n x = y ∧ ∀ j, j < n →
    (unitSteps j x).status.busy = true

theorem unitSteps_add (a b : Nat) (s : State) : unitSteps (a + b) s = unitSteps b
    (unitSteps a s) := by
  induction a generalizing s with
  | zero => simp [unitSteps]
  | succ a ih => rw [Nat.succ_add]; exact ih _


theorem Run.refl (x : State) : Run x 0 x := ⟨rfl, by simp⟩

theorem Run.step {x y z : State} {n : Nat} (hb : x.status.busy = true) (h : unitStep x = y)
    (hr : Run y n z) : Run x (n+1) z := by
  subst h
  refine ⟨hr.1, ?_⟩
  intro j hj
  cases j with
  | zero => exact hb
  | succ j => exact hr.2 j (by omega)

theorem Run.trans {x y z : State} {n m : Nat} (h : Run x n y) (hr : Run y m z) : Run x (n+m) z := by
  refine ⟨by rw [unitSteps_add, h.1, hr.1], ?_⟩
  intro j hj
  by_cases hjn : j < n
  · exact h.2 j hjn
  · obtain ⟨k, rfl⟩ : ∃ k, j = n + k := ⟨j - n, by omega⟩
    rw [unitSteps_add, h.1]
    exact hr.2 k (by omega)

/-! ### TB -/

/-- A state of the running builder. -/
def tbs (s : State) (m : List Host.Cell) (L idx code : Nat) (st : TbState) : State :=
  { s with
    cmap := ⟨none, m⟩
    tb := ⟨BitVec.ofNat 5 L, BitVec.ofNat 8 idx, BitVec.ofNat 32 code⟩
    tbState := st }

theorem bldFail_tbs (s m L i c st e) : bldFail e (tbs s m L i c st) = bldFail e s := rfl
theorem bldDone_tbs (s m L i c st) : bldDone (tbs s m L i c st) =
    bldDone { s with cmap := ⟨none, m⟩ } := rfl

theorem unit_tbs {s : State} (htl : s.tlState = .idle) (hb : s.status.busy = true)
    (hh : s.held = none) (m L i c)
    (st : TbState) (hst : st ≠ .idle) : unitStep (tbs s m L i c st) = tbStep
    (tbs s m L i c st) := by
  rw [unitStep_of_held_none (s := tbs s m L i c st) hb hh]
  unfold runningStep
  have : (tbs s m L i c st).tlState = .idle := htl
  rw [this]
  cases st <;> first | rfl | exact absurd rfl hst

/-- One bucket: `r` more symbols and the step to TB_SHIFT,
    or the failure at the first that does not fit. -/
theorem run_bucket {s : State} (htl : s.tlState = .idle) (hb : s.status.busy = true)
    (hh : s.held = none) {L : Nat}
    (h1 : 1 ≤ L) (h2 : L ≤ 16) (r idx code : Nat) (m : List Host.Cell)
    (hr : idx + r = s.ht.count L) (hc : code ≤ 2 ^ L) :
  match assignBucket L code ((s.ht.bucket L).drop idx) m with
  | none => ∃ k, k ≤ r ∧ Run (tbs s m L idx code .assign) k (bldFail .overSub s)
  | some (code', m') => code' = code + r ∧ code' ≤ 2 ^ L ∧ Run (tbs s m L idx code .assign) (r + 1)
      (tbs s m' L (idx + r) code' .shift) := by
  have hp : 2 ^ L ≤ 2 ^ 16 := Nat.pow_le_pow_right (by norm_num) h2
  have hcl : s.ht.count L < 256 := BitVec.isLt _
  have eL : (BitVec.ofNat 5 L).toNat = L := by simp; omega
  induction r generalizing idx code m with
  | zero =>
    have hd : (s.ht.bucket L).drop idx = [] := by
      apply List.drop_eq_nil_of_le
      simp [HuffTable.bucket]; omega
    rw [hd]
    refine ⟨rfl, hc, Run.step hb (unit_tbs htl hb hh _ _ _ _ _ (by simp)) ?_⟩
    have : tbStep (tbs s m L idx code .assign) = tbs s m L (idx + 0) code .shift := by
      show tbAssignStep _ = _
      unfold tbAssignStep
      have ei : (BitVec.ofNat 8 idx).toNat = idx := by simp; omega
      have : ¬ (tbs s m L idx code .assign).tb.idx.toNat < (tbs s m L idx code .assign).ht.count
          (tbs s m L idx code .assign).tb.l.toNat := by
        show ¬ (BitVec.ofNat 8 idx).toNat < s.ht.count (BitVec.ofNat 5 L).toNat
        rw [ei, eL]; omega
      rw [if_neg this]; rfl
    rw [this]
    exact Run.refl _
  | succ r ih =>
    rw [drop_bucket (by omega), assignBucket]
    have ei : (BitVec.ofNat 8 idx).toNat = idx := by simp; omega
    have ec : (BitVec.ofNat 32 code).toNat = code := by simp; omega
    have hlt : (tbs s m L idx code .assign).tb.idx.toNat < (tbs s m L idx code .assign).ht.count
        (tbs s m L idx code .assign).tb.l.toNat := by
        show (BitVec.ofNat 8 idx).toNat < s.ht.count (BitVec.ofNat 5 L).toNat
        rw [ei, eL]; omega
    by_cases hov : 2 ^ L ≤ code
    · rw [if_pos hov]
      refine ⟨1, by omega, Run.step hb (unit_tbs htl hb hh _ _ _ _ _ (by simp)) ?_⟩
      have : tbStep (tbs s m L idx code .assign) = bldFail .overSub s := by
        show tbAssignStep _ = _
        unfold tbAssignStep
        rw [if_pos hlt]
        have : 2 ^ (tbs s m L idx code .assign).tb.l.toNat ≤
            (tbs s m L idx code .assign).tb.code.toNat := by
          show 2 ^ (BitVec.ofNat 5 L).toNat ≤ (BitVec.ofNat 32 code).toNat
          rw [ec, eL]; exact hov
        rw [if_pos this]; rfl
      rw [this]; exact Run.refl _
    · rw [if_neg hov]
      have st : unitStep (tbs s m L idx code .assign) = tbs s (cellsSet m (codeKey L code)
          (s.ht.symbol L idx)) L (idx+1) (code+1) .assign := by
        rw [unit_tbs htl hb hh _ _ _ _ _ (by simp)]
        show tbAssignStep _ = _
        unfold tbAssignStep
        rw [if_pos hlt]
        have : ¬ 2 ^ (tbs s m L idx code .assign).tb.l.toNat ≤
            (tbs s m L idx code .assign).tb.code.toNat := by
          show ¬ 2 ^ (BitVec.ofNat 5 L).toNat ≤ (BitVec.ofNat 32 code).toNat
          rw [ec, eL]; exact hov
        rw [if_neg this]
        unfold tbs
        dsimp only
        rw [eL, ec, ei]
        rw [show BitVec.ofNat 32 code + 1#32 = BitVec.ofNat 32 (code+1) from
            (BitVec.ofNat_add _ _).symm,
         show BitVec.ofNat 8 idx + 1#8 = BitVec.ofNat 8 (idx+1) from (BitVec.ofNat_add _ _).symm]
        rfl
      have := ih (idx+1) (code+1) (cellsSet m (codeKey L code) (s.ht.symbol L idx)) (by omega)
          (by omega)
      split at this
      · next h =>
        obtain ⟨k, hk, hr⟩ := this
        exact ⟨k+1, by omega, Run.step hb st hr⟩
      · next c' m' h =>
        obtain ⟨e, hle, hr⟩ := this
        refine ⟨by omega, hle, ?_⟩
        have := Run.step (x := tbs s m L idx code .assign) hb st hr
        rw [show idx + (r+1) = idx + 1 + r by omega]
        exact this

/-- All the lengths from `L` on. -/
theorem run_build {s : State} (htl : s.tlState = .idle) (hb : s.status.busy = true)
    (hh : s.held = none)
    (n L code : Nat) (m : List Host.Cell) (h1 : 1 ≤ L) (h2 : L + n = 16) (hc : code ≤ 2 ^ L) :
  match buildFrom s.ht.bucket (n+1) L code m with
  | none => ∃ k, k + sumCounts s.ht.count (L-1) ≤ sumCounts s.ht.count 16 + 2 * (n+1) ∧ Run
      (tbs s m L 0 code .assign) k (bldFail .overSub s)
  | some m' => ∃ k, k + sumCounts s.ht.count (L-1) = sumCounts s.ht.count 16 + 2 * (n+1) ∧ Run
      (tbs s m L 0 code .assign) k (bldDone { s with cmap := ⟨none, m'⟩ }) := by
  have hp : 2 ^ L ≤ 2 ^ 16 := Nat.pow_le_pow_right (by norm_num) (by omega)
  have eL : (BitVec.ofNat 5 L).toNat = L := by simp; omega
  have hmono : ∀ a b, sumCounts s.ht.count a ≤ sumCounts s.ht.count (a + b) := by
    intro a b
    induction b with
    | zero => simp
    | succ b ih => rw [← Nat.add_assoc, sumCounts_succ]; omega
  have hsL : sumCounts s.ht.count L = sumCounts s.ht.count (L-1) + s.ht.count L := by
    obtain ⟨q, rfl⟩ : ∃ q, L = q + 1 := ⟨L-1, by omega⟩
    rw [sumCounts_succ]; rfl
  have hm16 : sumCounts s.ht.count L ≤ sumCounts s.ht.count 16 := by rw [← h2]; exact hmono _ _
  induction n generalizing L code m with
  | zero =>
    have := run_bucket htl hb hh h1 (by omega) (s.ht.count L) 0 code m (by omega) hc
    rw [List.drop_zero] at this
    rw [buildFrom]
    generalize assignBucket L code (s.ht.bucket L) m = r at this ⊢
    rcases r with _ | ⟨c', m'⟩
    · obtain ⟨k, hk, hr⟩ := this
      exact ⟨k, by omega, hr⟩
    · try dsimp only at this ⊢
      obtain ⟨e, hle, hr⟩ := this
      dsimp only [buildFrom]
      have hL : L = 16 := by omega
      subst hL
      refine ⟨s.ht.count 16 + 1 + 1, by simp at hsL ⊢; omega, hr.trans (Run.step hb
          (unit_tbs htl hb hh _ _ _ _ _ (by simp)) ?_)⟩
      exact Run.refl _
  | succ n ih =>
    have hbk := run_bucket htl hb hh h1 (by omega) (s.ht.count L) 0 code m (by omega) hc
    rw [List.drop_zero] at hbk
    rw [buildFrom]
    generalize assignBucket L code (s.ht.bucket L) m = r at hbk ⊢
    rcases r with _ | ⟨c', m'⟩
    · obtain ⟨k, hk, hr⟩ := hbk
      exact ⟨k, by omega, hr⟩
    · try dsimp only at hbk ⊢
      obtain ⟨e, hle, hr⟩ := hbk
      have st : unitStep (tbs s m' L (0 + s.ht.count L) c' .shift) = tbs s m' (L+1) 0
          (c' * 2) .assign := by
        rw [unit_tbs htl hb hh _ _ _ _ _ (by simp)]
        show tbShiftStep _ = _
        unfold tbShiftStep
        have : ¬ (BitVec.ofNat 5 L) = 16#5 := by
          intro e
          have := congrArg BitVec.toNat e
          rw [eL] at this
          simp at this
          omega
        dsimp only
        rw [if_neg (by exact this)]
        unfold tbs
        dsimp only
        rw [show BitVec.ofNat 5 L + 1#5 = BitVec.ofNat 5 (L+1) from (BitVec.ofNat_add _ _).symm]
        have : BitVec.ofNat 32 c' <<< 1 = BitVec.ofNat 32 (c' * 2) := by
          apply BitVec.eq_of_toNat_eq
          rw [BitVec.toNat_shiftLeft, Nat.shiftLeft_eq]
          simp
        rw [this]
      have := ih (L+1) (c' * 2) m' (by omega) (by omega) (by rw [pow_succ]; omega)
          (Nat.pow_le_pow_right (by norm_num) (by omega)) (by simp; omega)
          (by rw [sumCounts_succ]; rfl)
          (by
            rw [← h2]
            have h3 := hmono (L + 1) n
            rw [show L + 1 + n = L + (n + 1) by omega] at h3
            exact h3)
      rw [Nat.add_sub_cancel] at this
      split at this
      · next h' =>
        obtain ⟨k, hk, hr'⟩ := this
        exact ⟨s.ht.count L + 1 + (k + 1), by omega, hr.trans (Run.step hb st hr')⟩
      · next m'' h' =>
        obtain ⟨k, hk, hr'⟩ := this
        exact ⟨s.ht.count L + 1 + (k + 1), by omega, hr.trans (Run.step hb st hr')⟩

/-! ### ED -/

/-- A state of the running decoder: cursor `c`, output so far `o`. -/
def eds (s : State) (n : Nat) (o : List Byte) (c : Nat) (len : BitVec 5) (st : EdState) : State :=
  { s with
    obuf := s.obuf.writeList 0 o
    ed := ⟨BitVec.ofNat 32 c, BitVec.ofNat 32 n, len, BitVec.ofNat 32 o.length⟩
    edState := st }

theorem unit_eds {s : State} (htl : s.tlState = .idle) (htb : s.tbState = .idle)
    (hb : s.status.busy = true)
    (hh : s.held = none) (n o c l) (st : EdState) : unitStep (eds s n o c l st) = edStep
    (eds s n o c l st) := by
  rw [unitStep_of_held_none (s := eds s n o c l st) hb hh]
  unfold runningStep
  have : (eds s n o c l st).tlState = .idle := htl
  rw [this]
  have : (eds s n o c l st).tbState = .idle := htb
  rw [this]

theorem writeList_snoc (m : Memory) (o : List Byte) (b : Byte) :
    (m.writeList 0 o).write o.length b = m.writeList 0 (o ++ [b]) := by
  rw [Memory.writeList_append]
  simp [Memory.writeList]

/-- The candidate lengths from `len` on: a match, or the failure `E_NOCODE` (R174). -/
theorem run_try {s : State} (htl : s.tlState = .idle) (htb : s.tbState = .idle)
    (hb : s.status.busy = true)
    (hh : s.held = none) (n : Nat) (hn : n ≤ 2^31) (o : List Byte) (c : Nat)
    (ho : o.length ≤ c) (hc : c < n) (k len : Nat) (h1 : 1 ≤ len) (hk : len + k = 17) :
  match tryLengths s.cmap.lookup (streamBit s.ibufAt) n c k len with
  | none => ∃ j, j ≤ k + 1 ∧ Run (eds s n o c (BitVec.ofNat 5 len) .tryLen) j (decNoCode
      (BitVec.ofNat 32 c) (BitVec.ofNat 32 (n - c)) s)
  | some (L, b) => ∃ j, j ≤ k ∧ Run (eds s n o c (BitVec.ofNat 5 len) .tryLen) j (eds s n
      (o ++ [b]) (c + L) (BitVec.ofNat 5 L) .test) := by
  induction k generalizing len with
  | zero =>
    rw [tryLengths]
    refine ⟨1, by omega, Run.step hb (unit_eds htl htb hb hh _ _ _ _ _) ?_⟩
    have : edStep (eds s n o c (BitVec.ofNat 5 len) .tryLen) = decNoCode (BitVec.ofNat 32 c)
        (BitVec.ofNat 32 (n - c)) s := by
      show edTryStep _ = _
      unfold edTryStep
      have el : (BitVec.ofNat 5 len).toNat = len := by simp; omega
      rw [if_pos (by left; show 16 < (BitVec.ofNat 5 len).toNat; omega)]
      show decNoCode (BitVec.ofNat 32 c) (BitVec.ofNat 32 n - BitVec.ofNat 32 c)
          (eds _ _ _ _ _ _) = _
      rw [show BitVec.ofNat 32 n - BitVec.ofNat 32 c = BitVec.ofNat 32 (n - c) by
        apply BitVec.eq_of_toNat_eq; rw [BitVec.toNat_sub]; simp; omega]
      rfl
    rw [this]; exact Run.refl _
  | succ k ih =>
    have el : (BitVec.ofNat 5 len).toNat = len := by simp; omega
    have ec : (BitVec.ofNat 32 c).toNat = c := by simp; omega
    have en : (BitVec.ofNat 32 n).toNat = n := by simp; omega
    have eo : (BitVec.ofNat 32 o.length).toNat = o.length := by simp; omega
    have esub : BitVec.ofNat 32 n - BitVec.ofNat 32 c = BitVec.ofNat 32 (n - c) := by
        apply BitVec.eq_of_toNat_eq; rw [BitVec.toNat_sub]; simp; omega
    rw [tryLengths]
    by_cases hfit : c + len ≤ n
    · rw [if_pos hfit]
      have hng : ¬ (16 < (eds s n o c (BitVec.ofNat 5 len) .tryLen).ed.len.toNat ∨ (eds s n o c
          (BitVec.ofNat 5 len) .tryLen).ed.nbits.toNat < (eds s n o c
          (BitVec.ofNat 5 len) .tryLen).ed.cursor.toNat + (eds s n o c
          (BitVec.ofNat 5 len) .tryLen).ed.len.toNat) := by
        show ¬ (16 < (BitVec.ofNat 5 len).toNat ∨ (BitVec.ofNat 32 n).toNat <
            (BitVec.ofNat 32 c).toNat + (BitVec.ofNat 5 len).toNat)
        rw [el, ec, en]; omega
      have hlk : (eds s n o c (BitVec.ofNat 5 len) .tryLen).cmap.lookup (eds s n o c
          (BitVec.ofNat 5 len) .tryLen).ed.len.toNat (window (streamBit (eds s n o c
          (BitVec.ofNat 5 len) .tryLen).ibufAt) (eds s n o c
          (BitVec.ofNat 5 len) .tryLen).ed.cursor.toNat (eds s n o c
          (BitVec.ofNat 5 len) .tryLen).ed.len.toNat) = s.cmap.lookup len (window
          (streamBit s.ibufAt) c len) := by
        show s.cmap.lookup (BitVec.ofNat 5 len).toNat (window (streamBit s.ibufAt)
            (BitVec.ofNat 32 c).toNat (BitVec.ofNat 5 len).toNat) = _
        rw [el, ec]
      cases hm : s.cmap.lookup len (window (streamBit s.ibufAt) c len) with
      | some b =>
        refine ⟨1, by omega, Run.step hb (unit_eds htl htb hb hh _ _ _ _ _) ?_⟩
        have : edStep (eds s n o c (BitVec.ofNat 5 len) .tryLen) = eds s n (o ++ [b]) (c + len)
            (BitVec.ofNat 5 len) .test := by
          show edTryStep _ = _
          unfold edTryStep
          rw [if_neg hng, hlk, hm]
          unfold eds
          dsimp only
          rw [eo, writeList_snoc]
          rw [show BitVec.ofNat 32 c + (BitVec.ofNat 5 len).setWidth 32 = BitVec.ofNat 32
              (c + len) by
            apply BitVec.eq_of_toNat_eq; rw [BitVec.toNat_add]; simp; omega]
          rw [List.length_append]
          rw [show BitVec.ofNat 32 o.length + 1#32 = BitVec.ofNat 32 (o.length+1) from
              (BitVec.ofNat_add _ _).symm]
          rfl
        rw [this]; exact Run.refl _
      | none =>
        have : unitStep (eds s n o c (BitVec.ofNat 5 len) .tryLen) = eds s n o c (BitVec.ofNat 5
            (len+1)) .tryLen := by
          rw [unit_eds htl htb hb hh]
          show edTryStep _ = _
          unfold edTryStep
          rw [if_neg hng, hlk, hm]
          unfold eds
          dsimp only
          rw [show BitVec.ofNat 5 len + 1#5 = BitVec.ofNat 5 (len+1) from
              (BitVec.ofNat_add _ _).symm]
        have ih' := ih (len+1) (by omega) (by omega)
        dsimp only
        split at ih'
        · obtain ⟨j, hj, hr⟩ := ih'
          exact ⟨j+1, by omega, Run.step hb this hr⟩
        · obtain ⟨j, hj, hr⟩ := ih'
          exact ⟨j+1, by omega, Run.step hb this hr⟩
    · rw [if_neg hfit]
      have hno : tryLengths s.cmap.lookup (streamBit s.ibufAt) n c k (len + 1) = none := by
        have : ∀ k l, n < c + l → tryLengths s.cmap.lookup (streamBit s.ibufAt) n c k l = none := by
          intro k
          induction k with
          | zero => intros; rfl
          | succ k ih => intro l hl; rw [tryLengths, if_neg (by omega)]; exact ih _ (by omega)
        exact this _ _ (by omega)
      rw [hno]
      refine ⟨1, by omega, Run.step hb (unit_eds htl htb hb hh _ _ _ _ _) ?_⟩
      have : edStep (eds s n o c (BitVec.ofNat 5 len) .tryLen) = decNoCode (BitVec.ofNat 32 c)
          (BitVec.ofNat 32 (n - c)) s := by
        show edTryStep _ = _
        unfold edTryStep
        rw [if_pos
              (by right; show (BitVec.ofNat 32 n).toNat < (BitVec.ofNat 32 c).toNat + (BitVec.ofNat 5 len).toNat; omega)]
        show decNoCode (BitVec.ofNat 32 c) (BitVec.ofNat 32 n - BitVec.ofNat 32 c)
            (eds _ _ _ _ _ _) = _
        rw [esub]
        rfl
      rw [this]; exact Run.refl _

/-- The outer loop from the cursor `c` on. -/
theorem run_decode {s : State} (htl : s.tlState = .idle) (htb : s.tbState = .idle)
    (hb : s.status.busy = true)
    (hh : s.held = none) (n : Nat) (hn : n ≤ 2^31) (fuel : Nat) (o : List Byte) (c : Nat)
    (l : BitVec 5) (ho : o.length ≤ c) (hc : c ≤ n) (hf : n < c + fuel) :
  match decodeFrom s.cmap.lookup (streamBit s.ibufAt) n fuel c with
  | .error c' => ∃ j, j ≤ 17 * (n - c) + 18 ∧ Run (eds s n o c l .test) j (decNoCode
      (BitVec.ofNat 32 c') (BitVec.ofNat 32 (n - c')) s)
  | .ok (out, c') => out.length ≤ n - c ∧ ∃ j, j ≤ 17 * out.length + 1 ∧ Run
      (eds s n o c l .test) j (decDone (BitVec.ofNat 32 (o ++ out).length)
      (BitVec.ofNat 32 c') { s with obuf := s.obuf.writeList 0 (o ++ out) }) := by
  induction fuel generalizing o c l with
  | zero => omega
  | succ fuel ih =>
    rw [decodeFrom]
    have ec : (BitVec.ofNat 32 c).toNat = c := by simp; omega
    have en : (BitVec.ofNat 32 n).toNat = n := by simp; omega
    by_cases hlt : c < n
    · rw [if_pos hlt]
      have st : unitStep (eds s n o c l .test) = eds s n o c (BitVec.ofNat 5 1) .tryLen := by
        rw [unit_eds htl htb hb hh]
        show edTestStep _ = _
        unfold edTestStep
        rw [if_neg (by show ¬ (BitVec.ofNat 32 n).toNat ≤ (BitVec.ofNat 32 c).toNat; omega)]
        rfl
      have ht := run_try htl htb hb hh n hn o c ho hlt 16 1 (by omega) (by omega)
      rw [show Config.nlen = 16 from rfl]
      generalize h : tryLengths s.cmap.lookup (streamBit s.ibufAt) n c 16 1 = r at ht ⊢
      rcases r with _ | ⟨L, b⟩
      · obtain ⟨j, hj, hr⟩ := ht
        exact ⟨j+1, by omega, Run.step hb st hr⟩
      · obtain ⟨j, hj, hr⟩ := ht
        obtain ⟨g1, g2, g3, g4, -⟩ := tryLengths_some h
        have := ih (o ++ [b]) (c + L) (BitVec.ofNat 5 L) (by simp; omega) g3 (by omega)
        dsimp only
        generalize decodeFrom s.cmap.lookup (streamBit s.ibufAt) n fuel (c + L) = r at this ⊢
        rcases r with c' | ⟨out', c'⟩
        · obtain ⟨q, hq, hr'⟩ := this
          exact ⟨j + 1 + q, by omega, (Run.step (x := eds s n o c l .test) hb st hr).trans hr'⟩
        · obtain ⟨hl, q, hq, hr'⟩ := this
          refine ⟨by simp; omega, j + 1 + q, by simp; omega, ?_⟩
          have := (Run.step (x := eds s n o c l .test) hb st hr).trans hr'
          simpa using this
    · rw [if_neg hlt]
      refine ⟨by simp, 1, by simp, Run.step hb (unit_eds htl htb hb hh _ _ _ _ _) ?_⟩
      have : edStep (eds s n o c l .test) = decDone (BitVec.ofNat 32 (o ++ []).length)
          (BitVec.ofNat 32 c) { s with obuf := s.obuf.writeList 0 (o ++ []) } := by
        show edTestStep _ = _
        unfold edTestStep
        rw [if_pos (by show (BitVec.ofNat 32 n).toNat ≤ (BitVec.ofNat 32 c).toNat; omega)]
        rw [List.append_nil]
        rfl
      rw [this]; exact Run.refl _

/-! ### TL -/

/-- A state of the running loader. -/
def tls (s : State) (cls id : BitVec 1) (cn : Memory) (sy : Memory) (p k j tot : Nat)
    (st : TlState) : State :=
  { s with
    ht := ⟨cls, id, cn, sy⟩
    tl := ⟨BitVec.ofNat 13 p, BitVec.ofNat 5 k, BitVec.ofNat 8 j, BitVec.ofNat 13 tot⟩
    tlState := st }

theorem unit_tls {s : State} (hb : s.status.busy = true)
    (hh : s.held = none) (c i cn sy p k j t) (st : TlState)
    (hst : st ≠ .idle) : unitStep (tls s c i cn sy p k j t st) = tlStep
    (tls s c i cn sy p k j t st) := by
  rw [unitStep_of_held_none (s := tls s c i cn sy p k j t st) hb hh]
  unfold runningStep
  cases st <;> first | rfl | exact absurd rfl hst

/-- The count bytes from `k` on. -/
theorem run_counts {s : State} (hb : s.status.busy = true)
    (hh : s.held = none) (c i sy j) (r k tot : Nat) (cn : Memory)
    (hk : 1 ≤ k) (hr : k + r = 17) (ht : tot ≤ (k-1) * 255) (hki : k ≤ s.inCount) :
   if 17 ≤ s.inCount then Run (tls s c i cn sy k k j tot .counts) (r+1) (tls s c i (cn.writeList k
       (bytesAt s.ibufAt k r)) sy 17 1 0 (tot +
       ((bytesAt s.ibufAt k r).map BitVec.toNat).sum) .syms)
   else ∃ q, q ≤ r + 1 ∧ Run (tls s c i cn sy k k j tot .counts) q (ldtFail .trunc s) := by
  have e13 : (BitVec.ofNat 13 k).toNat = k := by simp; omega
  have e5 : (BitVec.ofNat 5 k).toNat = k := by simp; omega
  induction r generalizing k tot cn with
  | zero =>
    have hk : k = 17 := by omega
    subst hk
    have : unitStep (tls s c i cn sy 17 17 j tot .counts) = tls s c i cn sy 17 1 0 tot .syms := by
      rw [unit_tls hb hh _ _ _ _ _ _ _ _ _ (by simp)]; rfl
    split
    · refine Run.step hb this ?_
      have : bytesAt s.ibufAt 17 0 = [] := List.eq_nil_of_length_eq_zero (bytesAt_length _ _ _)
      rw [this]
      exact Run.refl _
    · omega
  | succ r ih =>
    by_cases hp : s.inCount ≤ k
    · have : unitStep (tls s c i cn sy k k j tot .counts) = ldtFail .trunc s := by
        rw [unit_tls hb hh _ _ _ _ _ _ _ _ _ (by simp)]
        show tlCountsStep _ = _
        unfold tlCountsStep
        rw [if_pos (by show (BitVec.ofNat 5 k).toNat ≤ 16; omega),
            if_pos (by show s.inCount ≤ (BitVec.ofNat 13 k).toNat; omega)]
        rfl
      rw [if_neg (by omega)]
      exact ⟨1, by omega, Run.step hb this (Run.refl _)⟩
    · have st : unitStep (tls s c i cn sy k k j tot .counts) = tls s c i (cn.write k
        (s.ibufAt k)) sy (k+1) (k+1) j (tot + (s.ibufAt k).toNat) .counts := by
        rw [unit_tls hb hh _ _ _ _ _ _ _ _ _ (by simp)]
        show tlCountsStep _ = _
        unfold tlCountsStep
        rw [if_pos (by show (BitVec.ofNat 5 k).toNat ≤ 16; omega),
            if_neg (by show ¬ s.inCount ≤ (BitVec.ofNat 13 k).toNat; omega)]
        unfold tls
        dsimp only
        have hib : ∀ x, (tls s c i cn sy k k j tot .counts).ibufAt x = s.ibufAt x := fun _ => rfl
        unfold tls at hib
        rw [hib, e13, e5]
        rw [show BitVec.ofNat 13 k + 1#13 = BitVec.ofNat 13 (k+1) from (BitVec.ofNat_add _ _).symm,
            show BitVec.ofNat 5 k + 1#5 = BitVec.ofNat 5 (k+1) from (BitVec.ofNat_add _ _).symm]
        rw [show BitVec.ofNat 13 tot + (s.ibufAt k).setWidth 13 = BitVec.ofNat 13 (tot +
            (s.ibufAt k).toNat) by
          apply BitVec.eq_of_toNat_eq; rw [BitVec.toNat_add]; simp]
      have hb8 := (s.ibufAt k).isLt
      have := ih (k+1) (tot + (s.ibufAt k).toNat) (cn.write k (s.ibufAt k)) (by omega) (by omega)
          (by
            obtain ⟨q, rfl⟩ : ∃ q, k = q+1 := ⟨k-1, by omega⟩
            simp at ht ⊢
            omega)
          (by omega) (by simp; omega) (by simp; omega)
      split at this
      · next h17 =>
        rw [if_pos h17]
        rw [bytesAt_succ]
        have := Run.step (x := tls s c i cn sy k k j tot .counts) hb st this
        rw [List.map_cons, List.sum_cons, ← Nat.add_assoc]
        exact this
      · next h17 =>
        rw [if_neg h17]
        obtain ⟨q, hq, hr⟩ := this
        exact ⟨q+1, by omega, Run.step hb st hr⟩

/-- The symbols of bucket `k` from position `j` on. -/
theorem run_symbucket {s : State} (hb : s.status.busy = true)
    (hh : s.held = none) (c i cn tot) (k : Nat) (h1 : 1 ≤ k)
    (h16 : k ≤ 16) (r p j : Nat) (sy : Memory) (hr : j + r = (HuffTable.mk c i cn sy).count k)
    (hpj : p + r ≤ 17 + 16 * 255) (hpi : p ≤ s.inCount) :
   if p + r ≤ s.inCount then Run (tls s c i cn sy p k j tot .syms) (r+1) (tls s c i cn
       (sy.writeList (symKey k j) (bytesAt s.ibufAt p r)) (p+r) (k+1) 0 tot .syms)
   else ∃ q, q ≤ r ∧ Run (tls s c i cn sy p k j tot .syms) q (ldtFail .trunc s) := by
  have e5 : (BitVec.ofNat 5 k).toNat = k := by simp; omega
  have hc8 : (HuffTable.mk c i cn sy).count k < 256 := BitVec.isLt _
  induction r generalizing p j sy with
  | zero =>
    rw [if_pos (by omega)]
    have e8 : (BitVec.ofNat 8 j).toNat = j := by simp; omega
    have : unitStep (tls s c i cn sy p k j tot .syms) = tls s c i cn sy p (k+1) 0 tot .syms := by
      rw [unit_tls hb hh _ _ _ _ _ _ _ _ _ (by simp)]
      show tlSymsStep _ = _
      unfold tlSymsStep
      rw [if_pos (by show (BitVec.ofNat 5 k).toNat ≤ 16; omega), if_neg (by
        show ¬ (BitVec.ofNat 8 j).toNat < (HuffTable.mk c i cn sy).count (BitVec.ofNat 5 k).toNat
        rw [e5]; omega)]
      unfold tls
      dsimp only
      rw [show BitVec.ofNat 5 k + 1#5 = BitVec.ofNat 5 (k+1) from (BitVec.ofNat_add _ _).symm]
    have hnil : bytesAt s.ibufAt p 0 = [] := List.eq_nil_of_length_eq_zero (bytesAt_length _ _ _)
    rw [hnil]
    exact Run.step hb this (Run.refl _)
  | succ r ih =>
    have e8 : (BitVec.ofNat 8 j).toNat = j := by simp; omega
    have e13 : (BitVec.ofNat 13 p).toNat = p := by simp; omega
    have hjl : (tls s c i cn sy p k j tot .syms).tl.j.toNat <
        (tls s c i cn sy p k j tot .syms).ht.count
        (tls s c i cn sy p k j tot .syms).tl.k.toNat := by
        show (BitVec.ofNat 8 j).toNat < (HuffTable.mk c i cn sy).count (BitVec.ofNat 5 k).toNat
        rw [e5]; omega
    by_cases hp : s.inCount ≤ p
    · rw [if_neg (by omega)]
      refine ⟨1, by omega, Run.step hb ?_ (Run.refl _)⟩
      rw [unit_tls hb hh _ _ _ _ _ _ _ _ _ (by simp)]
      show tlSymsStep _ = _
      unfold tlSymsStep
      rw [if_pos (by show (BitVec.ofNat 5 k).toNat ≤ 16; omega), if_pos hjl, if_pos
          (by show s.inCount ≤ (BitVec.ofNat 13 p).toNat; omega)]
      rfl
    · have st : unitStep (tls s c i cn sy p k j tot .syms) = tls s c i cn (sy.write (symKey k j)
        (s.ibufAt p)) (p+1) k (j+1) tot .syms := by
        rw [unit_tls hb hh _ _ _ _ _ _ _ _ _ (by simp)]
        show tlSymsStep _ = _
        unfold tlSymsStep
        rw [if_pos (by show (BitVec.ofNat 5 k).toNat ≤ 16; omega), if_pos hjl, if_neg
            (by show ¬ s.inCount ≤ (BitVec.ofNat 13 p).toNat; omega)]
        unfold tls
        dsimp only
        have hib : ∀ x, (tls s c i cn sy p k j tot .syms).ibufAt x = s.ibufAt x := fun _ => rfl
        unfold tls at hib
        rw [hib, e13, e5, e8]
        rw [show BitVec.ofNat 13 p + 1#13 = BitVec.ofNat 13 (p+1) from (BitVec.ofNat_add _ _).symm,
            show BitVec.ofNat 8 j + 1#8 = BitVec.ofNat 8 (j+1) from (BitVec.ofNat_add _ _).symm]
      have := ih (p+1) (j+1) (sy.write (symKey k j) (s.ibufAt p)) (by show j + 1 + r = (HuffTable.mk c i cn sy).count k; omega) (by omega) (by omega) hc8
      split at this
      · next hle =>
        rw [if_pos (by omega), bytesAt_succ]
        have := Run.step (x := tls s c i cn sy p k j tot .syms) hb st this
        rw [show p + (r+1) = p + 1 + r by omega]
        rw [show symKey k (j+1) = symKey k j + 1 by unfold symKey; omega] at this
        exact this
      · next hle =>
        rw [if_neg (by omega)]
        obtain ⟨q, hq, hr⟩ := this
        exact ⟨q+1, by omega, Run.step hb st hr⟩

/-- The symbols of the buckets from `k` on. -/
theorem run_syms {s : State} (hb : s.status.busy = true)
    (hh : s.held = none) (c i cn tot) (cs : List Byte) (k : Nat)
    (h1 : 1 ≤ k) (h16 : k + cs.length = 17) (p : Nat) (sy : Memory)
   (hcs : ∀ x, ∀ h : x < cs.length, (cn.read .htCnt (k + x)) = cs[x])
       (hpj : p + symbolsOf cs ≤ 17 + 16 * 255) (hpi : p ≤ s.inCount) :
   if p + symbolsOf cs ≤ s.inCount then Run (tls s c i cn sy p k 0 tot .syms)
       (symbolsOf cs + cs.length + 1) (ldtDone (BitVec.ofNat 32 (p + symbolsOf cs)) { s with ht :=
       ⟨c, i, cn, writeBuckets sy k (bucketsAt s.ibufAt p cs)⟩ })
   else ∃ q, q ≤ symbolsOf cs + cs.length ∧ Run (tls s c i cn sy p k 0 tot .syms) q
       (ldtFail .trunc s) := by
  induction cs generalizing k p sy with
  | nil =>
    have hk : k = 17 := by simpa using h16
    subst hk
    rw [if_pos (by simpa [symbolsOf] using hpi)]
    refine Run.step hb ?_ (Run.refl _)
    rw [unit_tls hb hh _ _ _ _ _ _ _ _ _ (by simp)]
    show tlSymsStep _ = _
    unfold tlSymsStep
    have h17 : (BitVec.ofNat 5 17).toNat = 17 := by simp
    rw [if_neg (by show ¬ (BitVec.ofNat 5 17).toNat ≤ 16; omega)]
    show ldtDone ((BitVec.ofNat 13 p).setWidth 32) _ = _
    rw [show (BitVec.ofNat 13 p).setWidth 32 = BitVec.ofNat 32 (p + symbolsOf []) by
      apply BitVec.eq_of_toNat_eq
      simp [symbolsOf] at hpj ⊢; omega]
    rfl
  | cons b cs ih =>
    have hs : symbolsOf (b :: cs) = b.toNat + symbolsOf cs := rfl
    have hcnt : (HuffTable.mk c i cn sy).count k = b.toNat := by
      have := hcs 0 (by simp)
      simp at this
      show (cn.read .htCnt k).toNat = _
      rw [this]
    have hb8 := b.isLt
    have hbk := run_symbucket hb hh c i cn tot k h1 (by simp at h16; omega) b.toNat p 0 sy (by omega)
        (by omega) hpi
    rw [hs] at hpj ⊢
    split at hbk
    · next hle =>
      have := ih (k+1) (by omega) (by simp at h16; omega) (p + b.toNat) (sy.writeList (symKey k 0)
          (bytesAt s.ibufAt p b.toNat)) (by
        intro x hx
        have := hcs (x+1) (by simp; omega)
        rw [show k + 1 + x = k + (x+1) by omega, this]; rfl) (by omega) hle
      split at this
      · next hle2 =>
        rw [if_pos (by omega)]
        have := hbk.trans this
        rw [show b.toNat + symbolsOf cs + (b :: cs).length + 1 = b.toNat + 1 +
            (symbolsOf cs + cs.length + 1) by simp; omega, ← Nat.add_assoc]
        have e1 : b.toNat + 1 + (symbolsOf cs + cs.length) + 1 = b.toNat + 1 +
            (symbolsOf cs + cs.length + 1) := by omega
        rw [e1, ← Nat.add_assoc p]
        exact this
      · next hle2 =>
        rw [if_neg (by omega)]
        obtain ⟨q, hq, hr⟩ := this
        exact ⟨b.toNat + 1 + q, by simp; omega, hbk.trans hr⟩
    · next hle =>
      rw [if_neg (by omega)]
      obtain ⟨q, hq, hr⟩ := hbk
      exact ⟨q, by simp; omega, hr⟩

end Sys2Proof.Machine
end

