-- ==== Sys2Proof/Tests/Slice0.lean ====
section
/-! SUPPORT. The model's own tests, each one step on a small state with its expected values from the spec's
vectors (`95_test_vectors.md`; the vector's name stands in the docstring), and for every obligation with
hypotheses a witness: concrete states and operands that meet all of them together. -/

namespace Sys2Proof.Tests

open Sys2Proof Sys2Proof.Machine

/-! ### Helpers -/

/-- The state a command ends in. -/
def answer : Host.Outcome State Fault Refusal → State
  | .next t => t
  | .fault _ => State.reset
  | .refused _ => State.reset

/-- Bytes laid out as cells from index `i` on. -/
def bytesFrom : Nat → List Byte → List Host.Cell
  | _, [] => []
  | i, b :: bs => (i, b) :: bytesFrom (i + 1) bs

/-- A store that holds these bytes from index 0 on. -/
def store (bs : List Byte) : Memory := ⟨bytesFrom 0 bs, 0⟩

/-- The state after reset with these bytes written to IBUF and their number to IN_LEN (`FILL`, R102). -/
def filled (bs : List Byte) : State :=
  { State.resetWith 64 with inLen := BitVec.ofNat 32 bs.length, ibuf := store bs }

/-- `filled bs` with a word for IN_LEN of its own. -/
def filledLen (n : Word) (bs : List Byte) : State := { filled bs with inLen := n }

/-- A state with a valid map of these entries (length, value, symbol), the bytes in IBUF. -/
def mapped (m : List (Nat × Nat × Byte)) (bs : List Byte) : State :=
  { filled bs with
    status := { Status.cleared with tblValid := true, mapValid := true }
    cmap := ⟨none, m.map fun e => (codeKey e.1 e.2.1, e.2.2)⟩ }

/-- A state with a valid table of these buckets, the first of length 1. -/
def tabled (cls id : BitVec 1) (bs : List (List Byte)) : State :=
  { filled [] with
    status := { Status.cleared with tblValid := true }
    ht := { cls := cls, id := id
            cnt := ⟨bytesFrom 1 ((bs ++ List.replicate (16 - bs.length) []).map
              (fun b : List Byte => BitVec.ofNat 8 b.length)), 0⟩
            sym := writeBuckets ⟨[], 0⟩ 1 bs } }

/-- The next event of the outside is `e`. -/
def before (e : HostEvent) (s : State) : State := { s with port := [e] }

/-- The table T_EX of the source's example S1 as definition bytes. -/
def tEx : List Byte := [0x11, 0, 1, 2, 4, 0, 0, 0, 0, 0, 0, 0, 0, 0, 0, 0, 0, 1, 2, 0x11, 0, 3, 4, 0x21]

/-- T_TWO as definition bytes. -/
def tTwo : List Byte := [0, 2, 0, 0, 0, 0, 0, 0, 0, 0, 0, 0, 0, 0, 0, 0, 0, 0x41, 0x42]

/-- The buckets of T_EX. -/
def bucketsEx : List (List Byte) := [[], [1], [2, 0x11], [0, 3, 4, 0x21]]

/-- The map of T_EX as the table of section 2 lists it. -/
def mapEx : List (Nat × Nat × Byte) :=
  [(2, 0, 1), (3, 2, 2), (3, 3, 0x11), (4, 8, 0), (4, 9, 3), (4, 10, 4), (4, 11, 0x21)]

/-! ### WellFormed refuses each ill-formed term -/

theorem test_wf_refuses_len_zero : (Instr.lkp 0#5 1#16).wf = false := by decide

theorem test_wf_refuses_len_17 : (Instr.lkp 17#5 1#16).wf = false := by decide

theorem test_wf_refuses_len_31 : (Instr.lkp 31#5 1#16).wf = false := by decide

/-- R91: any PAT is well formed, also one of `2^LEN` or more. -/
theorem test_wf_accepts_every_pattern :
    (Instr.lkp 1#5 0xFFFF#16).wf = true ∧ (Instr.lkp 16#5 0#16).wf = true := by decide

theorem test_wf_accepts_format_z :
    Instr.clr.wf = true ∧ Instr.ldt.wf = true ∧ Instr.bld.wf = true ∧ Instr.dec.wf = true := by decide

/-! ### Decoding, the words written out field by field from R90 and the vectors V-E -/

/-- V-E1 to V-E4: format Z, 24 zero bits over the opcode. -/
theorem test_decode_format_z :
    decodeCmd (0b000000000000000000000000#24 ++ 0b00000001#8) = .ok .clr ∧
    decodeCmd (0b000000000000000000000000#24 ++ 0b00000010#8) = .ok .ldt ∧
    decodeCmd (0b000000000000000000000000#24 ++ 0b00000011#8) = .ok .bld ∧
    decodeCmd (0b000000000000000000000000#24 ++ 0b00000100#8) = .ok .dec := by decide

/-- V-E7 and V-E11: format K, PAT over 000 over LEN over the opcode. -/
theorem test_decode_format_k :
    decodeCmd (0b0000000000001010#16 ++ 0b000#3 ++ 0b00100#5 ++ 0b00000101#8) = .ok (.lkp 4#5 10#16) ∧
    decodeCmd (0b0111111111111110#16 ++ 0b000#3 ++ 0b01111#5 ++ 0b00000101#8)
      = .ok (.lkp 15#5 32766#16) := by decide

/-- V-E9 and V-E12 as whole words. -/
theorem test_decode_words : decodeCmd 0xFFFE1005#32 = .ok (.lkp 16#5 65534#16) ∧
    decodeCmd 0xFFFF0105#32 = .ok (.lkp 1#5 65535#16) := by decide

/-- V-E13 to V-E22: the illegal words, by the case of R93 each falls under. -/
theorem test_decode_refuses :
    [0x00000000#32, 0x00000006#32, 0x000000FF#32].map decodeCmd
      = [.error .opcode, .error .opcode, .error .opcode] ∧
    [0x00000102#32, 0x80000001#32].map decodeCmd = [.error .upperBits, .error .upperBits] ∧
    [0x00000005#32, 0x00001105#32, 0x00001F05#32].map decodeCmd
      = [.error .lenRange, .error .lenRange, .error .lenRange] ∧
    [0x00002105#32, 0x00008405#32].map decodeCmd = [.error .reservedBits, .error .reservedBits] := by
  decide

/-- The encoder's words are those of V-E1 and V-E8. -/
theorem test_encode : encode .clr = 0x00000001#32 ∧ encode (.lkp 4#5 11#16) = 0x000B0405#32 := by decide

/-- The opcode table's words, as its rows number their bits. -/
theorem test_decode_table_word : decodeTableWord 32 3 = some .bld ∧ decodeTableWord 8 4 = some .dec ∧
    decodeTableWord 32 0x000A0405 = some (.lkp 4#5 10#16) ∧ decodeTableWord 8 5 = none := by decide

/-! ### CLR -/

/-- V-C1: from the state after V-D4. -/
theorem test_clr_keeps_ibuf :
    let s := { filled [0xFF] with
      status := { Status.cleared with tblValid := true, mapValid := true, err := true, errCode := .noCode }
      bitRem := 8#32, tdefEnd := 24#32 }
    let t := answer (exec .clr s)
    (List.range 10).map (regValue t) = [0, 0, 0, 0, 0, 0, 0, 0, 0, 64] ∧ ibufValue t 0 = 0xFF#8 := by
  decide

/-! ### LDT -/

/-- V-L1: T_EX; V-L7, V-L11, V-L13: a missing symbol, an illegal identity before missing counts, and
IN_LEN too big. -/
theorem test_ldt :
    let t := answer (exec .ldt (filled tEx))
    ((List.range 9).map (regValue t) = [0, 2, 24, 0, 0, 0, 24, 0, 3] ∧
      [1, 2, 3, 4].map t.ht.bucket = bucketsEx) ∧
    regValue (answer (exec .ldt (filled (tEx.take 23)))) 1 = 0x00000110#32 ∧
    regValue (answer (exec .ldt (filled [0xFF]))) 1 = 0x00000210#32 ∧
    regValue (answer (exec .ldt (filledLen 65#32 tEx))) 1 = 0x00000810#32 := by decide

/-- One step of TL in TL_COUNTS (R122): T_TWO's first count, 2, read at P = 1. -/
theorem test_tl_counts_step :
    let s := { ldtStart (filled tTwo) with tl := { p := 1#13, k := 1#5, j := 0#8, tot := 0#13 }
                                           tlState := .counts }
    let t := unitStep s
    t.tl = { p := 2#13, k := 2#5, j := 0#8, tot := 2#13 } ∧ t.ht.count 1 = 2 ∧ t.tlState = .counts := by
  decide

/-! ### BLD -/

/-- V-B1: T_EX builds the seven entries, STATUS 6; V-B5 and V-B9: three codes of length 1 do not fit, two
do. -/
theorem test_bld :
    let t := answer (exec .bld (tabled 1#1 1#1 bucketsEx))
    (t.cmap = (mapped mapEx []).cmap ∧ regValue t 1 = 0x00000006#32) ∧
    regValue (answer (exec .bld (tabled 0#1 0#1 [[0xA, 0xB, 0xC]]))) 1 = 0x00000312#32 ∧
    regValue (answer (exec .bld (tabled 0#1 0#1 [[0x41, 0x42]]))) 1 = 0x00000006#32 := by decide

/-- Steps 8, 10 and 40 of the trace of V-B1: TB_ASSIGN at L = 3, IDX = 1, CODE = 3 maps (3, 3) to 11;
TB_SHIFT doubles CODE, and after length 16 the build is finished. -/
theorem test_tb_steps :
    let s := bldStart (tabled 1#1 1#1 bucketsEx)
    let t := unitStep { s with tb := { l := 3#5, idx := 1#8, code := 3#32 } }
    (t.cmap.lookup 3 3 = some 0x11#8 ∧ t.tb = { l := 3#5, idx := 2#8, code := 4#32 }) ∧
    (unitStep { s with tb := { l := 3#5, idx := 2#8, code := 4#32 }, tbState := .shift }).tb
      = { l := 4#5, idx := 0#8, code := 8#32 } ∧
    regValue (unitStep { s with tb := { l := 16#5, idx := 0#8, code := 49152#32 }, tbState := .shift }) 1
      = 0x00000006#32 := by decide

/-! ### DEC -/

/-- V-D1, the source's reference decode S2; V-D6: one bit is left and no code fits, and the three symbols
are not readable. -/
theorem test_dec :
    let t := answer (exec .dec (mapped mapEx [0x0A, 0xB9]))
    let u := answer (exec .dec (mapped mapEx [0x40]))
    ((List.range 6).map (regValue t) = [0, 0xE, 2, 5, 16, 0] ∧
      (List.range 6).map (obufValue t) = [1, 1, 4, 0x21, 3, 0]) ∧
    (List.range 6).map (regValue u) = [0, 0x416, 1, 0, 7, 1] ∧ obufValue u 0 = 0 := by decide

/-- Step 12 of the trace of V-D1: ED_TRY at CURSOR 4 with LEN 4 hits 1010. Step 11 of V-D4's: at LEN 9
too few bits remain, so BITPOS 0 and BITREM 8. -/
theorem test_ed_steps :
    let t := unitStep { decStart (mapped mapEx [0x0A, 0xB9]) with
      ed := { cursor := 4#32, nbits := 16#32, len := 4#5, optr := 2#32 }, edState := .tryLen }
    let u := unitStep { decStart (mapped mapEx [0xFF]) with
      ed := { cursor := 0#32, nbits := 8#32, len := 9#5, optr := 0#32 }, edState := .tryLen }
    (t.obufAt 2 = 4#8 ∧ t.ed = { cursor := 8#32, nbits := 16#32, len := 4#5, optr := 3#32 } ∧
      t.edState = .test) ∧
    (List.range 6).map (regValue u) = [0, 0x416, 1, 0, 0, 8] := by decide

/-! ### LKP -/

/-- V-K6, V-K13: a hit on symbol 00 shows HIT, and the all-ones code of T_FULL hits. -/
theorem test_lkp_hit :
    regValue (answer (exec (.lkp 4#5 8#16) (mapped mapEx []))) 7 = 0x00000100#32 ∧
    regValue (answer (exec (.lkp 3#5 7#16) (mapped [(3, 7, 0x40)] []))) 7 = 0x00000140#32 := by decide

/-- V-K9 and V-K11: a prefix of codes misses, and so does a pattern of `2^LEN` or more; ERR stays 0. -/
theorem test_lkp_miss :
    (List.range 8).map (regValue (answer (exec (.lkp 2#5 1#16) (mapped mapEx []))))
      = [0, 6, 0, 0, 0, 0, 0, 0] ∧
    regValue (answer (exec (.lkp 2#5 4#16) (mapped mapEx []))) 7 = 0#32 := by decide

/-! ### Illegal words, the port and reset -/

/-- V-C5: legality is tested before the missing map. -/
theorem test_illegal_word :
    regValue (answer (step (before (.access (.regWrite 0 5#32)) (State.resetWith 64)))) 1
      = 0x00000710#32 := by decide

/-- V-M11: while LDT runs, a write of IN_LEN is discarded and sets OVR. -/
theorem test_busy_write :
    let t := answer (step (before (.access (.regWrite 2 5#32)) (ldtStart (filled tEx))))
    t.inLen = 24#32 ∧ t.status.ovr = true ∧ t.tlState = .id := by decide

/-- V-K6 with its completion put off: BUSY alone is raised and all units stay idle (R41); the completion
then delivers the hit. -/
theorem test_put_off :
    let t := answer (step (before (.startCmd true 0x00080405#32) (mapped mapEx [])))
    (t.status.busy = true ∧ t.lkpRes = 0#32 ∧ t.tlState = .idle ∧ t.tbState = .idle ∧ t.edState = .idle) ∧
    (regValue (answer (step t)) 7 = 0x00000100#32 ∧ (answer (step t)).status.busy = false) := by decide

/-- V-M5: a write of a read-only register is ignored. -/
theorem test_write_read_only :
    answer (step (before (.access (.regWrite 3 7#32)) (State.resetWith 64))) = State.resetWith 64 := by
  decide

/-- V-M9: with `IBUF_SIZE = 64`, index 64 ignores the write. -/
theorem test_ibuf_out_of_range :
    answer (step (before (.access (.ibufWrite 64 0x5A#8)) (State.resetWith 64))) = State.resetWith 64 ∧
    ibufValue (State.resetWith 64) 64 = 0#8 := by decide

/-- V-M2: a window across the byte boundary. -/
theorem test_window :
    window (streamBit (filled [0x0A, 0xB9]).ibufAt) 6 4 = 10 ∧
    window (streamBit (filled [0x12, 0x34]).ibufAt) 0 16 = 0x1234 := by decide

/-- V-C7: the registers after reset. -/
theorem test_reset_registers :
    (List.range 11).map (regValue State.reset) = [0, 0, 0, 0, 0, 0, 0, 0, 0, 64, 0] := by decide

/-- The very next step runs the placed word: LKP without a map (V-K25). -/
theorem test_placed_word :
    regValue (answer (step (State.reset.withFetchWord 32 0x00000105))) 1 = 0x00000610#32 := by decide

/-! ### Witnesses: for each obligation with hypotheses, states and operands that meet them -/

/-- T_EX loaded from reset. -/
def loadedEx : State := answer (exec .ldt (filled tEx))

/-- T_EX loaded and built from reset. -/
def builtEx : State := answer (exec .bld loadedEx)

/-- T_EX built, these bytes put in IBUF for a DEC. -/
def readyEx (bs : List Byte) : State :=
  { builtEx with ibuf := store bs, inLen := BitVec.ofNat 32 bs.length }

/-- The buckets of T_EX as a function of the length. -/
def exBucket (L : Nat) : List Byte := if L = 0 then [] else bucketsEx.getD (L - 1) []

theorem inv_filled {bs : List Byte} (h : (store bs).wf ∧ ∀ c ∈ (store bs).cells, c.1 < 64) (n : Word) :
    (filledLen n bs).Inv :=
  inv_of_sound (sound_of_idle ⟨rfl, rfl, rfl⟩ rfl (show 1 ≤ 64 by decide)
    (show 64 ≤ Config.ibufSizeMax by decide) h.1 h.2 .nil nil_in .nil nil_in .nil nil_in .nil
    nil_in (fun h => nomatch h) (fun h => nomatch h) (fun h => nomatch h) ⟨fun _ => rfl, fun _ => rfl⟩
    (fun _ => rfl) (fun h => nomatch h)) rfl

theorem inv_filledEx : (filled tEx).Inv := inv_filled (bs := tEx) (by decide) 24#32

theorem inv_loadedEx : loadedEx.Inv := inv_completed inv_filledEx rfl .ldt

theorem inv_builtEx : builtEx.Inv := inv_completed inv_loadedEx (by decide) .bld

theorem inv_readyNone : (readyEx []).Inv :=
  inv_write inv_builtEx (by decide) 0#32 .nil nil_in

/-- Both ends of the range of `IBUF_SIZE`. -/
theorem witness_ResetRegistersReadTheirValues :
    (1 ≤ 1 ∧ 1 ≤ Config.ibufSizeMax) ∧ (1 ≤ 2 ^ 28 ∧ 2 ^ 28 ≤ Config.ibufSizeMax) := by decide

theorem witness_ResetMeetsInvariant : 1 ≤ 64 ∧ 64 ≤ Config.ibufSizeMax := by decide

/-- While LDT runs. -/
theorem witness_HardResetStopsEverything : ∃ (s : State) (rest : List HostEvent) (w : Word) (i : Instr),
    s.port = .hwReset :: rest ∧ s.status.busy = true ∧ rest = [.access (.regWrite 0 w)] ∧ decodeCmd w = .ok i :=
  ⟨{ ldtStart (filled tEx) with port := [.hwReset, .access (.regWrite 0 1#32)] }, _, 1#32, .clr, rfl, rfl,
    rfl, rfl⟩

/-- CLR's word to a busy block, CLR's opcode under a set bit 31, and another command. -/
theorem witness_ClrClearsAndKeepsIbuf : ∃ t, (0x80000001#32).toNat % 256 = 1 ∧ 0x80000001#32 ≠ 1#32 ∧
    (before (.access (.regWrite 0 1#32)) (ldtStart (filled tEx))).status.busy = true ∧
    exec .bld loadedEx = .next t ∧ Instr.bld ≠ .clr := ⟨_, by decide, by decide, by decide, rfl, by decide⟩

/-- An illegal word to an idle and to a busy block. -/
theorem witness_IllegalWordChangesOnlyErr : ∃ e, decodeCmd 0x00001105#32 = .error e ∧
    builtEx.status.busy = false ∧ (ldtStart (filled tEx)).status.busy = true ∧
    (before (.access (.regWrite 0 0x00001105#32)) (ldtStart (filled tEx))).port
      = .access (.regWrite 0 0x00001105#32) :: [] :=
  ⟨.lenRange, by decide, by decide, by decide, by decide⟩

/-- Each of the five commands and an illegal word to an idle block, and a word to a busy one. -/
theorem witness_CmdWriteRunsTheDecodedCommand :
    ((before (.access (.regWrite 0 3#32)) loadedEx).status.busy = false ∧
      (before (.startCmd false 3#32) loadedEx).status.busy = false) ∧
    [0x1#32, 0x2#32, 0x3#32, 0x4#32, 0x000A0405#32, 0x6#32].map decodeCmd
      = [.ok .clr, .ok .ldt, .ok .bld, .ok .dec, .ok (.lkp 4#5 10#16), .error .opcode] ∧
    (before (.access (.regWrite 0 3#32)) (ldtStart (filled tEx))).status.busy = true ∧
    (before (.startCmd false 3#32) (ldtStart (filled tEx))).status.busy = true := by decide

/-- Each unit running, the host doing nothing or about to wait, and both kinds of completion put off. -/
theorem witness_BusyBlockStepsItsUnit :
    ((ldtStart (filled tEx)).status.busy = true ∧ (ldtStart (filled tEx)).port = [] ∧
      (before (.wait false) (ldtStart (filled tEx))).port = .wait false :: [] ∧
      (ldtStart (filled tEx)).held = none ∧ (ldtStart (filled tEx)).tlState ≠ .idle) ∧
    ((bldStart loadedEx).status.busy = true ∧ (bldStart loadedEx).held = none ∧
      (bldStart loadedEx).tlState = .idle ∧ (bldStart loadedEx).tbState ≠ .idle) ∧
    ((decStart builtEx).status.busy = true ∧ (decStart builtEx).held = none ∧
      (decStart builtEx).tlState = .idle ∧ (decStart builtEx).tbState = .idle) ∧
    ((startHeld 1#32 builtEx).status.busy = true ∧
      (startHeld 1#32 builtEx).held = some (.accepted 1#32)) ∧
    ((unitStepHeld (decStart (readyEx []))).status.busy = true ∧
      (unitStepHeld (decStart (readyEx []))).held
        = some (.result (resultOf (unitStep (decStart (readyEx [])))))) := by decide

theorem witness_PlacedWordRunsNext :
    decodeTableWord 32 0x00020305 = some (.lkp 3#5 2#16) ∧ decodeTableWord 8 1 = some .clr := by decide

/-- One word for each of the four cases of R93, the last at both ends of its range. -/
theorem witness_IllegalWordsAreTheFourCases :
    (State.resetWith 64).status.busy = false ∧ decodeCmd 0x00000006#32 = .error .opcode ∧
    decodeCmd 0x00000100#32 = .error .opcode ∧ decodeCmd 0x00000104#32 = .error .upperBits ∧
    decodeCmd 0x00002105#32 = .error .reservedBits ∧ decodeCmd 0x00000005#32 = .error .lenRange ∧
    decodeCmd 0x00001105#32 = .error .lenRange := by decide

theorem witness_DecodeInvertsEncode :
    (Instr.lkp 16#5 0xFFFF#16).wf = true ∧ (Instr.lkp 1#5 0#16).wf = true ∧ Instr.dec.wf = true := by decide

theorem witness_EncodeInvertsDecode : decodeCmd 0xFFFF1005#32 = .ok (.lkp 16#5 0xFFFF#16) := by decide

/-- T_TWO with the length of the whole definition; the byte after it differs. -/
theorem witness_ParseSucceedsExactlyOnWholeDefinitions : ∃ t,
    parse (filled tTwo).ibufAt 19 = .ok t ∧ t.fin = 19 ∧
    ∀ i, i < t.fin → (filled (tTwo ++ [7])).ibufAt i = (filled tTwo).ibufAt i :=
  ⟨{ cls := 0#1, id := 0#1, cnt := [2, 0, 0, 0, 0, 0, 0, 0, 0, 0, 0, 0, 0, 0, 0, 0],
     sym := [[0x41, 0x42], [], [], [], [], [], [], [], [], [], [], [], [], [], [], []], fin := 19 },
    by decide, rfl, by decide⟩

/-- T_EX exactly filling IN_LEN. -/
theorem witness_LdtLoadsTheTable :
    (filled tEx).inCount ≤ (filled tEx).ibufSize ∧ 1 ≤ (filled tEx).inCount ∧
    (filled tEx).ibufAt 0 ∈ [0x00#8, 0x01#8, 0x10#8, 0x11#8] ∧
    17 + sumCounts (fun L => ((filled tEx).ibufAt L).toNat) 16 = (filled tEx).inCount := by decide

/-- IN_LEN one too big, no byte at all, one symbol missing, an illegal identity alone. -/
theorem witness_LdtFailureWithdrawsTheTable :
    (filledLen 65#32 tEx).ibufSize < (filledLen 65#32 tEx).inCount ∧
    parse (filled []).ibufAt 0 = .error .trunc ∧
    parse (filled (tEx.take 23)).ibufAt 23 = .error .trunc ∧
    parse (filled [0x22]).ibufAt 1 = .error .badId ∧ (filled [0x22]).inCount ≤ (filled [0x22]).ibufSize := by
  decide

/-- A table that builds, one that does not (T_OV2), and none. -/
theorem witness_BldBuildsTheMap :
    (loadedEx.status.tblValid = true ∧ (build loadedEx.ht.bucket).isSome = true) ∧
    ((tabled 0#1 0#1 [[0xA, 0xB, 0xC]]).status.tblValid = true ∧
      build (tabled 0#1 0#1 [[0xA, 0xB, 0xC]]).ht.bucket = none) ∧
    (State.resetWith 64).status.tblValid = false := by decide

/-- T_EX, and the table whose last code is all ones at the greatest length, T_DEEP's shape at length 1. -/
theorem witness_BuiltMapHoldsTheCanonicalCodes :
    build exBucket = some (mapped mapEx []).cmap.cells ∧ 0xFFFF < 65536 ∧
    build (fun L => if L = 1 then [0x41, 0x42] else []) = some [(codeKey 1 0, 0x41), (codeKey 1 1, 0x42)] := by
  decide

/-- An idle block with a map, and a busy one whose decoder's results are not yet written. -/
theorem witness_BuiltMapIsPrefixFree :
    (∃ m, build exBucket = some m) ∧ (builtEx.Inv ∧ builtEx.status.mapValid = true) ∧
    ((unitStepHeld (decStart (readyEx []))).Inv ∧
      (unitStepHeld (decStart (readyEx []))).status.mapValid = true ∧
      (unitStepHeld (decStart (readyEx []))).held ≠ none) :=
  ⟨⟨_, witness_BuiltMapHoldsTheCanonicalCodes.1⟩, ⟨inv_builtEx, by decide⟩,
    inv_unitStepHeld (inv_startInstr inv_readyNone (by decide) .dec), by decide, by decide⟩

theorem witness_OneKeyPerSymbol : ∃ m, build exBucket = some m :=
  ⟨_, witness_BuiltMapHoldsTheCanonicalCodes.1⟩

theorem witness_BuiltMapHasAtMost2041Entries :
    (∀ L, (exBucket L).length ≤ 255) ∧ ∃ m, build exBucket = some m := by
  refine ⟨fun L => ?_, _, witness_BuiltMapHoldsTheCanonicalCodes.1⟩
  rcases L with _ | _ | _ | _ | _ | L
  all_goals simp [exBucket, bucketsEx]

/-- A hit at length 4, a miss, no map, and a pattern of exactly `2^LEN` at both ends of LEN's range that
has one. -/
theorem witness_LkpProbesTheMap :
    (Instr.lkp 4#5 8#16).wf = true ∧ builtEx.status.mapValid = true ∧
    builtEx.cmap.lookup 4 8 = some 0#8 ∧ builtEx.cmap.lookup 1 0 = none ∧
    loadedEx.status.mapValid = false ∧ (Instr.lkp 1#5 2#16).wf = true ∧ 2 ^ 1 ≤ 2 ∧
    (Instr.lkp 15#5 32768#16).wf = true ∧ 2 ^ 15 ≤ 32768 := by decide

theorem witness_LkpProbesTheMap_inv : builtEx.Inv ∧ builtEx.status.mapValid = true :=
  ⟨inv_builtEx, by decide⟩

/-- The reference decode S2, and the empty input. -/
theorem witness_DecDeliversTheSymbols :
    (readyEx [0x0A, 0xB9]).ibufSize ≤ Config.ibufSizeMax ∧
    (readyEx [0x0A, 0xB9]).status.mapValid = true ∧
    (readyEx [0x0A, 0xB9]).inCount ≤ (readyEx [0x0A, 0xB9]).ibufSize ∧
    decode (readyEx [0x0A, 0xB9]).cmap.lookup (readyEx [0x0A, 0xB9]).ibufAt 2
      = .ok ([1, 1, 4, 0x21, 3], 16) ∧
    decode (readyEx []).cmap.lookup (readyEx []).ibufAt 0 = .ok ([], 0) := by decide

/-- No map; IN_LEN one too big; no code at bit 7 of eight. -/
theorem witness_DecFailureGivesNoOutput :
    loadedEx.status.mapValid = false ∧
    ({ builtEx with inLen := 65#32 } : State).status.mapValid = true ∧
    ({ builtEx with inLen := 65#32 } : State).ibufSize < ({ builtEx with inLen := 65#32 } : State).inCount ∧
    (readyEx [0x40]).status.mapValid = true ∧ (readyEx [0x40]).inCount ≤ (readyEx [0x40]).ibufSize ∧
    decode (readyEx [0x40]).cmap.lookup (readyEx [0x40]).ibufAt 1 = .error 7 := by decide

theorem witness_DecodeBounds :
    decode (mapped mapEx []).cmap.lookup (filled [0x0A, 0xB9]).ibufAt 2 = .ok ([1, 1, 4, 0x21, 3], 16) ∧
    decode (mapped mapEx []).cmap.lookup (filled [0xFF]).ibufAt 1 = .error 0 := by decide

theorem witness_AtMostOneLengthMatches :
    build exBucket = some (mapped mapEx []).cmap.cells ∧
    ((CodeMap.mk none (mapped mapEx []).cmap.cells).lookup 2
      (window (streamBit (filled [0x0A]).ibufAt) 0 2)).isSome = true := by decide

/-- The codes of the reference decode spell its bytes. -/
theorem witness_DecodeIsParsingIntoCodes :
    build exBucket = some (mapped mapEx []).cmap.cells ∧
    spells (streamBit (filled [0x0A, 0xB9]).ibufAt) 0
      [(2, 0, 1), (2, 0, 1), (4, 10, 4), (4, 11, 0x21), (4, 9, 3)] := by
  refine ⟨by decide, ?_⟩
  simp only [spells]
  decide

/-- Two states that differ in the earlier results and in the bytes past IN_LEN. -/
theorem witness_SameInputsDecodeAlike : ∃ t : State, t ≠ readyEx [0x0A, 0xB9] ∧
    (readyEx [0x0A, 0xB9]).ibufSize = t.ibufSize ∧ (readyEx [0x0A, 0xB9]).status.mapValid = true ∧
    t.status.mapValid = true ∧ (readyEx [0x0A, 0xB9]).cmap = t.cmap ∧
    (readyEx [0x0A, 0xB9]).inLen = t.inLen ∧
    ∀ i, i < (readyEx [0x0A, 0xB9]).inCount → (readyEx [0x0A, 0xB9]).ibufAt i = t.ibufAt i :=
  ⟨{ readyEx [0x0A, 0xB9, 0xFF] with inLen := 2#32, lkpRes := 5#32 },
    fun h => absurd (congrArg State.lkpRes h) (by decide), rfl, by decide, by decide, rfl, by decide,
    by decide⟩

/-- DEC that succeeds, finds no code, has no map and has IN_LEN too big; CLR and another command answer
always. -/
theorem witness_DecRecordsLengthCursorAndRemainder :
    (∃ t, exec .dec (readyEx [0x0A, 0xB9]) = .next t ∧ t.status.err = false) ∧
    (∃ t, exec .dec (readyEx [0xFF]) = .next t ∧ t.status.err = true ∧ t.status.errCode = .noCode) ∧
    (∃ t, exec .dec loadedEx = .next t ∧ t.status.err = true ∧ t.status.errCode = .noMap) ∧
    (∃ t, exec .dec { builtEx with inLen := 65#32 } = .next t ∧ t.status.errCode = .len) ∧
    (∃ t, exec .clr builtEx = .next t) ∧ (∃ t, exec .bld loadedEx = .next t) :=
  ⟨⟨_, rfl, by decide⟩, ⟨_, rfl, by decide, by decide⟩, ⟨_, rfl, by decide, by decide⟩,
    ⟨_, rfl, by decide⟩, ⟨_, rfl⟩, ⟨_, rfl⟩⟩

theorem witness_TdefEndIsTheDefinitionLength :
    (∃ t, exec .ldt (filled tEx) = .next t ∧ t.status.err = false) ∧
    (∃ t, exec .ldt (filled []) = .next t ∧ t.status.err = true) ∧ (∃ t, exec .clr builtEx = .next t) ∧
    (∃ t, exec .dec builtEx = .next t) :=
  ⟨⟨_, rfl, by decide⟩, ⟨_, rfl, by decide⟩, ⟨_, rfl⟩, ⟨_, rfl⟩⟩

theorem witness_LkpResHoldsTheLastProbe :
    (∃ t, exec (.lkp 4#5 10#16) builtEx = .next t ∧ t.status.err = false ∧ t.lkpRes = 0x104#32) ∧
    (∃ t, exec (.lkp 1#5 0#16) builtEx = .next t ∧ t.status.err = false ∧ t.lkpRes = 0#32) ∧
    (∃ t, exec (.lkp 1#5 0#16) loadedEx = .next t ∧ t.status.err = true) ∧
    (∃ t, exec .ldt builtEx = .next t) ∧
    (∃ t, decodeCmd 0x00001105#32 = .error .lenRange ∧ runCommand 0x00001105#32 builtEx = .next t) :=
  ⟨⟨_, rfl, by decide, by decide⟩, ⟨_, rfl, by decide, by decide⟩, ⟨_, rfl, by decide⟩, ⟨_, rfl⟩,
    ⟨_, rfl, rfl⟩⟩

/-- Each row of R211: the command, the state and the cause. -/
theorem witness_FailuresLeaveWhatTheTableSays :
    builtEx.ibufSize ≤ Config.ibufSizeMax ∧
    Fails .ldt (filledLen 65#32 tEx) .len ∧ Fails .ldt (filled []) .trunc ∧
    Fails .ldt (filled [0x22]) .badId ∧ Fails .bld (State.resetWith 64) .noTbl ∧
    Fails .bld (tabled 0#1 0#1 [[0xA, 0xB, 0xC]]) .overSub ∧ Fails .dec loadedEx .noMap ∧
    Fails .dec { builtEx with inLen := 65#32 } .len ∧ Fails .dec (readyEx [0xFF]) .noCode ∧
    Fails (.lkp 1#5 0#16) loadedEx .noMap ∧
    (∃ t, exec .dec loadedEx = .next t ∧ t.status.err = true) ∧
    (builtEx.status.busy = false ∧ decodeCmd 6#32 = .error .opcode) :=
  ⟨by decide, .inl (by decide), .inr (by decide), .inr (by decide), .inl (by decide), .inr (by decide),
    .inl (by decide), .inr (.inl (by decide)), .inr (.inr ⟨by decide, by decide, ⟨0, by decide⟩, rfl⟩),
    by unfold Fails; decide, ⟨_, rfl, by decide⟩, by decide⟩

theorem witness_TheFirstFailureInPriorityIsReported :
    builtEx.status.busy = false ∧ (ldtStart (filled tEx)).status.busy = true ∧
    (before (.access (.regWrite 0 6#32)) (ldtStart (filled tEx))).port
      = .access (.regWrite 0 6#32) :: [] := by decide

theorem witness_TblIdShowsTheIdentityAndNothingUsesIt :
    loadedEx.status.tblValid = true ∧ (State.resetWith 64).status.tblValid = false := by decide

/-- The first reserved number, to an idle and to a busy block. -/
theorem witness_ReservedRegistersReadZeroAndIgnoreWrites : 10 ≤ 10 ∧
    (before (.access (.regWrite 10 5#32)) builtEx).port = .access (.regWrite 10 5#32) :: [] ∧
    builtEx.status.busy = false ∧ (ldtStart (filled tEx)).status.busy = true := by decide

theorem witness_IdleReadsChangeNothing :
    (before (.access (.regRead 8)) builtEx).status.busy = false ∧
    (before (.access (.regRead 8)) builtEx).port = .access (.regRead 8) :: [] ∧
    (before (.access (.ibufRead 0)) builtEx).port = .access (.ibufRead 0) :: [] ∧
    (before (.access (.obufRead 0)) builtEx).port = .access (.obufRead 0) :: [] ∧ 10 ≤ 10 := by decide

/-- IN_LEN, a read-only number, and the IBUF indices on both sides of `IBUF_SIZE`. -/
theorem witness_IdleWritesStoreOnlyTheirElement :
    (before (.access (.regWrite 2 5#32)) builtEx).status.busy = false ∧
    (before (.access (.regWrite 2 5#32)) builtEx).port = .access (.regWrite 2 5#32) :: [] ∧
    (before (.access (.regWrite 1 5#32)) builtEx).port = .access (.regWrite 1 5#32) :: [] ∧
    (before (.access (.ibufWrite 64 1#8)) builtEx).port = .access (.ibufWrite 64 1#8) :: [] ∧
    builtEx.ibufSize ≤ 64 ∧
    (before (.access (.ibufWrite 63 1#8)) builtEx).port = .access (.ibufWrite 63 1#8) :: [] ∧
    63 < builtEx.ibufSize := by decide

/-- The reference decode's last readable index 4, and index 5, a block without an output, and a DEC that
fails. -/
theorem witness_ObufReadsAreMasked :
    let s := answer (exec .dec (readyEx [0x0A, 0xB9]))
    s.status.outValid = true ∧ 4 < s.outLen.toNat ∧ 4 < 8 * s.ibufSize ∧ s.outLen.toNat ≤ 5 ∧
      builtEx.status.outValid = false ∧ ∃ t, exec .dec (readyEx [0xFF]) = .next t ∧ t.status.err = true :=
  ⟨by decide, by decide, by decide, by decide, by decide, _, rfl, by decide⟩

theorem witness_BusyAccessesDisturbNothing :
    (ldtStart (filled tEx)).status.busy = true ∧
    [HostEvent.access (.regWrite 9 1#32), .access (.ibufWrite 0 1#8), .startCmd false 1#32, .startCmd true 1#32, .access (.regRead 0),
      .access (.regRead 1), .access (.regRead 9), .access (.regRead 10), .access (.ibufRead 0),
      .access (.obufRead 0)].map (fun e => (before e (ldtStart (filled tEx))).port.length)
    = List.replicate 10 1 := by decide

theorem witness_IdleBlockKeepsItsState : (State.resetWith 64).Idle ∧ (State.resetWith 64).port = [] :=
  ⟨⟨rfl, ⟨rfl, rfl, rfl⟩, rfl⟩, rfl⟩

/-- A write of IBUF changes it. -/
theorem witness_OnlyTheHostWritesIbuf : ∃ t,
    step (before (.access (.ibufWrite 0 1#8)) builtEx) = .next t ∧ t.ibuf ≠ builtEx.ibuf :=
  ⟨_, rfl, by decide⟩

/-- A write of IN_LEN, CLR, CLR's completion where it was put off, and reset change it. -/
theorem witness_InLenChangesOnlyByHostClrReset :
    (∃ t, step (before (.access (.regWrite 2 1#32)) builtEx) = .next t ∧ t.inLen ≠ builtEx.inLen) ∧
    (∃ t, step (before (.access (.regWrite 0 1#32)) builtEx) = .next t ∧ t.inLen ≠ builtEx.inLen) ∧
    (∃ t, step (startHeld 1#32 builtEx) = .next t ∧ t.inLen ≠ (startHeld 1#32 builtEx).inLen) ∧
    (∃ t, step (before .hwReset builtEx) = .next t ∧ t.inLen ≠ builtEx.inLen) :=
  ⟨⟨_, rfl, by decide⟩, ⟨_, rfl, by decide⟩, ⟨_, rfl, by decide⟩, ⟨_, rfl, by decide⟩⟩

/-- OVR cleared by CLR, by a CLR's completion that was put off and by reset, and set by a write to a busy block. -/
theorem witness_OvrIsSticky :
    let s : State := { builtEx with status := { builtEx.status with ovr := true } }
    (∃ t, step (before (.access (.regWrite 0 1#32)) s) = .next t ∧ s.status.ovr = true ∧
      t.status.ovr = false) ∧
    (∃ t, step (startHeld 1#32 s) = .next t ∧ (startHeld 1#32 s).status.ovr = true ∧
      t.status.ovr = false) ∧
    (∃ t, step (before .hwReset s) = .next t ∧ t.status.ovr = false) ∧
    (∃ t, step (before (.access (.ibufWrite 0 1#8)) (ldtStart (filled tEx))) = .next t ∧
      (ldtStart (filled tEx)).status.ovr = false ∧ t.status.ovr = true) :=
  ⟨⟨_, rfl, rfl, rfl⟩, ⟨_, rfl, rfl, rfl⟩, ⟨_, rfl, rfl⟩, ⟨_, rfl, rfl, rfl⟩⟩

/-- Each flag set by its command and cleared by CLR, by LDT or by its own command's failure. -/
theorem witness_ValidFlagsBelongToTheirCommands :
    (∃ t, exec .ldt (filled tEx) = .next t ∧ t.status.tblValid = true ∧
      (filled tEx).status.tblValid = false) ∧
    (∃ t, exec .bld loadedEx = .next t ∧ t.status.mapValid = true ∧ loadedEx.status.mapValid = false) ∧
    (∃ t, exec .dec (readyEx [0x0A, 0xB9]) = .next t ∧ t.status.outValid = true ∧
      (readyEx [0x0A, 0xB9]).status.outValid = false) ∧
    (∃ t, exec .ldt { builtEx with inLen := 0#32 } = .next t ∧ builtEx.status.tblValid = true ∧
      t.status.tblValid = false ∧ builtEx.status.mapValid = true ∧ t.status.mapValid = false) ∧
    (∃ t, exec .dec (answer (exec .dec (readyEx [0x0A, 0xB9]))) = .next t ∧ t.status.outValid = true) ∧
    (∃ t, exec .dec { answer (exec .dec (readyEx [0x0A, 0xB9])) with ibuf := store [0xFF, 0xFF] } = .next t ∧
      t.status.outValid = false) ∧
    (∃ t, exec .clr (answer (exec .dec (readyEx [0x0A, 0xB9]))) = .next t ∧ t.status.outValid = false) ∧
    (∃ t, exec .bld (tabled 0#1 0#1 [[0xA, 0xB, 0xC]]) = .next t ∧ t.status.mapValid = false) :=
  ⟨⟨_, rfl, by decide, by decide⟩, ⟨_, rfl, by decide, by decide⟩, ⟨_, rfl, by decide, by decide⟩,
    ⟨_, rfl, by decide, by decide, by decide, by decide⟩, ⟨_, rfl, by decide⟩, ⟨_, rfl, by decide⟩,
    ⟨_, rfl, by decide⟩, ⟨_, rfl, by decide⟩⟩

theorem witness_CapReadsTheConstantIbufSize : ∃ t, step (before .hwReset builtEx) = .next t := ⟨_, rfl⟩

/-- States that meet the invariant: idle ones, one with each unit running, and one with each kind of
completion put off. -/
theorem witness_EveryStepKeepsTheInvariant :
    (filled tEx).Inv ∧ loadedEx.Inv ∧ builtEx.Inv ∧
    ((ldtStart (filled tEx)).Inv ∧ (ldtStart (filled tEx)).tlState = .id) ∧
    ((bldStart loadedEx).Inv ∧ (bldStart loadedEx).tbState = .assign) ∧
    ((decStart builtEx).Inv ∧ (decStart builtEx).edState = .test) ∧
    ((startHeld 1#32 builtEx).Inv ∧ (startHeld 1#32 builtEx).held ≠ none) ∧
    ((unitStepHeld (decStart (readyEx []))).Inv ∧ (unitStepHeld (decStart (readyEx []))).held ≠ none) ∧
    (∃ t, step (ldtStart (filled tEx)) = .next t) ∧ (∃ t, step (bldStart loadedEx) = .next t) ∧
    (∃ t, step (decStart builtEx) = .next t) ∧ (∃ t, step (before .hwReset builtEx) = .next t) :=
  ⟨inv_filledEx, inv_loadedEx, inv_builtEx,
    ⟨inv_startInstr inv_filledEx rfl .ldt, by decide⟩,
    ⟨inv_startInstr inv_loadedEx (by decide) .bld, by decide⟩,
    ⟨inv_startInstr inv_builtEx (by decide) .dec, by decide⟩,
    ⟨inv_startHeld inv_builtEx (by decide) 1#32, by decide⟩,
    ⟨inv_unitStepHeld (inv_startInstr inv_readyNone (by decide) .dec), by decide⟩,
    ⟨_, rfl⟩, ⟨_, rfl⟩, ⟨_, rfl⟩, ⟨_, rfl⟩⟩

/-- CLR, LKP and an illegal word for an idle block, and a decoder one step before its end. -/
theorem witness_BusyCanBeOneWithAllUnitsIdle :
    (builtEx.Inv ∧ builtEx.status.busy = false) ∧
    (ldtStart (filled tEx)).Inv ∧ ¬ (ldtStart (filled tEx)).UnitsIdle ∧
    [0x1#32, 0x000A0405#32, 0x6#32].map decodeCmd
      = [.ok .clr, .ok (.lkp 4#5 10#16), .error .opcode] ∧
    (before (.startCmd true 1#32) builtEx).port = .startCmd true 1#32 :: [] ∧
    (decStart (readyEx [])).Inv ∧ (decStart (readyEx [])).held = none ∧
    (decStart (readyEx [])).status.busy = true ∧ (unitStep (decStart (readyEx []))).status.busy = false ∧
    (before (.wait true) (decStart (readyEx []))).port = .wait true :: [] :=
  ⟨⟨inv_builtEx, by decide⟩, inv_startInstr inv_filledEx rfl .ldt, fun h => absurd h.1 (by decide),
    by decide, rfl, inv_startInstr inv_readyNone (by decide) .dec, by decide, by decide, by decide, rfl⟩

/-- A word whose command completes at once and one whose command runs, a step that completes and one that
does not, and the two events that put a completion off. -/
theorem witness_PuttingOffACompletionChangesNothing :
    (builtEx.held = none ∧ (startCommand 1#32 builtEx).status.busy = false) ∧
    (startCommand 2#32 (filled tEx)).status.busy = true ∧
    ((decStart (readyEx [])).held = none ∧ (decStart (readyEx [])).status.busy = true ∧
      (unitStep (decStart (readyEx []))).status.busy = false) ∧
    ((ldtStart (filled tEx)).held = none ∧ (unitStep (ldtStart (filled tEx))).status.busy = true) ∧
    ((before (.startCmd true 1#32) builtEx).status.busy = false ∧
      (before (.startCmd true 1#32) builtEx).port = .startCmd true 1#32 :: []) ∧
    (before (.wait true) builtEx).port = .wait true :: [] := by
  decide

/-- Two different states, with everything valid, that agree on all that is specified. -/
theorem witness_UnspecifiedContentsNeverMatter : ∃ s t : State, s ≠ t ∧ s.status.busy = false ∧
    s.status.outValid = true ∧ s.status.mapValid = true ∧ SameSpecified s t :=
  let s := answer (exec .dec (readyEx [0x0A, 0xB9]))
  ⟨s, { s with freeCtr := s.freeCtr + 1 }, fun h => absurd (congrArg State.freeCtr h) (by simp), by decide,
    by decide, by decide,
    ⟨rfl, rfl, rfl, rfl, rfl, rfl, rfl, rfl, rfl, fun _ _ => rfl, fun _ => ⟨rfl, rfl⟩, fun _ _ _ _ => rfl,
      fun _ _ _ _ _ _ => rfl, fun _ _ _ _ _ _ => rfl, fun _ _ _ => rfl⟩⟩

/-- Two states whose stores differ and whose flags say that none of it is valid. -/
theorem witness_SpecifiedPartsReadAlike : ∃ s t : State, s.ht.cnt ≠ t.ht.cnt ∧ s.obuf ≠ t.obuf ∧
    s.cmap ≠ t.cmap ∧ SameSpecified s t :=
  let s := filled tEx
  ⟨s, { s with ht := { s.ht with cnt := store [1] }, obuf := store [2], cmap := .empty },
    by decide, by decide, by decide,
    ⟨rfl, rfl, rfl, rfl, rfl, rfl, rfl, rfl, rfl, fun _ _ => rfl, fun h => (nomatch h), fun h => (nomatch h),
      fun h => (nomatch h), fun h => (nomatch h), fun h => (nomatch h)⟩⟩

/-- Idle blocks whose command then runs step by step, one for each of the three units. -/
theorem witness_LdtStepsReachTheOperation :
    (filled tEx).Idle ∧ (ldtStart (filled tEx)).status.busy = true := ⟨⟨rfl, ⟨rfl, rfl, rfl⟩, rfl⟩, rfl⟩

theorem witness_BldStepsReachTheOperation :
    (tabled 1#1 1#1 bucketsEx).Idle ∧ (bldStart (tabled 1#1 1#1 bucketsEx)).status.busy = true :=
  ⟨⟨rfl, ⟨rfl, rfl, rfl⟩, rfl⟩, rfl⟩

theorem witness_DecStepsReachTheOperation :
    (mapped mapEx [0x0A]).Idle ∧ (mapped mapEx [0x0A]).ibufSize ≤ Config.ibufSizeMax ∧
    (decStart (mapped mapEx [0x0A])).status.busy = true := ⟨⟨rfl, ⟨rfl, rfl, rfl⟩, rfl⟩, by decide, by decide⟩

end Sys2Proof.Tests
end

namespace Sys2Proof

/-! ### The decoder answers commands only (R91, R93) -/

theorem wf_of_formatZ {w : Word} {i j : Instr} (hi : i.wf = true) (h : formatZ w i = .ok j) :
    j.wf = true := by
  unfold formatZ at h
  split at h
  · exact Except.ok.inj h ▸ hi
  · cases h

theorem wf_of_formatK {w : Word} {i : Instr} (h : formatK w = .ok i) : i.wf = true := by
  unfold formatK at h
  split at h
  · split at h
    · next hlen => exact Except.ok.inj h ▸ hlen
    · cases h
  · cases h

/-- A decoded command is well-formed: LKP's LEN is 1..16. -/
theorem wf_of_decodeCmd {w : Word} {i : Instr} (h : decodeCmd w = .ok i) : i.wf = true := by
  unfold decodeCmd at h
  split_ifs at h
  · exact wf_of_formatZ rfl h
  · exact wf_of_formatZ rfl h
  · exact wf_of_formatZ rfl h
  · exact wf_of_formatZ rfl h
  · exact wf_of_formatK h

theorem legalLen_iff (len : BitVec 5) : legalLen len = true ↔ 1 ≤ len.toNat ∧ len.toNat ≤ 16 := by
  simp [legalLen]

end Sys2Proof

namespace Sys2Proof.Machine

/-! ### HT after a load, byte by byte: the layout of R95 -/

theorem bytesAt_take (buf : Nat → Byte) (p : Nat) {j k : Nat} (h : j ≤ k) :
    (bytesAt buf p k).take j = bytesAt buf p j := by
  rw [bytesAt, ← List.map_take, List.take_range, Nat.min_eq_left h, bytesAt]

/-- Bucket `L` of a definition: the `buf L` bytes after the header and the symbols of the shorter
lengths. -/
theorem bucketsAt_definition (buf : Nat → Byte) {L : Nat} (h1 : 1 ≤ L) (h16 : L ≤ 16)
    (hk : L - 1 < (bucketsAt buf 17 (bytesAt buf 1 16)).length) :
    (bucketsAt buf 17 (bytesAt buf 1 16))[L - 1] =
      bytesAt buf (17 + sumCounts (fun L => (buf L).toNat) (L - 1)) (buf L).toNat := by
  rw [bucketsAt_getElem, bytesAt_getElem, bytesAt_take _ _ (by omega), symbolsOf_bytesAt,
    Nat.add_sub_cancel' h1]

/-- The counts of a loaded table are the count bytes of the definition. -/
theorem count_load_of_parse (h : HuffTable) {buf : Nat → Byte} {n L : Nat} {d : TableDef}
    (hp : parse buf n = .ok d) (h1 : 1 ≤ L) (h16 : L ≤ 16) : (h.load d).count L = (buf L).toNat := by
  obtain ⟨_, _, rfl⟩ := of_parse_ok hp
  rw [count_load (bytesAt_length _ _ _) h1 h16]
  simp only [bytesAt_getElem, Nat.add_sub_cancel' h1]

/-- The symbols of a loaded table are the definition's bytes, bucket after bucket. -/
theorem symbol_load_of_parse (h : HuffTable) {buf : Nat → Byte} {n L i : Nat} {d : TableDef}
    (hp : parse buf n = .ok d) (h1 : 1 ≤ L) (h16 : L ≤ 16) (hi : i < (buf L).toNat) :
    (h.load d).symbol L i = buf (17 + sumCounts (fun L => (buf L).toNat) (L - 1) + i) := by
  obtain ⟨_, _, rfl⟩ := of_parse_ok hp
  have hk : L - 1 < (bucketsAt buf 17 (bytesAt buf 1 16)).length := by
    rw [bucketsAt_length, bytesAt_length]
    omega
  have hbucket := bucketsAt_definition buf h1 h16 hk
  have hlen : i < (bucketsAt buf 17 (bytesAt buf 1 16))[L - 1].length := by
    rwa [hbucket, bytesAt_length]
  show (writeBuckets h.sym 1 (bucketsAt buf 17 (bytesAt buf 1 16))).read .htSym (symKey L i) = _
  rw [read_writeBuckets (bucketsAt_small _ _ _) h1 hk hlen]
  simp only [hbucket, bytesAt_getElem]

/-! ### What the commands look at is specified

`parse`, `build`, `decode` and a lookup answer alike in two blocks that agree on everything specified. -/

section
variable {s t : State} (h : SameSpecified s t)
include h

theorem SameSpecified.inCount_eq : s.inCount = t.inCount := congrArg BitVec.toNat h.inLen

theorem SameSpecified.inCount_le_iff : s.inCount ≤ s.ibufSize ↔ t.inCount ≤ t.ibufSize := by
  rw [h.inCount_eq, h.ibufSize]

theorem SameSpecified.parse_eq (hn : s.inCount ≤ s.ibufSize) :
    parse s.ibufAt s.inCount = parse t.ibufAt t.inCount := by
  rw [← h.inCount_eq]
  exact parse_congr fun i hi => h.ibuf i (hi.trans_le hn)

theorem SameSpecified.bucket_eq (hv : s.status.tblValid = true) {L : Nat} (h1 : 1 ≤ L) (h16 : L ≤ 16) :
    s.ht.bucket L = t.ht.bucket L := by
  rw [HuffTable.bucket, HuffTable.bucket, ← h.counts hv L h1 h16]
  exact List.map_congr_left fun i hi => h.symbols hv L h1 h16 i (List.mem_range.1 hi)

theorem SameSpecified.build_eq (hv : s.status.tblValid = true) :
    build s.ht.bucket = build t.ht.bucket :=
  build_congr fun _ h1 h16 => h.bucket_eq hv h1 h16

theorem SameSpecified.decode_eq (hm : s.status.mapValid = true) (hn : s.inCount ≤ s.ibufSize) :
    decode s.cmap.lookup s.ibufAt s.inCount = decode t.cmap.lookup t.ibufAt t.inCount := by
  rw [← h.inCount_eq]
  exact decode_congr (fun i hi => h.ibuf i (hi.trans_le hn)) (h.cmap hm)

/-! ### Each named update keeps the agreement -/

theorem SameSpecified.after_accept : SameSpecified (accept s) (accept t) :=
  { h with status := by simp [h.status] }

theorem SameSpecified.after_succeed : SameSpecified (succeed s) (succeed t) :=
  { h with status := by simp [h.status] }

theorem SameSpecified.after_raiseFail (c : ErrCode) : SameSpecified (raiseFail c s) (raiseFail c t) :=
  { h with status := by simp [h.status] }

theorem SameSpecified.after_lkpRes (v : Word) :
    SameSpecified { s with lkpRes := v } { t with lkpRes := v } :=
  { h with lkpRes := rfl }

theorem SameSpecified.after_clrBody : SameSpecified (clrBody s) (clrBody t) :=
  { h with
    status := rfl, inLen := rfl, outLen := rfl, bitPos := rfl, bitRem := rfl, tdefEnd := rfl
    lkpRes := rfl, identity := nofun, counts := nofun, symbols := nofun, cmap := nofun, obuf := nofun }

theorem SameSpecified.after_ldtAccept : SameSpecified (ldtAccept s) (ldtAccept t) :=
  { h with
    status := by simp [h.status]
    tdefEnd := rfl, identity := nofun, counts := nofun, symbols := nofun, cmap := nofun }

/-- With TBL_VALID at 0 nothing of HT is specified, so HT may be given up. -/
theorem SameSpecified.after_ldtFail (c : ErrCode) (hv : s.status.tblValid = false) :
    SameSpecified (ldtFail c s) (ldtFail c t) :=
  { h with
    status := by simp [h.status]
    identity := fun hv' => nomatch hv.symm.trans hv'
    counts := fun hv' => nomatch hv.symm.trans hv'
    symbols := fun hv' => nomatch hv.symm.trans hv' }

/-- Two tables loaded with one definition agree below the counts, whatever they held before. -/
theorem SameSpecified.after_ldtDone (fin : Word) {buf : Nat → Byte} {n : Nat} {d : TableDef}
    (hp : parse buf n = .ok d) :
    SameSpecified (ldtDone fin { s with ht := s.ht.load d }) (ldtDone fin { t with ht := t.ht.load d }) :=
  { h with
    status := by simp [h.status]
    tdefEnd := rfl
    identity := fun _ => ⟨rfl, rfl⟩
    counts := fun _ L h1 h16 =>
      (count_load_of_parse s.ht hp h1 h16).trans (count_load_of_parse t.ht hp h1 h16).symm
    symbols := fun _ L h1 h16 i hi => by
      have hi' : i < (buf L).toNat := count_load_of_parse s.ht hp h1 h16 ▸ hi
      exact (symbol_load_of_parse s.ht hp h1 h16 hi').trans (symbol_load_of_parse t.ht hp h1 h16 hi').symm }

theorem SameSpecified.after_bldAccept : SameSpecified (bldAccept s) (bldAccept t) :=
  { h with status := by simp [h.status], cmap := nofun }

/-- With MAP_VALID at 0 nothing of CMAP is specified, so CMAP may be given up. -/
theorem SameSpecified.after_bldFail (c : ErrCode) (hm : s.status.mapValid = false) :
    SameSpecified (bldFail c s) (bldFail c t) :=
  { h with status := by simp [h.status], cmap := fun hm' => nomatch hm.symm.trans hm' }

theorem SameSpecified.after_bldDone (m : CodeMap) :
    SameSpecified (bldDone { s with cmap := m }) (bldDone { t with cmap := m }) :=
  { h with status := by simp [h.status], cmap := fun _ _ _ _ _ _ => rfl }

theorem SameSpecified.after_decAccept : SameSpecified (decAccept s) (decAccept t) :=
  { h with
    status := by simp [h.status]
    outLen := rfl, bitPos := rfl, bitRem := rfl, obuf := nofun }

/-- With OUT_VALID at 0 nothing of OBUF is specified, so OBUF may be given up. -/
theorem SameSpecified.after_decFail (c : ErrCode) (ho : s.status.outValid = false) :
    SameSpecified (decFail c s) (decFail c t) :=
  { h with status := by simp [h.status], obuf := fun ho' => nomatch ho.symm.trans ho' }

theorem SameSpecified.after_decNoCode (cur rem : Word) (ho : s.status.outValid = false) :
    SameSpecified (decNoCode cur rem s) (decNoCode cur rem t) :=
  { h with
    status := by simp [h.status]
    bitPos := rfl, bitRem := rfl, obuf := fun ho' => nomatch ho.symm.trans ho' }

/-- OBUF agrees below OUT_LEN: OUT_LEN, a 32-bit word, is at most the number of symbols written. -/
theorem SameSpecified.after_decDone (out : List Byte) (cur : Word) :
    SameSpecified
      (decDone (BitVec.ofNat 32 out.length) cur { s with obuf := s.obuf.writeList 0 out })
      (decDone (BitVec.ofNat 32 out.length) cur { t with obuf := t.obuf.writeList 0 out }) :=
  { h with
    status := by simp [h.status]
    outLen := rfl, bitPos := rfl, bitRem := rfl
    obuf := fun _ i hi => by
      have hlt : i < (BitVec.ofNat 32 out.length).toNat := hi
      have hlen : i < out.length := by
        rw [BitVec.toNat_ofNat] at hlt
        exact hlt.trans_le (Nat.mod_le _ _)
      have hin : 0 ≤ i ∧ i < 0 + out.length := by omega
      show (s.obuf.writeList 0 out).read .obuf i = (t.obuf.writeList 0 out).read .obuf i
      rw [Memory.read_writeList, Memory.read_writeList, dif_pos hin, dif_pos hin] }

/-! ### Each command after its acceptance -/

theorem SameSpecified.after_ldtBody (hv : s.status.tblValid = false) :
    SameSpecified (ldtBody s) (ldtBody t) := by
  by_cases hn : s.inCount ≤ s.ibufSize
  · have hn' : t.inCount ≤ t.ibufSize := h.inCount_le_iff.1 hn
    have hparse := h.parse_eq hn
    cases hp : parse s.ibufAt s.inCount with
    | error c =>
      rw [ldtBody_error hn hp, ldtBody_error hn' (hparse ▸ hp)]
      exact h.after_ldtFail c hv
    | ok d =>
      rw [ldtBody_ok hn hp, ldtBody_ok hn' (hparse ▸ hp)]
      exact h.after_ldtDone _ hp
  · have hn' : ¬ t.inCount ≤ t.ibufSize := mt h.inCount_le_iff.2 hn
    rw [ldtBody_len (Nat.lt_of_not_le hn), ldtBody_len (Nat.lt_of_not_le hn')]
    exact h.after_ldtFail .len hv

theorem SameSpecified.after_bldBody (hm : s.status.mapValid = false) :
    SameSpecified (bldBody s) (bldBody t) := by
  cases hv : s.status.tblValid with
  | false =>
    rw [bldBody_noTbl hv, bldBody_noTbl (h.status ▸ hv)]
    exact h.after_bldFail .noTbl hm
  | true =>
    have hv' : t.status.tblValid = true := h.status ▸ hv
    have hbuild := h.build_eq hv
    cases hb : build s.ht.bucket with
    | none =>
      rw [bldBody_overSub hv hb, bldBody_overSub hv' (hbuild ▸ hb)]
      exact h.after_bldFail .overSub hm
    | some m =>
      rw [bldBody_ok hv hb, bldBody_ok hv' (hbuild ▸ hb)]
      exact h.after_bldDone ⟨none, m⟩

theorem SameSpecified.after_decBody (ho : s.status.outValid = false) :
    SameSpecified (decBody s) (decBody t) := by
  cases hm : s.status.mapValid with
  | false =>
    rw [decBody_noMap hm, decBody_noMap (h.status ▸ hm)]
    exact h.after_decFail .noMap ho
  | true =>
    have hm' : t.status.mapValid = true := h.status ▸ hm
    by_cases hn : s.inCount ≤ s.ibufSize
    · have hn' : t.inCount ≤ t.ibufSize := h.inCount_le_iff.1 hn
      have hdecode := h.decode_eq hm hn
      cases hd : decode s.cmap.lookup s.ibufAt s.inCount with
      | error cur =>
        rw [decBody_noCode hm hn hd, decBody_noCode hm' hn' (hdecode ▸ hd), ← h.inCount_eq]
        exact h.after_decNoCode _ _ ho
      | ok r =>
        rw [decBody_ok hm hn hd, decBody_ok hm' hn' (hdecode ▸ hd)]
        exact h.after_decDone r.1 _
    · have hn' : ¬ t.inCount ≤ t.ibufSize := mt h.inCount_le_iff.2 hn
      rw [decBody_len hm (Nat.lt_of_not_le hn), decBody_len hm' (Nat.lt_of_not_le hn')]
      exact h.after_decFail .len ho

/-- LKP's LEN must be legal: what CMAP holds for other lengths is nothing the spec speaks of. -/
theorem SameSpecified.after_lkpBody {len pat : Nat} (h1 : 1 ≤ len) (h16 : len ≤ 16) (hpat : pat < 65536) :
    SameSpecified (lkpBody len pat s) (lkpBody len pat t) := by
  cases hm : s.status.mapValid with
  | false =>
    rw [lkpBody_noMap _ _ hm, lkpBody_noMap _ _ (h.status ▸ hm)]
    exact (h.after_lkpRes _).after_raiseFail .noMap
  | true =>
    have hm' : t.status.mapValid = true := h.status ▸ hm
    have hlookup := h.cmap hm len pat h1 h16 hpat
    cases hl : s.cmap.lookup len pat with
    | none =>
      rw [lkpBody_miss hm hl, lkpBody_miss hm' (hlookup ▸ hl)]
      exact (h.after_lkpRes _).after_succeed
    | some b =>
      rw [lkpBody_hit hm hl, lkpBody_hit hm' (hlookup ▸ hl)]
      exact (h.after_lkpRes _).after_succeed

/-! ### Every accepted word -/

theorem SameSpecified.after_completed {i : Instr} (hi : i.wf = true) :
    SameSpecified (completed i s) (completed i t) := by
  cases i with
  | clr => exact h.after_accept.after_clrBody
  | ldt => exact h.after_ldtAccept.after_ldtBody rfl
  | bld => exact h.after_bldAccept.after_bldBody rfl
  | dec => exact h.after_decAccept.after_decBody rfl
  | lkp len pat =>
    obtain ⟨h1, h16⟩ := (legalLen_iff len).1 hi
    exact h.after_accept.after_lkpBody h1 h16 pat.isLt

theorem SameSpecified.after_illegalBody : SameSpecified (illegalBody s) (illegalBody t) :=
  h.after_accept.after_raiseFail .illCmd

end

theorem runCommand_of_ok {w : Word} {i : Instr} (hw : decodeCmd w = .ok i) (s : State) :
    runCommand w s = .next (completed i s) := by
  rw [runCommand, hw, ← exec_eq]

theorem runCommand_of_error {w : Word} {e : IllegalWord} (hw : decodeCmd w = .error e) (s : State) :
    runCommand w s = .next (illegalBody s) := by
  rw [runCommand, hw]

/-- Settles O52: each command looks at specified contents only, and gives up or overwrites the rest. -/
theorem unspecifiedContentsNeverMatter : Obligations.UnspecifiedContentsNeverMatter := by
  unfold Obligations.UnspecifiedContentsNeverMatter
  intro s t w _ h
  cases hw : decodeCmd w with
  | ok i =>
    exact ⟨_, _, runCommand_of_ok hw s, runCommand_of_ok hw t, h.after_completed (wf_of_decodeCmd hw)⟩
  | error e =>
    exact ⟨_, _, runCommand_of_error hw s, runCommand_of_error hw t, h.after_illegalBody⟩

end Sys2Proof.Machine

namespace Sys2Proof.Machine

/-! ### What the next event does to an idle and to a busy block -/

section
variable {s : State} {rest : List HostEvent}

theorem step_access_idle {a : HostAccess} (hp : s.port = .access a :: rest) (hb : s.status.busy = false) :
    step s = accessIdle a { s with port := rest } := by
  simp [step, hp, hostEvent, hb]

theorem step_access_busy {a : HostAccess} (hp : s.port = .access a :: rest) (hb : s.status.busy = true) :
    step s = .next (accessBusy a { s with port := rest }) := by
  simp [step, hp, hostEvent, hb]

theorem step_startCmd_busy {hold : Bool} {w : Word} (hp : s.port = .startCmd hold w :: rest)
    (hb : s.status.busy = true) : step s = .next (discardWrite { s with port := rest }) := by
  simp [step, hp, hostEvent, hb]

theorem step_startCmd_idle {w : Word} (hp : s.port = .startCmd false w :: rest)
    (hb : s.status.busy = false) : step s = .next (startCommand w { s with port := rest }) := by
  simp [step, hp, hostEvent, hb]

theorem step_startCmd_hold {w : Word} (hp : s.port = .startCmd true w :: rest)
    (hb : s.status.busy = false) : step s = .next (startHeld w { s with port := rest }) := by
  simp [step, hp, hostEvent, hb]

theorem step_wait_hold (hp : s.port = .wait true :: rest) :
    step s = .next (unitStepHeld { s with port := rest }) := by
  simp [step, hp, hostEvent]

end

theorem startCommand_of_ok {w : Word} {i : Instr} (hw : decodeCmd w = .ok i) (s : State) :
    startCommand w s = startInstr i s := by
  rw [startCommand, hw]

theorem startCommand_of_error {w : Word} {e : IllegalWord} (hw : decodeCmd w = .error e) (s : State) :
    startCommand w s = illegalBody s := by
  rw [startCommand, hw]

/-! ### The invariant through every event -/

/-- Reset looks at nothing that a put-off completion could change. -/
theorem hardReset_settled (s : State) : hardReset s.settled = hardReset s := by
  unfold State.settled
  split <;> rfl

theorem inv_hardReset {s : State} (h : s.Inv) : (hardReset s).Inv := by
  rw [← hardReset_settled]
  exact inv_of_sound (sound_hard h.sound) rfl

theorem inv_discardWrite {s : State} (h : s.Inv) : (discardWrite s).Inv :=
  inv_port h s.port s.replies s.freeCtr true

theorem inv_reply {s : State} (h : s.Inv) (v : Reply) : (reply v s).Inv :=
  inv_port h s.port (v :: s.replies) s.freeCtr s.status.ovr

theorem inv_replyBusy {s : State} (h : s.Inv) (v : Reply) : (replyBusy v s).Inv :=
  inv_port h s.port (v :: s.replies) (s.freeCtr + 1) s.status.ovr

theorem inv_inLen {s : State} (h : s.Inv) (hb : s.status.busy = false) (w : Word) :
    ({ s with inLen := w }).Inv :=
  have hs := h.sound_of_idle hb
  inv_write h hb w hs.ibufWf hs.ibufIn

theorem inv_ibufWrite {s : State} (h : s.Inv) (hb : s.status.busy = false) (i : Nat) (b : Byte) :
    (ibufWrite i b s).Inv := by
  have hs := h.sound_of_idle hb
  unfold ibufWrite
  split
  · next hi =>
    exact inv_write h hb s.inLen (Memory.write_wf i b hs.ibufWf)
      (Memory.write_forall (p := fun k => k < s.ibufSize) hs.ibufIn hi)
  · exact h

theorem inv_illegalBody {s : State} (h : s.Inv) (hb : s.status.busy = false) : (illegalBody s).Inv :=
  inv_of_sound (sound_ill (h.sound_of_idle hb) hb) (h.held_of_idle hb)

/-- Settles O51, event by event: what each of them does keeps the invariant. -/
theorem everyStepKeepsTheInvariant : Obligations.EveryStepKeepsTheInvariant := by
  unfold Obligations.EveryStepKeepsTheInvariant
  intro s t h hstep
  obtain ⟨_, rfl⟩ | ⟨e, rest, _, hevent⟩ := step_cases hstep
  · exact inv_unitStep h
  have hr := inv_rest h rest
  obtain ⟨-, rfl⟩ | ⟨-, rfl⟩ | ⟨-, rfl, -⟩ | ⟨v, -, rfl⟩ | ⟨v, -, rfl⟩ | ⟨i, b, hb, -, rfl⟩ |
    ⟨w, hb, -, rfl⟩ | ⟨-, rfl⟩ | ⟨w, hb, -, -, rfl⟩ | ⟨w, i, hb, -, -, rfl⟩ | ⟨w, i, hb, -, -, rfl⟩ |
    ⟨-, rfl⟩ | ⟨w, hb, -, rfl⟩ := hevent
  · exact inv_unitStep hr
  · exact inv_hardReset hr
  · exact inv_discardWrite hr
  · exact inv_replyBusy hr v
  · exact inv_reply hr v
  · exact inv_ibufWrite hr hb i b
  · exact inv_inLen hr hb w
  · exact hr
  · exact inv_illegalBody hr hb
  · exact inv_completed hr hb i
  · exact inv_startInstr hr hb i
  · exact inv_unitStepHeld hr
  · exact inv_startHeld hr hb w

/-- Settles O2: every clause that is not about the legal parameter is empty right after reset. -/
theorem resetMeetsInvariant : Obligations.ResetMeetsInvariant := by
  unfold Obligations.ResetMeetsInvariant
  intro n hpos hmax
  exact inv_of_sound (sound_of_idle ⟨rfl, rfl, rfl⟩ rfl hpos hmax .nil nil_in .nil nil_in .nil nil_in .nil
    nil_in .nil nil_in nofun nofun nofun ⟨fun _ => rfl, fun _ => rfl⟩ (fun _ => rfl) nofun) rfl

/-! ### What a command can complete with -/

/-- Every way a command accepted in `s` can complete, with what led to it (R120, R141, R148, R172, R200):
the command, then the state it completes in. -/
inductive Completion (s : State) : Instr → State → Prop
  | clr : Completion s .clr (clrBody (accept s))
  | ldtLen (hn : s.ibufSize < s.inCount) : Completion s .ldt (ldtFail .len (ldtAccept s))
  | ldtError (c : ErrCode) (hn : s.inCount ≤ s.ibufSize) (hp : parse s.ibufAt s.inCount = .error c) :
    Completion s .ldt (ldtFail c (ldtAccept s))
  | ldtDone (d : TableDef) (hn : s.inCount ≤ s.ibufSize) (hp : parse s.ibufAt s.inCount = .ok d) :
    Completion s .ldt
      (ldtDone (BitVec.ofNat 32 d.fin) { ldtAccept s with ht := (ldtAccept s).ht.load d })
  | bldNoTbl (hv : s.status.tblValid = false) : Completion s .bld (bldFail .noTbl (bldAccept s))
  | bldOverSub (hv : s.status.tblValid = true) (hm : build s.ht.bucket = none) :
    Completion s .bld (bldFail .overSub (bldAccept s))
  | bldDone (m : List Host.Cell) (hv : s.status.tblValid = true) (hm : build s.ht.bucket = some m) :
    Completion s .bld (bldDone { bldAccept s with cmap := ⟨none, m⟩ })
  | decNoMap (hv : s.status.mapValid = false) : Completion s .dec (decFail .noMap (decAccept s))
  | decLen (hv : s.status.mapValid = true) (hn : s.ibufSize < s.inCount) :
    Completion s .dec (decFail .len (decAccept s))
  | decNoCode (cur : Nat) (hv : s.status.mapValid = true) (hn : s.inCount ≤ s.ibufSize)
    (hd : decode s.cmap.lookup s.ibufAt s.inCount = .error cur) :
    Completion s .dec
      (decNoCode (BitVec.ofNat 32 cur) (BitVec.ofNat 32 (8 * s.inCount - cur)) (decAccept s))
  | decDone (out : List Byte) (cur : Nat) (hv : s.status.mapValid = true) (hn : s.inCount ≤ s.ibufSize)
    (hd : decode s.cmap.lookup s.ibufAt s.inCount = .ok (out, cur)) :
    Completion s .dec
      (decDone (BitVec.ofNat 32 out.length) (BitVec.ofNat 32 cur)
        { decAccept s with obuf := (decAccept s).obuf.writeList 0 out })
  | lkpNoMap (len : BitVec 5) (pat : BitVec 16) (hv : s.status.mapValid = false) :
    Completion s (.lkp len pat) (raiseFail .noMap { accept s with lkpRes := lkpMiss })
  | lkpMiss (len : BitVec 5) (pat : BitVec 16) (hv : s.status.mapValid = true)
    (hl : s.cmap.lookup len.toNat pat.toNat = none) :
    Completion s (.lkp len pat) (succeed { accept s with lkpRes := lkpMiss })
  | lkpHit (len : BitVec 5) (pat : BitVec 16) (b : Byte) (hv : s.status.mapValid = true)
    (hl : s.cmap.lookup len.toNat pat.toNat = some b) :
    Completion s (.lkp len pat) (succeed { accept s with lkpRes := lkpHit b })

/-- These are all the completions there are. -/
theorem completion_completed (i : Instr) (s : State) : Completion s i (completed i s) := by
  cases i with
  | clr => exact .clr
  | ldt =>
    show Completion s .ldt (ldtBody (ldtAccept s))
    by_cases hn : s.inCount ≤ s.ibufSize
    · cases hp : parse s.ibufAt s.inCount with
      | error c => exact ldtBody_error (s := ldtAccept s) hn hp ▸ .ldtError c hn hp
      | ok d => exact ldtBody_ok (s := ldtAccept s) hn hp ▸ .ldtDone d hn hp
    · have hn : s.ibufSize < s.inCount := Nat.lt_of_not_le hn
      exact ldtBody_len (s := ldtAccept s) hn ▸ .ldtLen hn
  | bld =>
    show Completion s .bld (bldBody (bldAccept s))
    cases hv : s.status.tblValid with
    | false => exact bldBody_noTbl (s := bldAccept s) hv ▸ .bldNoTbl hv
    | true =>
      cases hm : build s.ht.bucket with
      | none => exact bldBody_overSub (s := bldAccept s) hv hm ▸ .bldOverSub hv hm
      | some m => exact bldBody_ok (s := bldAccept s) hv hm ▸ .bldDone m hv hm
  | dec =>
    show Completion s .dec (decBody (decAccept s))
    cases hv : s.status.mapValid with
    | false => exact decBody_noMap (s := decAccept s) hv ▸ .decNoMap hv
    | true =>
      by_cases hn : s.inCount ≤ s.ibufSize
      · cases hd : decode s.cmap.lookup s.ibufAt s.inCount with
        | error cur => exact decBody_noCode (s := decAccept s) hv hn hd ▸ .decNoCode cur hv hn hd
        | ok r => exact decBody_ok (s := decAccept s) hv hn hd ▸ .decDone r.1 r.2 hv hn hd
      · have hn : s.ibufSize < s.inCount := Nat.lt_of_not_le hn
        exact decBody_len (s := decAccept s) hv hn ▸ .decLen hv hn
  | lkp len pat =>
    show Completion s _ (lkpBody (lkpLen len) (lkpPat pat) (accept s))
    cases hv : s.status.mapValid with
    | false => exact lkpBody_noMap (s := accept s) _ _ hv ▸ .lkpNoMap len pat hv
    | true =>
      cases hl : s.cmap.lookup len.toNat pat.toNat with
      | none => exact lkpBody_miss (s := accept s) hv hl ▸ .lkpMiss len pat hv hl
      | some b => exact lkpBody_hit (s := accept s) hv hl ▸ .lkpHit len pat b hv hl

theorem completion_of_exec {i : Instr} {s t : State} (h : exec i s = .next t) : Completion s i t := by
  rw [exec_eq] at h
  cases h
  exact completion_completed i s

/-! ### IN_LEN, OVR and IBUF_SIZE -/

/-- IN_LEN, OVR and IBUF_SIZE are as they were: true of all a block does but CLR and reset. -/
structure RegFrame (s t : State) : Prop where
  inLen : t.inLen = s.inLen
  ovr : t.status.ovr = s.status.ovr
  ibufSize : t.ibufSize = s.ibufSize

theorem RegFrame.rfl {s : State} : RegFrame s s := ⟨Eq.refl _, Eq.refl _, Eq.refl _⟩

theorem UnitFrame.regFrame {s t : State} (h : UnitFrame s t) : RegFrame s t := ⟨h.inLen, h.ovr, h.ibufSize⟩

theorem Completion.regFrame {i : Instr} {s t : State} (h : Completion s i t) (hi : i ≠ .clr) :
    RegFrame s t := by
  cases h with
  | clr => exact absurd rfl hi
  | _ => exact ⟨rfl, rfl, rfl⟩

theorem ldtStart_regFrame (s : State) : RegFrame s (ldtStart s) := by
  unfold ldtStart
  dsimp only
  split <;> exact ⟨rfl, rfl, rfl⟩

theorem bldStart_regFrame (s : State) : RegFrame s (bldStart s) := by
  unfold bldStart
  dsimp only
  split <;> exact ⟨rfl, rfl, rfl⟩

theorem decStart_regFrame (s : State) : RegFrame s (decStart s) := by
  unfold decStart
  dsimp only
  split
  · split <;> exact ⟨rfl, rfl, rfl⟩
  · exact ⟨rfl, rfl, rfl⟩

theorem startInstr_regFrame {i : Instr} (hi : i ≠ .clr) (s : State) : RegFrame s (startInstr i s) := by
  cases i with
  | clr => exact absurd rfl hi
  | ldt => exact ldtStart_regFrame s
  | bld => exact bldStart_regFrame s
  | dec => exact decStart_regFrame s
  | lkp len pat => exact (completion_completed (.lkp len pat) s).regFrame hi

/-- A word that is not CLR's keeps the three, illegal or not. -/
theorem startCommand_regFrame {w : Word} (hw : decodeCmd w ≠ .ok .clr) (s : State) :
    RegFrame s (startCommand w s) := by
  cases hd : decodeCmd w with
  | ok i =>
    rw [startCommand_of_ok hd]
    exact startInstr_regFrame (fun hi => hw (hi ▸ hd)) s
  | error e =>
    rw [startCommand_of_error hd]
    exact ⟨rfl, rfl, rfl⟩

theorem startCommand_clr {w : Word} (hw : decodeCmd w = .ok .clr) (s : State) :
    startCommand w s = clrBody (accept s) :=
  startCommand_of_ok hw s

/-- A step of a block left alone keeps the three but where it completes a CLR that was put off. -/
theorem unitStep_regFrame_or_clr (s : State) : RegFrame s (unitStep s) ∨
    ∃ w, s.status.busy = true ∧ s.held = some (.accepted w) ∧ decodeCmd w = .ok .clr ∧
      unitStep s = clrBody (accept { s with held := none }) := by
  cases hb : s.status.busy with
  | false =>
    rw [unitStep_of_idle hb]
    exact .inl .rfl
  | true =>
    cases hh : s.held with
    | none => exact .inl (unitStep_frame hh).regFrame
    | some x =>
      rw [unitStep_of_held hb hh]
      cases x with
      | result r => exact .inl ⟨rfl, rfl, rfl⟩
      | accepted w =>
        by_cases hw : decodeCmd w = .ok .clr
        · exact .inr ⟨w, rfl, rfl, hw, startCommand_clr hw _⟩
        · obtain ⟨hinLen, hovr, hsize⟩ := startCommand_regFrame hw { s with held := none }
          exact .inl ⟨hinLen, hovr, hsize⟩

theorem unitStepHeld_regFrame (s : State) : RegFrame s (unitStepHeld s) := by
  rcases unitStepHeld_cases s with ⟨_, e⟩ | ⟨hh, _, _, e⟩ | ⟨hh, _, e⟩ <;> rw [e]
  · exact .rfl
  · exact ⟨(unitStep_frame hh).inLen, rfl, (unitStep_frame hh).ibufSize⟩
  · exact (unitStep_frame hh).regFrame

/-- A CLR whose completion may be put off is put off, so an acceptance alone keeps the three. -/
theorem startHeld_regFrame (w : Word) (s : State) : RegFrame s (startHeld w s) := by
  rcases startHeld_cases w s with ⟨hb, e⟩ | ⟨_, e⟩ <;> rw [e]
  · refine startCommand_regFrame (fun hw => ?_) s
    rw [startCommand_clr hw] at hb
    cases hb
  · exact ⟨rfl, rfl, rfl⟩

theorem ibufWrite_regFrame (i : Nat) (b : Byte) (s : State) : RegFrame s (ibufWrite i b s) := by
  unfold ibufWrite
  split <;> exact ⟨rfl, rfl, rfl⟩

/-- The next event is a write of CLR's word to an idle block, which completes at once. -/
def ClrWritten (s : State) : Prop :=
  ∃ w rest, (s.port = .access (.regWrite 0 w) :: rest ∨ s.port = .startCmd false w :: rest) ∧
    s.status.busy = false ∧ decodeCmd w = .ok .clr

/-- A CLR was put off, and what comes next lets it complete. -/
def ClrReleased (s : State) : Prop :=
  ∃ w, (s.port = [] ∨ ∃ rest, s.port = .wait false :: rest) ∧ s.status.busy = true ∧
    s.held = some (.accepted w) ∧ decodeCmd w = .ok .clr

/-- The next event is a host write, of a register, of IBUF or of a command at the step level. -/
def WritesNext (s : State) : Prop :=
  ∃ rest, (∃ r w, s.port = .access (.regWrite r w) :: rest) ∨
    (∃ i b, s.port = .access (.ibufWrite i b) :: rest) ∨ ∃ hold w, s.port = .startCmd hold w :: rest

/-- What a step can do to IN_LEN and OVR. -/
inductive RegEffect (s t : State) : Prop
  | kept (hinLen : t.inLen = s.inLen) (hovr : t.status.ovr = s.status.ovr)
  | discarded (hb : s.status.busy = true) (hw : WritesNext s) (hinLen : t.inLen = s.inLen)
    (hovr : t.status.ovr = true)
  | written (w : Word) (rest : List HostEvent) (hp : s.port = .access (.regWrite 2 w) :: rest)
    (hb : s.status.busy = false) (hinLen : t.inLen = w) (hovr : t.status.ovr = s.status.ovr)
  | cleared (hc : ClrWritten s ∨ ClrReleased s) (hinLen : t.inLen = 0#32) (hovr : t.status.ovr = false)
  | reset (rest : List HostEvent) (hp : s.port = .hwReset :: rest) (hinLen : t.inLen = 0#32)
    (hovr : t.status.ovr = false)

/-- IBUF_SIZE as it was, and one of the things that a step can do to IN_LEN and OVR. -/
def StepRegs (s t : State) : Prop := t.ibufSize = s.ibufSize ∧ RegEffect s t

theorem RegFrame.stepRegs {s t : State} {p : List HostEvent} (h : RegFrame (s.withPort p) t) :
    StepRegs s t :=
  ⟨h.ibufSize, .kept h.inLen h.ovr⟩

theorem stepRegs_unitStep {s : State} {p : List HostEvent}
    (hp : s.port = [] ∨ ∃ rest, s.port = .wait false :: rest) : StepRegs s (unitStep (s.withPort p)) := by
  obtain h | ⟨w, hb, hh, hw, e⟩ := unitStep_regFrame_or_clr (s.withPort p)
  · exact h.stepRegs
  · rw [e]
    exact ⟨rfl, .cleared (.inr ⟨w, hp, hb, hh, hw⟩) rfl rfl⟩

theorem stepRegs_of_step {s t : State} (h : step s = .next t) : StepRegs s t := by
  obtain ⟨hp, rfl⟩ | ⟨e, rest, hp, hevent⟩ := step_cases h
  · exact stepRegs_unitStep (p := s.port) (.inl hp)
  obtain ⟨rfl, rfl⟩ | ⟨rfl, rfl⟩ | ⟨hb, rfl, hw⟩ | ⟨v, -, rfl⟩ | ⟨v, -, rfl⟩ | ⟨i, b, -, -, rfl⟩ |
    ⟨w, hb, rfl, rfl⟩ | ⟨-, rfl⟩ | ⟨w, -, -, -, rfl⟩ | ⟨w, i, hb, rfl, hd, rfl⟩ |
    ⟨w, i, hb, rfl, hd, rfl⟩ | ⟨-, rfl⟩ | ⟨w, -, -, rfl⟩ := hevent
  · exact stepRegs_unitStep (.inr ⟨rest, hp⟩)
  · exact ⟨rfl, .reset rest hp rfl rfl⟩
  · refine ⟨rfl, .discarded hb ⟨rest, ?_⟩ rfl rfl⟩
    obtain ⟨r, w, rfl⟩ | ⟨i, b, rfl⟩ | ⟨hold, w, rfl⟩ := hw
    · exact .inl ⟨r, w, hp⟩
    · exact .inr (.inl ⟨i, b, hp⟩)
    · exact .inr (.inr ⟨hold, w, hp⟩)
  · exact ⟨rfl, .kept rfl rfl⟩
  · exact ⟨rfl, .kept rfl rfl⟩
  · exact (ibufWrite_regFrame i b _).stepRegs
  · exact ⟨rfl, .written w rest hp hb rfl rfl⟩
  · exact ⟨rfl, .kept rfl rfl⟩
  · exact ⟨rfl, .kept rfl rfl⟩
  · by_cases hi : i = .clr
    · subst hi
      exact ⟨rfl, .cleared (.inl ⟨w, rest, .inl hp, hb, hd⟩) rfl rfl⟩
    · exact ((completion_completed i _).regFrame hi).stepRegs
  · by_cases hi : i = .clr
    · subst hi
      exact ⟨rfl, .cleared (.inl ⟨w, rest, .inr hp, hb, hd⟩) rfl rfl⟩
    · exact (startInstr_regFrame hi _).stepRegs
  · exact (unitStepHeld_regFrame _).stepRegs
  · exact (startHeld_regFrame w _).stepRegs

/-- Settles O47: of what a step can do to IN_LEN, a write to it, CLR and reset change it. -/
theorem inLenChangesOnlyByHostClrReset : Obligations.InLenChangesOnlyByHostClrReset := by
  unfold Obligations.InLenChangesOnlyByHostClrReset
  intro s t h hne
  cases (stepRegs_of_step h).2 with
  | kept hinLen _ | discarded _ _ hinLen _ => exact absurd hinLen hne
  | written w rest hp hb hinLen _ => exact .inl ⟨w, rest, hp, hb, hinLen⟩
  | cleared hc hinLen _ =>
    obtain ⟨w, rest, hp, hb, hw⟩ | ⟨w, hp, hb, hh, hw⟩ := hc
    · exact .inr (.inl ⟨w, rest, hp, hb, hw, hinLen⟩)
    · exact .inr (.inr (.inl ⟨w, hp, hb, hh, hw, hinLen⟩))
  | reset rest hp hinLen _ => exact .inr (.inr (.inr ⟨rest, hp, hinLen⟩))

/-- Settles O48: of what a step can do to OVR, CLR and reset clear it and a discarded write sets it. -/
theorem ovrIsSticky : Obligations.OvrIsSticky := by
  unfold Obligations.OvrIsSticky
  intro s t h
  cases (stepRegs_of_step h).2 with
  | kept _ hovr | written _ _ _ _ _ hovr =>
    rw [hovr]
    exact ⟨fun h1 h0 => (nomatch h1.symm.trans h0), fun h0 h1 => (nomatch h0.symm.trans h1)⟩
  | discarded hb hw _ hovr => exact ⟨fun _ h0 => (nomatch hovr.symm.trans h0), fun _ _ => ⟨hb, hw⟩⟩
  | cleared hc _ hovr =>
    exact ⟨fun _ _ => hc.imp id .inl, fun _ h1 => (nomatch hovr.symm.trans h1)⟩
  | reset rest hp _ hovr =>
    exact ⟨fun _ _ => .inr (.inr ⟨rest, hp⟩), fun _ h1 => (nomatch hovr.symm.trans h1)⟩

/-- Settles O50: every step keeps IBUF_SIZE, and both ways to read CAP answer it. -/
theorem capReadsTheConstantIbufSize : Obligations.CapReadsTheConstantIbufSize := by
  unfold Obligations.CapReadsTheConstantIbufSize
  exact ⟨fun _ _ h => (stepRegs_of_step h).1, fun _ => rfl, fun _ _ => rfl⟩

/-! ### The result registers and the valid flags after a command -/

theorem Completion.decRegs {i : Instr} {s t : State} (h : Completion s i t) (hdec : i ≠ .dec)
    (hclr : i ≠ .clr) : t.outLen = s.outLen ∧ t.bitPos = s.bitPos ∧ t.bitRem = s.bitRem := by
  cases h with
  | clr => exact absurd rfl hclr
  | decNoMap _ | decLen _ _ | decNoCode _ _ _ _ | decDone _ _ _ _ _ => exact absurd rfl hdec
  | _ => exact ⟨rfl, rfl, rfl⟩

theorem Completion.tdefEnd {i : Instr} {s t : State} (h : Completion s i t) (hldt : i ≠ .ldt)
    (hclr : i ≠ .clr) : t.tdefEnd = s.tdefEnd := by
  cases h with
  | clr => exact absurd rfl hclr
  | ldtLen _ | ldtError _ _ _ | ldtDone _ _ _ => exact absurd rfl hldt
  | _ => rfl

theorem Completion.lkpRes {i : Instr} {s t : State} (h : Completion s i t)
    (hi : i = .ldt ∨ i = .bld ∨ i = .dec) : t.lkpRes = s.lkpRes := by
  cases h with
  | clr | lkpNoMap _ _ _ | lkpMiss _ _ _ _ | lkpHit _ _ _ _ _ => simp at hi
  | _ => rfl

/-- TBL_VALID after a command, from ERR and from what it was: R23's columns for the commands. -/
def tblValidAfter : Instr → (err old : Bool) → Bool
  | .clr, _, _ => false
  | .ldt, err, _ => !err
  | _, _, old => old

/-- MAP_VALID after a command (R23). -/
def mapValidAfter : Instr → (err old : Bool) → Bool
  | .clr, _, _ => false
  | .ldt, _, _ => false
  | .bld, err, _ => !err
  | _, _, old => old

/-- OUT_VALID after a command (R23). -/
def outValidAfter : Instr → (err old : Bool) → Bool
  | .clr, _, _ => false
  | .dec, err, _ => !err
  | _, _, old => old

theorem Completion.tblValid {i : Instr} {s t : State} (h : Completion s i t) :
    t.status.tblValid = tblValidAfter i t.status.err s.status.tblValid := by
  cases h <;> rfl

theorem Completion.mapValid {i : Instr} {s t : State} (h : Completion s i t) :
    t.status.mapValid = mapValidAfter i t.status.err s.status.mapValid := by
  cases h <;> rfl

theorem Completion.outValid {i : Instr} {s t : State} (h : Completion s i t) :
    t.status.outValid = outValidAfter i t.status.err s.status.outValid := by
  cases h <;> rfl

/-- Settles O49: each command leaves each flag at what R23's table says. -/
theorem validFlagsBelongToTheirCommands : Obligations.ValidFlagsBelongToTheirCommands := by
  unfold Obligations.ValidFlagsBelongToTheirCommands
  intro i s t h
  have hc := completion_of_exec h
  rw [hc.tblValid, hc.mapValid, hc.outValid]
  cases i <;> simp +contextual [tblValidAfter, mapValidAfter, outValidAfter]

/-- The 32-bit words that DEC leaves in its registers lose nothing, up to eight bits for each byte of the
largest legal IBUF (R6). -/
theorem toNat_ofNat_of_le_bits {x n m : Nat} (hx : x ≤ 8 * n) (hn : n ≤ m)
    (hm : m ≤ Config.ibufSizeMax) : (BitVec.ofNat 32 x).toNat = x := by
  have hmax : Config.ibufSizeMax = 268435456 := rfl
  rw [BitVec.toNat_ofNat, Nat.mod_eq_of_lt (by omega)]

/-- Settles O32, completion by completion: a DEC that decodes ends at its input's end, and one that finds
no code stops before it. -/
theorem decRecordsLengthCursorAndRemainder : Obligations.DecRecordsLengthCursorAndRemainder := by
  unfold Obligations.DecRecordsLengthCursorAndRemainder
  intro i s t hmax h
  have hc := completion_of_exec h
  refine ⟨?_, ?_, ?_, fun hdec hclr => hc.decRegs hdec hclr, rfl, rfl, rfl⟩
  · rintro rfl herr
    cases hc with
    | decNoMap _ | decLen _ _ | decNoCode _ _ _ _ => cases herr
    | decDone out cur _ hn hd =>
      obtain ⟨rfl, hlen⟩ := decode_ok_bounds hd
      exact ⟨out, hd, toNat_ofNat_of_le_bits hlen hn hmax, hlen, toNat_ofNat_of_le_bits le_rfl hn hmax, rfl⟩
  · rintro rfl herr
    cases hc with
    | decDone _ _ _ _ _ => cases herr
    | decNoMap _ => exact ⟨rfl, .inl ⟨.inl rfl, rfl, rfl⟩⟩
    | decLen _ _ => exact ⟨rfl, .inl ⟨.inr rfl, rfl, rfl⟩⟩
    | decNoCode cur _ hn hd =>
      have hlt := decode_error_lt hd
      have hcur : (BitVec.ofNat 32 cur).toNat = cur := toNat_ofNat_of_le_bits hlt.le hn hmax
      have hrem : (BitVec.ofNat 32 (8 * s.inCount - cur)).toNat = 8 * s.inCount - cur :=
        toNat_ofNat_of_le_bits (Nat.sub_le _ _) hn hmax
      refine ⟨rfl, .inr ⟨rfl, ?_⟩⟩
      rw [decNoCode_bitPos, decNoCode_bitRem, hcur, hrem]
      exact ⟨hd, rfl, by omega⟩
  · rintro rfl
    cases hc
    exact ⟨rfl, rfl, rfl⟩

/-- The length LDT records for a parsed definition: the 17 bytes before the symbols, and the symbols. -/
theorem toNat_fin_of_parse {buf : Nat → Byte} {n : Nat} {d : TableDef} (hp : parse buf n = .ok d)
    (h : HuffTable) :
    (BitVec.ofNat 32 d.fin).toNat = 17 + sumCounts (h.load d).count 16 ∧
      sumCounts (h.load d).count 16 ≤ 16 * 255 := by
  have hsum := sumCounts_count_le (h.load d) 16
  refine ⟨?_, hsum⟩
  have hfin : d.fin = 17 + sumCounts (h.load d).count 16 := by
    obtain ⟨_, _, rfl⟩ := of_parse_ok hp
    rw [sumCounts_load]
  rw [hfin, BitVec.toNat_ofNat, Nat.mod_eq_of_lt (by omega)]

/-- Settles O33, completion by completion; a definition has at most `16 * 255` symbols. -/
theorem tdefEndIsTheDefinitionLength : Obligations.TdefEndIsTheDefinitionLength := by
  unfold Obligations.TdefEndIsTheDefinitionLength
  intro i s t h
  have hc := completion_of_exec h
  refine ⟨?_, ?_, ?_, fun hldt hclr => hc.tdefEnd hldt hclr, rfl⟩
  · rintro rfl herr
    cases hc with
    | ldtLen _ | ldtError _ _ _ => cases herr
    | ldtDone d _ hp =>
      obtain ⟨hlen, hsum⟩ := toNat_fin_of_parse hp (ldtAccept s).ht
      rw [ldtDone_tdefEnd, ldtDone_ht, hlen]
      exact ⟨rfl, by omega, by omega⟩
  · rintro rfl herr
    cases hc with
    | ldtLen _ | ldtError _ _ _ => rfl
    | ldtDone _ _ _ => cases herr
  · rintro rfl
    cases hc
    rfl

/-! ### LKP_RES and STATUS field by field -/

theorem lkpHit_sym (b : Byte) : (lkpHit b).extractLsb' 0 8 = b :=
  BitVec.extractLsb'_append_eq_right

theorem lkpHit_hit (b : Byte) : (lkpHit b).getLsbD 8 = true := by
  unfold lkpHit
  rw [BitVec.getLsbD_append]
  rfl

theorem lkpHit_zeros (b : Byte) : (lkpHit b).extractLsb' 9 23 = 0#23 :=
  (BitVec.extractLsb'_append_eq_of_le (by omega)).trans BitVec.extractLsb'_append_eq_left

/-- Settles O34, completion by completion. -/
theorem lkpResHoldsTheLastProbe : Obligations.LkpResHoldsTheLastProbe := by
  unfold Obligations.LkpResHoldsTheLastProbe
  intro s
  refine ⟨?_, ?_, rfl, fun i t hi h => (completion_of_exec h).lkpRes hi, ?_⟩
  · intro len pat t h
    cases completion_of_exec h with
    | lkpNoMap _ _ _ => exact ⟨nofun, fun _ => ⟨rfl, rfl⟩⟩
    | lkpMiss _ _ _ hl => exact ⟨fun _ => .inr ⟨hl, rfl⟩, nofun⟩
    | lkpHit _ _ b _ hl => exact ⟨fun _ => .inl ⟨b, hl, lkpHit_sym b, lkpHit_hit b, lkpHit_zeros b⟩, nofun⟩
  · intro t h
    cases completion_of_exec h
    rfl
  · intro w e t hw h
    rw [runCommand_of_error hw] at h
    cases h
    rfl

theorem statusWord_flags (code : BitVec 4) (ovr err outV mapV tblV busy : Bool) :
    (statusWord code ovr err outV mapV tblV busy).getLsbD 0 = busy ∧
    (statusWord code ovr err outV mapV tblV busy).getLsbD 1 = tblV ∧
    (statusWord code ovr err outV mapV tblV busy).getLsbD 2 = mapV ∧
    (statusWord code ovr err outV mapV tblV busy).getLsbD 3 = outV ∧
    (statusWord code ovr err outV mapV tblV busy).getLsbD 4 = err ∧
    (statusWord code ovr err outV mapV tblV busy).getLsbD 5 = ovr := by
  simp only [statusWord, BitVec.getLsbD_append]
  simp

theorem statusWord_zeros_low (code : BitVec 4) (ovr err outV mapV tblV busy : Bool) :
    (statusWord code ovr err outV mapV tblV busy).extractLsb' 6 2 = 0#2 := by
  simp (disch := decide) only [statusWord, BitVec.extractLsb'_append_eq_of_le]
  exact BitVec.extractLsb'_append_eq_right

theorem statusWord_code (code : BitVec 4) (ovr err outV mapV tblV busy : Bool) :
    (statusWord code ovr err outV mapV tblV busy).extractLsb' 8 4 = code := by
  simp (disch := decide) only [statusWord, BitVec.extractLsb'_append_eq_of_le]
  exact BitVec.extractLsb'_append_eq_right

theorem statusWord_zeros_high (code : BitVec 4) (ovr err outV mapV tblV busy : Bool) :
    (statusWord code ovr err outV mapV tblV busy).extractLsb' 12 20 = 0#20 := by
  simp (disch := decide) only [statusWord, BitVec.extractLsb'_append_eq_of_le]
  rfl

/-- Settles O37: STATUS is one concatenation of its fields. -/
theorem statusWordLayout : Obligations.StatusWordLayout := by
  unfold Obligations.StatusWordLayout
  intro t
  obtain ⟨h0, h1, h2, h3, h4, h5⟩ :=
    statusWord_flags t.errCode.code t.ovr t.err t.outValid t.mapValid t.tblValid t.busy
  exact ⟨h0, h1, h2, h3, h4, h5, statusWord_zeros_low .., statusWord_code .., statusWord_zeros_high .., rfl⟩

/-! ### The identity of the table -/

/-- The same block with another identity in HT. -/
abbrev State.withIdentity (c d : BitVec 1) (s : State) : State :=
  { s with ht := { s.ht with cls := c, id := d } }

theorem tblId_toNat {s : State} (hv : s.status.tblValid = true) :
    s.tblId.toNat = 2 * s.ht.cls.toNat + s.ht.id.toNat := by
  rw [State.tblId, if_pos hv, toNat_append_fields, toNat_append_fields, BitVec.toNat_ofNat, Nat.zero_mod]
  omega

/-- BLD builds from the counts and symbols alone. -/
theorem bldBody_withIdentity (c d : BitVec 1) (s : State) :
    bldBody (s.withIdentity c d) = (bldBody s).withIdentity c d := by
  cases hv : s.status.tblValid with
  | false =>
    rw [bldBody_noTbl hv, bldBody_noTbl (s := s.withIdentity c d) hv]
    rfl
  | true =>
    cases hm : build s.ht.bucket with
    | none =>
      rw [bldBody_overSub hv hm, bldBody_overSub (s := s.withIdentity c d) hv hm]
      rfl
    | some m =>
      rw [bldBody_ok hv hm, bldBody_ok (s := s.withIdentity c d) hv hm]
      rfl

/-- DEC looks at the map and at IBUF, not at HT. -/
theorem decBody_withIdentity (c d : BitVec 1) (s : State) :
    decBody (s.withIdentity c d) = (decBody s).withIdentity c d := by
  cases hv : s.status.mapValid with
  | false =>
    rw [decBody_noMap hv, decBody_noMap (s := s.withIdentity c d) hv]
    rfl
  | true =>
    by_cases hn : s.inCount ≤ s.ibufSize
    · cases hd : decode s.cmap.lookup s.ibufAt s.inCount with
      | error cur =>
        rw [decBody_noCode hv hn hd, decBody_noCode (s := s.withIdentity c d) hv hn hd]
        rfl
      | ok r =>
        rw [decBody_ok hv hn hd, decBody_ok (s := s.withIdentity c d) hv hn hd]
        rfl
    · have hn : s.ibufSize < s.inCount := Nat.lt_of_not_le hn
      rw [decBody_len hv hn, decBody_len (s := s.withIdentity c d) hv hn]
      rfl

/-- LKP looks at the map, not at HT. -/
theorem lkpBody_withIdentity (c d : BitVec 1) (len pat : Nat) (s : State) :
    lkpBody len pat (s.withIdentity c d) = (lkpBody len pat s).withIdentity c d := by
  cases hv : s.status.mapValid with
  | false =>
    rw [lkpBody_noMap len pat hv, lkpBody_noMap (s := s.withIdentity c d) len pat hv]
    rfl
  | true =>
    cases hl : s.cmap.lookup len pat with
    | none =>
      rw [lkpBody_miss hv hl, lkpBody_miss (s := s.withIdentity c d) hv hl]
      rfl
    | some b =>
      rw [lkpBody_hit hv hl, lkpBody_hit (s := s.withIdentity c d) hv hl]
      rfl

/-- Settles O38: CLR and LDT give HT up at acceptance, and the other commands pass its identity through. -/
theorem tblIdShowsTheIdentityAndNothingUsesIt : Obligations.TblIdShowsTheIdentityAndNothingUsesIt := by
  unfold Obligations.TblIdShowsTheIdentityAndNothingUsesIt
  refine ⟨fun s => ⟨tblId_toNat, fun hv => ?_⟩, fun i s c d => ⟨completed i s, exec_eq i s, ?_⟩⟩
  · show s.tblId = 0#32
    simp [State.tblId, hv]
  show exec i (s.withIdentity c d) = _
  rw [exec_eq]
  cases i with
  | clr => rfl
  | ldt => rfl
  | bld => exact congrArg _ (bldBody_withIdentity c d (bldAccept s))
  | dec => exact congrArg _ (decBody_withIdentity c d (decAccept s))
  | lkp len pat => exact congrArg _ (lkpBody_withIdentity c d (lkpLen len) (lkpPat pat) (accept s))

/-! ### The host port -/

theorem regValue_reserved {r : Nat} (hr : 10 ≤ r) (s : State) : regValue s r = 0#32 := by
  obtain ⟨k, rfl⟩ := Nat.exists_eq_add_of_le' hr
  rfl

theorem regValueBusy_reserved {r : Nat} (hr : 10 ≤ r) (f : Word) (s : State) :
    regValueBusy f s r = 0#32 := by
  obtain ⟨k, rfl⟩ := Nat.exists_eq_add_of_le' hr
  rfl

theorem regWrite_reserved {r : Nat} (hr : 10 ≤ r) (w : Word) (s : State) : regWrite r w s = .next s := by
  obtain ⟨k, rfl⟩ := Nat.exists_eq_add_of_le' hr
  rfl

/-- Settles O39: of a reserved register, idle and busy. -/
theorem reservedRegistersReadZeroAndIgnoreWrites :
    Obligations.ReservedRegistersReadZeroAndIgnoreWrites := by
  unfold Obligations.ReservedRegistersReadZeroAndIgnoreWrites
  intro s r rest hr
  refine ⟨regValue_reserved hr s, fun f => regValueBusy_reserved hr f s, fun w hp => ?_⟩
  cases hb : s.status.busy with
  | false =>
    rw [step_access_idle hp hb, Bool.or_false]
    exact regWrite_reserved hr w _
  | true =>
    rw [step_access_busy hp hb, Bool.or_true]
    rfl

/-- Settles O40: each read of an idle block only replies. -/
theorem idleReadsChangeNothing : Obligations.IdleReadsChangeNothing := by
  unfold Obligations.IdleReadsChangeNothing
  intro s rest hb
  exact ⟨fun r hp => step_access_idle hp hb, fun i hp => step_access_idle hp hb,
    fun i hp => step_access_idle hp hb, rfl, rfl, rfl, rfl, rfl, rfl, rfl, rfl,
    fun _ hr => regValue_reserved hr s⟩

/-- Settles O6: an idle block runs the word it decodes or starts it, a busy one discards it. -/
theorem cmdWriteRunsTheDecodedCommand : Obligations.CmdWriteRunsTheDecodedCommand := by
  unfold Obligations.CmdWriteRunsTheDecodedCommand
  refine ⟨fun s w rest hp => ⟨fun hb => ?_, step_access_busy hp⟩,
    fun s w rest hp => ⟨fun hb => ?_, step_startCmd_busy hp⟩, fun _ => ⟨rfl, fun _ => rfl⟩⟩
  · rw [step_access_idle hp hb]
    show (∀ i, _ → runCommand w _ = _) ∧ ∀ e, _ → runCommand w _ = _
    exact ⟨fun i hw => (runCommand_of_ok hw _).trans (exec_eq i _).symm, fun e hw => runCommand_of_error hw _⟩
  · rw [step_startCmd_idle hp hb]
    have hstart {i : Instr} (hw : decodeCmd w = .ok i) :=
      congrArg (Host.Outcome.next (φ := Fault) (ρ := Refusal)) (startCommand_of_ok hw { s with port := rest })
    exact ⟨hstart, hstart, hstart, hstart, fun _ _ => hstart,
      fun _ hw => congrArg _ (startCommand_of_error hw _)⟩

/-! ### Reset -/

theorem Status.cleared_word : Status.cleared.word = 0#32 := by
  decide

/-- With STATUS and every writable register at 0, CAP alone reads anything. -/
theorem regValue_of_cleared {s : State} (hstatus : s.status = .cleared) (hinLen : s.inLen = 0#32)
    (houtLen : s.outLen = 0#32) (hbitPos : s.bitPos = 0#32) (hbitRem : s.bitRem = 0#32)
    (htdefEnd : s.tdefEnd = 0#32) (hlkpRes : s.lkpRes = 0#32) (r : Nat) :
    regValue s r = if r = 9 then BitVec.ofNat 32 s.ibufSize else 0#32 := by
  have hword : s.status.word = 0#32 := hstatus ▸ Status.cleared_word
  have htblId : s.tblId = 0#32 := by simp [State.tblId, hstatus, Status.cleared]
  by_cases hr : 10 ≤ r
  · rw [regValue_reserved hr, if_neg (by omega)]
  · have hr : r < 10 := Nat.lt_of_not_le hr
    interval_cases r <;>
      simp [regValue, hword, hinLen, houtLen, hbitPos, hbitRem, htdefEnd, hlkpRes, htblId]

/-- With OUT_VALID at 0 the whole of OBUF is masked (R75). -/
theorem obufValue_of_outValid_false {s : State} (h : s.status.outValid = false) (i : Nat) :
    obufValue s i = 0#8 := by
  simp [obufValue, h]

/-- Settles O1: nothing is valid after reset and nothing is listed. -/
theorem resetRegistersReadTheirValues : Obligations.ResetRegistersReadTheirValues := by
  unfold Obligations.ResetRegistersReadTheirValues
  intro n _ _
  exact ⟨regValue_of_cleared rfl rfl rfl rfl rfl rfl rfl, rfl, ⟨rfl, ⟨rfl, rfl, rfl⟩, rfl⟩,
    obufValue_of_outValid_false rfl, rfl, rfl, rfl, rfl, 0, rfl⟩

/-! ### Busy with all units idle (R41) -/

theorem oneUnitAtMost_of_sound {s : State} (h : s.Sound) : s.OneUnitAtMost := by
  cases hb : s.status.busy with
  | false => exact .inl (h.idleUnits hb).2
  | true =>
    obtain ⟨-, htb, hed⟩ | ⟨htl, -, hed⟩ | ⟨htl, htb, -⟩ := h.oneUnit hb
    · exact .inl ⟨htb, hed⟩
    · exact .inr (.inl ⟨htl, hed⟩)
    · exact .inr (.inr ⟨htl, htb⟩)

theorem oneUnitAtMost_of_inv {s : State} (h : s.Inv) : s.OneUnitAtMost := by
  by_cases hh : s.held = none
  · exact oneUnitAtMost_of_sound (h.sound_of_none hh)
  · exact .inl (h.heldBusy hh).2.2

theorem busy_of_not_unitsIdle {s : State} (h : s.Inv) (hn : ¬ s.UnitsIdle) : s.status.busy = true := by
  by_contra hb
  have hb : s.status.busy = false := by simpa using hb
  exact hn ((h.sound_of_idle hb).idleUnits hb)

/-- A command that has completed leaves BUSY at 0 (R202). -/
theorem Completion.not_busy {i : Instr} {s t : State} (h : Completion s i t) : t.status.busy = false := by
  cases h <;> rfl

/-- CLR, LKP and an illegal word start no unit. -/
theorem startCommand_not_busy {w : Word} (hw : decodeCmd w = .ok .clr ∨
    (∃ len pat, decodeCmd w = .ok (.lkp len pat)) ∨ ∃ e, decodeCmd w = .error e) (s : State) :
    (startCommand w s).status.busy = false := by
  obtain hw | ⟨len, pat, hw⟩ | ⟨e, hw⟩ := hw
  · rw [startCommand_clr hw]
    rfl
  · rw [startCommand_of_ok hw]
    exact (completion_completed (.lkp len pat) s).not_busy
  · rw [startCommand_of_error hw]
    rfl

/-- Where nothing is put off, a step does not look at what the outside does next. -/
theorem unitStep_port {s : State} (hh : s.held = none) (hb : s.status.busy = true) (p : List HostEvent) :
    unitStep (s.withPort p) = (unitStep s).withPort p := by
  rw [unitStep_of_held_none (s := s.withPort p) hb hh, unitStep_of_held_none hb hh, runningStep_port]

theorem startHeld_eq_holdAccepted {w : Word} {s : State} (h : (startCommand w s).status.busy = false) :
    startHeld w s = holdAccepted w s := by
  simp [startHeld, h]

theorem unitStepHeld_eq_holdResult {s : State} (hh : s.held = none) (hb : s.status.busy = true)
    (hdone : (unitStep s).status.busy = false) : unitStepHeld s = holdResult s (unitStep s) := by
  simp [unitStepHeld, hh, hb, hdone]

/-- Settles O58: the invariant bounds the running units, and the two events that put a completion off
leave BUSY 1 with all of them idle. -/
theorem busyCanBeOneWithAllUnitsIdle : Obligations.BusyCanBeOneWithAllUnitsIdle := by
  unfold Obligations.BusyCanBeOneWithAllUnitsIdle
  refine ⟨fun s h => ⟨oneUnitAtMost_of_inv h, busy_of_not_unitsIdle h⟩, ?_, ?_⟩
  · intro s w rest h hb hp hw
    have hstep := step_startCmd_hold hp hb
    have hinv := inv_startHeld (inv_rest h rest) hb w
    rw [startHeld_eq_holdAccepted (startCommand_not_busy hw _)] at hstep hinv
    exact ⟨_, hstep, rfl, (hinv.heldBusy (by simp)).2, hinv⟩
  · intro s rest h hh hb hdone hp
    have hstep := step_wait_hold hp
    have hinv := inv_unitStepHeld (inv_rest h rest)
    have hdone' : (unitStep (s.withPort rest)).status.busy = false := by
      rw [unitStep_port hh hb]
      exact hdone
    rw [unitStepHeld_eq_holdResult (s := s.withPort rest) hh hb hdone'] at hstep hinv
    exact ⟨_, hstep, rfl, (hinv.heldBusy (by simp)).2, hinv, rfl, rfl, rfl, rfl⟩

end Sys2Proof.Machine

namespace Sys2Proof.Machine

/-! ### The bit sequence and its windows -/

/-- Settles O30: the mask keeps one bit of the byte, the one the shift brought down. -/
theorem streamBitsAreMsbFirst : Obligations.StreamBitsAreMsbFirst := by
  unfold Obligations.StreamBitsAreMsbFirst
  intro buf k
  rw [streamBit, BitVec.toNat_and, BitVec.toNat_ushiftRight, Nat.shiftRight_eq_div_pow, BitVec.getLsbD,
    Nat.toNat_testBit]
  exact Nat.and_one_is_mod _

/-- One bit more doubles the weight of every bit before it. -/
theorem window_eq_sum (bit : Nat → Nat) (c n : Nat) :
    window bit c n = ∑ j ∈ Finset.range n, bit (c + j) * 2 ^ (n - 1 - j) := by
  induction n with
  | zero => rfl
  | succ n ih =>
    have hdouble : ∀ j ∈ Finset.range n,
        2 * (bit (c + j) * 2 ^ (n - 1 - j)) = bit (c + j) * 2 ^ (n - j) := by
      intro j hj
      have hexp : n - j = (n - 1 - j) + 1 := by
        have := Finset.mem_range.1 hj
        omega
      rw [hexp, pow_succ]
      ring
    rw [window_succ, ih, Finset.mul_sum, Finset.sum_congr rfl hdouble, Finset.sum_range_succ]
    simp

/-- Settles O31: the weighted sum holds of any bits, the bound because each bit is at most 1. -/
theorem windowIsTheWeightedSum : Obligations.WindowIsTheWeightedSum := by
  unfold Obligations.WindowIsTheWeightedSum
  exact fun buf c n => ⟨window_eq_sum _ c n, window_lt (streamBit_le_one buf) c n⟩

/-! ### Writes to an idle block -/

theorem regWrite_ignored {r : Nat} (h0 : r ≠ 0) (h2 : r ≠ 2) (w : Word) (s : State) :
    regWrite r w s = .next s := by
  unfold regWrite
  split
  · exact absurd rfl h0
  · exact absurd rfl h2
  · rfl

theorem ibufWrite_of_lt {i : Nat} {s : State} (hi : i < s.ibufSize) (b : Byte) :
    ibufWrite i b s = { s with ibuf := s.ibuf.write i b } :=
  if_pos hi

theorem ibufWrite_of_le {i : Nat} {s : State} (hi : s.ibufSize ≤ i) (b : Byte) : ibufWrite i b s = s :=
  if_neg (Nat.not_lt.2 hi)

theorem ibufValue_of_lt {i : Nat} {s : State} (hi : i < s.ibufSize) : ibufValue s i = s.ibufAt i :=
  if_pos hi

theorem ibufValue_of_le {i : Nat} {s : State} (hi : s.ibufSize ≤ i) : ibufValue s i = 0#8 :=
  if_neg (Nat.not_lt.2 hi)

theorem ibufValue_write_same {i : Nat} {s : State} (hi : i < s.ibufSize) (b : Byte) :
    ibufValue { s with ibuf := s.ibuf.write i b } i = b :=
  (ibufValue_of_lt (s := { s with ibuf := s.ibuf.write i b }) hi).trans (Memory.read_write_same _ _ _ _)

theorem ibufValue_write_other {i j : Nat} (hj : j ≠ i) (b : Byte) (s : State) :
    ibufValue { s with ibuf := s.ibuf.write i b } j = ibufValue s j := by
  have hat : ({ s with ibuf := s.ibuf.write i b } : State).ibufAt j = s.ibufAt j :=
    Memory.read_write_other _ _ b hj
  rw [ibufValue, ibufValue, hat]

/-- Settles O41, write by write. -/
theorem idleWritesStoreOnlyTheirElement : Obligations.IdleWritesStoreOnlyTheirElement := by
  unfold Obligations.IdleWritesStoreOnlyTheirElement
  intro s rest hb
  refine ⟨fun w hp => step_access_idle hp hb, fun r w h0 h2 hp => ?_, fun i b hp hi => ⟨?_, ?_⟩,
    fun i b hp hi => ⟨s.ibuf.write i b, ?_, ibufValue_write_same hi b, fun j hj => ?_⟩⟩
  · rw [step_access_idle hp hb]
    exact regWrite_ignored h0 h2 w _
  · rw [step_access_idle hp hb]
    exact congrArg _ (ibufWrite_of_le (s := s.withPort rest) hi b)
  · exact ibufValue_of_le hi
  · rw [step_access_idle hp hb]
    exact congrArg _ (ibufWrite_of_lt (s := s.withPort rest) hi b)
  · exact ibufValue_write_other hj b s

/-! ### Accesses to a busy block -/

/-- A busy block's STATUS reads BUSY, the true OVR and the zero bits, whatever the free word is (U4). -/
theorem busyWord_specified (t : Status) (f : Word) :
    (t.busyWord f).getLsbD 0 = true ∧ (t.busyWord f).getLsbD 5 = t.ovr ∧
    (t.busyWord f).extractLsb' 6 2 = 0#2 ∧ (t.busyWord f).extractLsb' 12 20 = 0#20 := by
  obtain ⟨hbusy, -, -, -, -, hovr⟩ := statusWord_flags (f.extractLsb' 8 4) t.ovr (f.getLsbD 4) (f.getLsbD 3)
    (f.getLsbD 2) (f.getLsbD 1) true
  exact ⟨hbusy, hovr, statusWord_zeros_low .., statusWord_zeros_high ..⟩

/-- Settles O43: every write is discarded, and every read only draws a free value and replies. -/
theorem busyAccessesDisturbNothing : Obligations.BusyAccessesDisturbNothing := by
  unfold Obligations.BusyAccessesDisturbNothing
  intro s rest hb
  refine ⟨fun r w hp => step_access_busy hp hb, fun i b hp => step_access_busy hp hb,
    fun hold w hp => step_startCmd_busy hp hb, fun r hp => ⟨_, step_access_busy hp hb, ?_, ?_, ?_⟩, ?_⟩
  · rintro rfl
    exact busyWord_specified s.status _
  · rintro rfl
    rfl
  · rintro (rfl | hr)
    · rfl
    · exact regValueBusy_reserved hr _ _
  · rintro i (hp | hp) <;> exact ⟨_, step_access_busy hp hb⟩

/-! ### What acceptance at the step level leaves -/

/-- An accepted LDT fails at once or starts TL (R122). -/
theorem ldtStart_cases (s : State) : (∃ c, ldtStart s = ldtFail c (ldtAccept s)) ∨
    ∃ r, ldtStart s = { ldtAccept s with tl := r, tlState := .id } := by
  unfold ldtStart
  dsimp only
  split
  · exact .inl ⟨_, rfl⟩
  · exact .inr ⟨_, rfl⟩

/-- An accepted BLD fails at once or starts TB (R142). -/
theorem bldStart_cases (s : State) : (∃ c, bldStart s = bldFail c (bldAccept s)) ∨
    ∃ r, bldStart s = { bldAccept s with cmap := .empty, tb := r, tbState := .assign } := by
  unfold bldStart
  dsimp only
  split
  · exact .inr ⟨_, rfl⟩
  · exact .inl ⟨_, rfl⟩

/-- An accepted DEC fails at once or starts ED (R173). -/
theorem decStart_cases (s : State) : (∃ c, decStart s = decFail c (decAccept s)) ∨
    ∃ r, decStart s = { decAccept s with ed := r, edState := .test } := by
  unfold decStart
  dsimp only
  split
  · split
    · exact .inl ⟨_, rfl⟩
    · exact .inr ⟨_, rfl⟩
  · exact .inl ⟨_, rfl⟩

/-! ### OBUF reads -/

theorem obufValue_unmasked {s : State} {i : Nat} (hv : s.status.outValid = true) (hi : i < s.outLen.toNat)
    (hn : i < 8 * s.ibufSize) : obufValue s i = s.obufAt i :=
  if_pos ⟨hv, hi, hn⟩

theorem obufValue_masked {s : State} {i : Nat}
    (h : s.status.outValid = false ∨ s.outLen.toNat ≤ i ∨ 8 * s.ibufSize ≤ i) : obufValue s i = 0#8 := by
  refine if_neg fun ⟨hv, hi, hn⟩ => ?_
  obtain h | h | h := h
  · exact nomatch h.symm.trans hv
  · omega
  · omega

/-- Settles O42: a DEC that failed has OUT_VALID at 0, and acceptance withdraws it. -/
theorem obufReadsAreMasked : Obligations.ObufReadsAreMasked := by
  unfold Obligations.ObufReadsAreMasked
  refine ⟨fun s i => ⟨obufValue_unmasked, obufValue_masked⟩, fun s t h herr i => ?_, fun s => ?_⟩
  · have hv : t.status.outValid = outValidAfter .dec t.status.err s.status.outValid :=
      (completion_of_exec h).outValid
    rw [herr] at hv
    exact obufValue_of_outValid_false hv i
  · obtain ⟨c, e⟩ | ⟨r, e⟩ := decStart_cases s <;> rw [e] <;> exact ⟨rfl, rfl⟩

/-! ### IBUF is the host's (R74) -/

theorem Completion.ibuf {i : Instr} {s t : State} (h : Completion s i t) : t.ibuf = s.ibuf := by
  cases h <;> rfl

theorem startInstr_ibuf (i : Instr) (s : State) : (startInstr i s).ibuf = s.ibuf := by
  cases i with
  | clr => rfl
  | ldt =>
    show (ldtStart s).ibuf = s.ibuf
    obtain ⟨c, e⟩ | ⟨r, e⟩ := ldtStart_cases s <;> rw [e] <;> rfl
  | bld =>
    show (bldStart s).ibuf = s.ibuf
    obtain ⟨c, e⟩ | ⟨r, e⟩ := bldStart_cases s <;> rw [e] <;> rfl
  | dec =>
    show (decStart s).ibuf = s.ibuf
    obtain ⟨c, e⟩ | ⟨r, e⟩ := decStart_cases s <;> rw [e] <;> rfl
  | lkp len pat => exact (completion_completed (.lkp len pat) s).ibuf

theorem startCommand_ibuf (w : Word) (s : State) : (startCommand w s).ibuf = s.ibuf := by
  cases hd : decodeCmd w with
  | ok i =>
    rw [startCommand_of_ok hd]
    exact startInstr_ibuf i s
  | error e =>
    rw [startCommand_of_error hd]
    rfl

theorem startHeld_ibuf (w : Word) (s : State) : (startHeld w s).ibuf = s.ibuf := by
  obtain ⟨_, e⟩ | ⟨_, e⟩ := startHeld_cases w s <;> rw [e]
  · exact startCommand_ibuf w s
  · rfl

/-- A unit's step keeps IBUF, and so does a completion that was put off. -/
theorem unitStep_ibuf (s : State) : (unitStep s).ibuf = s.ibuf := by
  cases hh : s.held with
  | none => exact (unitStep_frame hh).ibuf
  | some x =>
    cases hb : s.status.busy with
    | false => rw [unitStep_of_idle hb]
    | true =>
      rw [unitStep_of_held hb hh]
      cases x with
      | result r => rfl
      | accepted w => exact startCommand_ibuf w { s with held := none }

theorem unitStepHeld_ibuf (s : State) : (unitStepHeld s).ibuf = s.ibuf := by
  obtain ⟨_, e⟩ | ⟨_, _, _, e⟩ | ⟨_, _, e⟩ := unitStepHeld_cases s <;> rw [e]
  · exact unitStep_ibuf s
  · exact unitStep_ibuf s

/-- Settles O46: of all that a step can do, a host write and reset alone do not keep IBUF. -/
theorem onlyTheHostWritesIbuf : Obligations.OnlyTheHostWritesIbuf := by
  unfold Obligations.OnlyTheHostWritesIbuf
  intro s t h hne
  obtain ⟨-, rfl⟩ | ⟨e, rest, hp, hevent⟩ := step_cases h
  · exact absurd (unitStep_ibuf s) hne
  obtain ⟨-, rfl⟩ | ⟨rfl, -⟩ | ⟨-, rfl, -⟩ | ⟨v, -, rfl⟩ | ⟨v, -, rfl⟩ | ⟨i, b, hb, rfl, -⟩ |
    ⟨w, -, -, rfl⟩ | ⟨-, rfl⟩ | ⟨w, -, -, -, rfl⟩ | ⟨w, i, -, -, -, rfl⟩ | ⟨w, i, -, -, -, rfl⟩ |
    ⟨-, rfl⟩ | ⟨w, -, -, rfl⟩ := hevent
  · exact absurd (unitStep_ibuf _) hne
  · exact .inr ⟨rest, hp⟩
  · exact absurd rfl hne
  · exact absurd rfl hne
  · exact absurd rfl hne
  · exact .inl ⟨i, b, rest, hp, hb⟩
  · exact absurd rfl hne
  · exact absurd rfl hne
  · exact absurd rfl hne
  · exact absurd (completion_completed i _).ibuf hne
  · exact absurd (startInstr_ibuf i _) hne
  · exact absurd (unitStepHeld_ibuf _) hne
  · exact absurd (startHeld_ibuf w _) hne

/-! ### What a host reads is specified -/

section
variable {s t : State} (h : SameSpecified s t)
include h

/-- TBL_ID shows the identity only while TBL_VALID is 1. -/
theorem SameSpecified.tblId_eq : s.tblId = t.tblId := by
  rw [State.tblId, State.tblId, ← h.status]
  cases hv : s.status.tblValid with
  | false => rfl
  | true =>
    obtain ⟨hcls, hid⟩ := h.identity hv
    rw [hcls, hid]

theorem SameSpecified.regValue_eq (r : Nat) : regValue s r = regValue t r := by
  unfold regValue
  rw [h.status, h.inLen, h.outLen, h.bitPos, h.bitRem, h.tdefEnd, h.lkpRes, h.tblId_eq, h.ibufSize]

theorem SameSpecified.ibufValue_eq (i : Nat) : ibufValue s i = ibufValue t i := by
  by_cases hi : i < s.ibufSize
  · rw [ibufValue_of_lt hi, ibufValue_of_lt (h.ibufSize ▸ hi), h.ibuf i hi]
  · have hi : s.ibufSize ≤ i := Nat.not_lt.1 hi
    rw [ibufValue_of_le hi, ibufValue_of_le (h.ibufSize ▸ hi)]

/-- OBUF is specified exactly where the mask lets it through. -/
theorem SameSpecified.obufValue_eq (i : Nat) : obufValue s i = obufValue t i := by
  unfold obufValue
  rw [← h.status, ← h.outLen, ← h.ibufSize]
  split
  · next hm =>
    obtain ⟨hv, hi, -⟩ := hm
    exact h.obuf hv i hi
  · rfl

end

/-- Settles O53, kind of read by kind of read. -/
theorem specifiedPartsReadAlike : Obligations.SpecifiedPartsReadAlike := by
  unfold Obligations.SpecifiedPartsReadAlike
  exact fun s t h => ⟨h.regValue_eq, h.ibufValue_eq, h.obufValue_eq⟩

end Sys2Proof.Machine

namespace Sys2Proof

/-! ### A command word is its fields (R90) -/

theorem upperOf_append_opcOf (w : Word) : upperOf w ++ opcOf w = w := by
  apply BitVec.eq_of_toNat_eq
  rw [toNat_append_fields, upperOf_toNat, opcOf_toNat]
  omega

theorem formatK_fields_append (w : Word) : patOf w ++ reservedOf w ++ lenOf w ++ opcOf w = w := by
  apply BitVec.eq_of_toNat_eq
  rw [toNat_append_fields, toNat_append_fields, toNat_append_fields, patOf_toNat, reservedOf_toNat,
    lenOf_toNat, opcOf_toNat]
  omega

theorem encode_lkp_toNat (len : BitVec 5) (pat : BitVec 16) :
    (encode (.lkp len pat)).toNat = pat.toNat * 65536 + len.toNat * 256 + 5 := by
  show (pat ++ 0#3 ++ len ++ 0x05#8).toNat = _
  rw [toNat_append_fields, toNat_append_fields, toNat_append_fields]
  simp only [BitVec.toNat_ofNat]
  omega

section
variable (len : BitVec 5) (pat : BitVec 16)

theorem reservedOf_encode_lkp : reservedOf (encode (.lkp len pat)) = 0#3 := by
  apply BitVec.eq_of_toNat_eq
  rw [reservedOf_toNat, encode_lkp_toNat, BitVec.toNat_ofNat]
  omega

theorem lenOf_encode_lkp : lenOf (encode (.lkp len pat)) = len := by
  apply BitVec.eq_of_toNat_eq
  rw [lenOf_toNat, encode_lkp_toNat]
  omega

theorem patOf_encode_lkp : patOf (encode (.lkp len pat)) = pat := by
  apply BitVec.eq_of_toNat_eq
  rw [patOf_toNat, encode_lkp_toNat]
  omega

end

/-! ### The decoder and the encoder are inverse (R94) -/

theorem decodeCmd_of_opcode_lkp {w : Word} (h : opcOf w = 0x05#8) : decodeCmd w = formatK w := by
  rw [decodeCmd, h]
  rfl

theorem formatK_encode_lkp {len : BitVec 5} (pat : BitVec 16) (h : legalLen len = true) :
    formatK (encode (.lkp len pat)) = .ok (.lkp len pat) := by
  rw [formatK, reservedOf_encode_lkp, lenOf_encode_lkp, patOf_encode_lkp, if_pos rfl, if_pos h]

/-- Settles O12: of a format Z word by evaluation, of an LKP word field by field. -/
theorem decodeInvertsEncode : Obligations.DecodeInvertsEncode := by
  unfold Obligations.DecodeInvertsEncode
  intro i hi
  cases i with
  | clr | ldt | bld | dec => rfl
  | lkp len pat => rw [decodeCmd_of_opcode_lkp (Laws.OpcodeField.lkp len pat), formatK_encode_lkp pat hi]

theorem encode_of_formatZ {w : Word} {opc : BitVec 8} {i j : Instr} (hi : encode i = 0#24 ++ opc)
    (hopc : opcOf w = opc) (h : formatZ w i = .ok j) : encode j = w := by
  unfold formatZ at h
  split at h
  · next hupper => rw [← Except.ok.inj h, hi, ← hupper, ← hopc, upperOf_append_opcOf]
  · cases h

theorem encode_of_formatK {w : Word} {i : Instr} (hopc : opcOf w = 0x05#8) (h : formatK w = .ok i) :
    encode i = w := by
  unfold formatK at h
  split_ifs at h with hreserved hlen
  calc encode i
    _ = patOf w ++ 0#3 ++ lenOf w ++ 0x05#8 := by rw [← Except.ok.inj h, encode]
    _ = w := by rw [← hreserved, ← hopc, formatK_fields_append]

theorem encode_of_decodeCmd {w : Word} {i : Instr} (h : decodeCmd w = .ok i) : encode i = w := by
  unfold decodeCmd at h
  split_ifs at h with h1 h2 h3 h4 h5
  · exact encode_of_formatZ rfl h1 h
  · exact encode_of_formatZ rfl h2 h
  · exact encode_of_formatZ rfl h3 h
  · exact encode_of_formatZ rfl h4 h
  · exact encode_of_formatK h5 h

/-- Settles O13: a word is its fields, and the decoder has checked or answered each of them. -/
theorem encodeInvertsDecode : Obligations.EncodeInvertsDecode := by
  unfold Obligations.EncodeInvertsDecode
  exact fun w i h => ⟨encode_of_decodeCmd h, wf_of_decodeCmd h⟩

/-- The words of R90: those the encoder makes of the well-formed commands. -/
theorem decodeCmd_eq_ok_iff {w : Word} {i : Instr} : decodeCmd w = .ok i ↔ i.wf = true ∧ encode i = w :=
  ⟨fun h => ⟨wf_of_decodeCmd h, encode_of_decodeCmd h⟩, fun ⟨hi, hw⟩ => hw ▸ decodeInvertsEncode i hi⟩

/-! ### Which words are legal, as numbers (R90, R93) -/

/-- Settles O10, command by command: the number its encoder's word is. -/
theorem commandWordsAreTheTwoFormats : Obligations.CommandWordsAreTheTwoFormats := by
  unfold Obligations.CommandWordsAreTheTwoFormats
  intro w i
  rw [decodeCmd_eq_ok_iff]
  constructor
  · rintro ⟨hi, rfl⟩
    cases i with
    | clr => exact .inl ⟨rfl, rfl⟩
    | ldt => exact .inr (.inl ⟨rfl, rfl⟩)
    | bld => exact .inr (.inr (.inl ⟨rfl, rfl⟩))
    | dec => exact .inr (.inr (.inr (.inl ⟨rfl, rfl⟩)))
    | lkp len pat =>
      obtain ⟨h1, h16⟩ := (legalLen_iff len).1 hi
      exact .inr (.inr (.inr (.inr ⟨len, pat, rfl, h1, h16, encode_lkp_toNat len pat⟩)))
  · rintro (⟨rfl, hw⟩ | ⟨rfl, hw⟩ | ⟨rfl, hw⟩ | ⟨rfl, hw⟩ | ⟨len, pat, rfl, h1, h16, hw⟩)
    · exact ⟨rfl, BitVec.eq_of_toNat_eq hw.symm⟩
    · exact ⟨rfl, BitVec.eq_of_toNat_eq hw.symm⟩
    · exact ⟨rfl, BitVec.eq_of_toNat_eq hw.symm⟩
    · exact ⟨rfl, BitVec.eq_of_toNat_eq hw.symm⟩
    · exact ⟨(legalLen_iff len).2 ⟨h1, h16⟩,
        BitVec.eq_of_toNat_eq ((encode_lkp_toNat len pat).trans hw.symm)⟩

/-- The legal words by their fields: an opcode of format Z alone, or the opcode of LKP under a legal LEN and
zero reserved bits (R90, R91). -/
theorem exists_decodeCmd_eq_ok_iff (w : Word) :
    (∃ i, decodeCmd w = .ok i) ↔
      (1 ≤ w.toNat ∧ w.toNat ≤ 4) ∨
      (w.toNat % 256 = 5 ∧ w.toNat / 8192 % 8 = 0 ∧ 1 ≤ w.toNat / 256 % 32 ∧ w.toNat / 256 % 32 ≤ 16) := by
  simp only [commandWordsAreTheTwoFormats w]
  constructor
  · rintro ⟨i, ⟨-, hw⟩ | ⟨-, hw⟩ | ⟨-, hw⟩ | ⟨-, hw⟩ | ⟨len, pat, -, h1, h16, hw⟩⟩
    · exact .inl (by omega)
    · exact .inl (by omega)
    · exact .inl (by omega)
    · exact .inl (by omega)
    · exact .inr (by omega)
  · rintro (⟨h1, h4⟩ | ⟨hopc, hreserved, h1, h16⟩)
    · obtain hw | hw | hw | hw : w.toNat = 1 ∨ w.toNat = 2 ∨ w.toNat = 3 ∨ w.toNat = 4 := by omega
      · exact ⟨.clr, .inl ⟨rfl, hw⟩⟩
      · exact ⟨.ldt, .inr (.inl ⟨rfl, hw⟩)⟩
      · exact ⟨.bld, .inr (.inr (.inl ⟨rfl, hw⟩))⟩
      · exact ⟨.dec, .inr (.inr (.inr (.inl ⟨rfl, hw⟩)))⟩
    · refine ⟨_, .inr (.inr (.inr (.inr ⟨lenOf w, patOf w, rfl, ?_⟩)))⟩
      rw [lenOf_toNat, patOf_toNat]
      omega

theorem exists_decodeCmd_eq_error_iff (w : Word) :
    (∃ e, decodeCmd w = .error e) ↔ ¬ ∃ i, decodeCmd w = .ok i := by
  cases decodeCmd w <;> simp

/-- Settles O9: the decoder runs on each of these words. -/
theorem specWordsDecode : Obligations.SpecWordsDecode := by
  unfold Obligations.SpecWordsDecode
  decide

end Sys2Proof

namespace Sys2Proof.Machine

theorem illegalBody_of_idle {s : State} (hb : s.status.busy = false) :
    illegalBody s = { s with status := { s.status with err := true, errCode := .illCmd } } := by
  have hstatus : { s.status with err := true, errCode := .illCmd, busy := false } =
      { s.status with err := true, errCode := .illCmd } := by rw [← hb]
  exact congrArg (fun st => { s with status := st }) hstatus

/-- Settles O11: the four cases are the complement of the legal words, and an idle block only records the
failure. -/
theorem illegalWordsAreTheFourCases : Obligations.IllegalWordsAreTheFourCases := by
  unfold Obligations.IllegalWordsAreTheFourCases
  refine fun w => ⟨?_, ?_⟩
  · rw [exists_decodeCmd_eq_error_iff, exists_decodeCmd_eq_ok_iff]
    omega
  · rintro s hb ⟨e, hw⟩
    rw [runCommand_of_error hw, illegalBody_of_idle hb]

/-! ### LDT on a whole definition (R95, R96, R120) -/

/-- The two nibbles of a legal identity byte (R96). -/
theorem identity_toNat {b : Byte} (h : legalIdentity b = true) :
    (classOf b).toNat = b.toNat / 16 ∧ (idOf b).toNat = b.toNat % 16 := by
  have hb := (legalIdentity_iff b).1 h
  simp only [List.mem_cons, List.not_mem_nil, or_false] at hb
  obtain rfl | rfl | rfl | rfl := hb <;> decide

theorem identity_load_of_parse (h : HuffTable) {buf : Nat → Byte} {n : Nat} {d : TableDef}
    (hp : parse buf n = .ok d) :
    (h.load d).cls.toNat = (buf 0).toNat / 16 ∧ (h.load d).id.toNat = (buf 0).toNat % 16 := by
  obtain ⟨hid, _, rfl⟩ := of_parse_ok hp
  exact identity_toNat hid

/-- The recorded length by the count bytes: those of the loaded table, whatever HT held before. -/
theorem toNat_fin_eq_of_parse {buf : Nat → Byte} {n : Nat} {d : TableDef} (hp : parse buf n = .ok d) :
    (BitVec.ofNat 32 d.fin).toNat = 17 + sumCounts (fun L => (buf L).toNat) 16 := by
  rw [(toNat_fin_of_parse hp (.unspecified 0)).1, sumCounts_congr 16 fun _ => count_load_of_parse _ hp]

theorem exec_ldt_of_parse {s : State} {d : TableDef} (hn : s.inCount ≤ s.ibufSize)
    (hp : parse s.ibufAt s.inCount = .ok d) :
    exec .ldt s =
      .next (ldtDone (BitVec.ofNat 32 d.fin) { ldtAccept s with ht := (ldtAccept s).ht.load d }) :=
  (exec_eq .ldt s).trans (congrArg _ (ldtBody_ok (s := ldtAccept s) hn hp))

/-- Settles O15: the parse succeeds, and what it answers is loaded where R95 says. -/
theorem ldtLoadsTheTable : Obligations.LdtLoadsTheTable := by
  unfold Obligations.LdtLoadsTheTable
  intro s hn _ hid hwhole
  have hp := parse_ok ((legalIdentity_iff _).2 hid) hwhole
  obtain ⟨hcls, hidn⟩ := identity_load_of_parse (ldtAccept s).ht hp
  have hcount : ∀ L, 1 ≤ L → L ≤ 16 → ((ldtAccept s).ht.load _).count L = (s.ibufAt L).toNat :=
    fun _ => count_load_of_parse (ldtAccept s).ht hp
  refine ⟨_, exec_ldt_of_parse hn hp, rfl, toNat_fin_eq_of_parse hp, hcls, hidn,
    hcount, ?_, rfl, rfl, rfl, rfl, rfl, rfl, rfl, rfl, rfl, rfl, rfl, rfl, rfl, rfl, rfl, rfl⟩
  intro L h1 h16 i hi
  exact symbol_load_of_parse _ hp h1 h16 (hcount L h1 h16 ▸ hi)

end Sys2Proof.Machine

namespace Sys2Proof.Machine

/-! ### Parsing: when it succeeds, and which cause it reports otherwise (R121) -/

/-- The three ways `parse` can go, told apart by the identity byte and the length of the buffer. -/
inductive ParseOutcome (buf : Nat → Byte) (n : Nat) : Prop
  | whole (hid : legalIdentity (buf 0) = true)
    (hn : 17 + sumCounts (fun L => (buf L).toNat) 16 ≤ n) (h : ∃ d, parse buf n = .ok d)
  | trunc (hn : n = 0 ∨ legalIdentity (buf 0) = true ∧ n < 17 + sumCounts (fun L => (buf L).toNat) 16)
    (h : parse buf n = .error .trunc)
  | badId (hid : legalIdentity (buf 0) = false) (hn : 1 ≤ n) (h : parse buf n = .error .badId)

theorem parseOutcome (buf : Nat → Byte) (n : Nat) : ParseOutcome buf n := by
  rcases Nat.eq_zero_or_pos n with rfl | hpos
  · exact .trunc (.inl rfl) (parse_empty buf)
  · cases hid : legalIdentity (buf 0) with
    | false => exact .badId hid hpos (parse_badId hid hpos)
    | true =>
      rcases Nat.lt_or_ge n (17 + sumCounts (fun L => (buf L).toNat) 16) with hn | hn
      · exact .trunc (.inr ⟨hid, hn⟩) (parse_short hid hn)
      · exact .whole hid hn ⟨_, parse_ok hid hn⟩

theorem exists_parse_eq_ok_iff (buf : Nat → Byte) (n : Nat) : (∃ d, parse buf n = .ok d) ↔
    1 ≤ n ∧ legalIdentity (buf 0) = true ∧ 17 + sumCounts (fun L => (buf L).toNat) 16 ≤ n := by
  constructor
  · rintro ⟨d, hd⟩
    obtain ⟨hid, hn, _⟩ := of_parse_ok hd
    exact ⟨by omega, hid, hn⟩
  · rintro ⟨_, hid, hn⟩
    exact ⟨_, parse_ok hid hn⟩

theorem parse_eq_trunc_iff (buf : Nat → Byte) (n : Nat) : parse buf n = .error .trunc ↔
    n = 0 ∨ legalIdentity (buf 0) = true ∧ n < 17 + sumCounts (fun L => (buf L).toNat) 16 := by
  constructor
  · intro ht
    cases parseOutcome buf n with
    | whole _ _ h =>
      obtain ⟨d, hd⟩ := h
      cases hd.symm.trans ht
    | trunc hn _ => exact hn
    | badId _ _ h => cases h.symm.trans ht
  · rintro (rfl | ⟨hid, hn⟩)
    · exact parse_empty buf
    · exact parse_short hid hn

theorem parse_eq_badId_iff (buf : Nat → Byte) (n : Nat) :
    parse buf n = .error .badId ↔ 1 ≤ n ∧ legalIdentity (buf 0) = false := by
  constructor
  · intro hb
    cases parseOutcome buf n with
    | whole _ _ h =>
      obtain ⟨d, hd⟩ := h
      cases hd.symm.trans hb
    | trunc _ h => cases h.symm.trans hb
    | badId hid hn _ => exact ⟨hn, hid⟩
  · rintro ⟨hn, hid⟩
    exact parse_badId hid hn

/-- `parse` answers from the bytes of the definition alone: what stands after the last byte it read, and
how much of it there is, does not matter. -/
theorem parse_ok_of_agree {buf buf' : Nat → Byte} {n : Nat} {d : TableDef} (hp : parse buf n = .ok d)
    (h : ∀ i, i < d.fin → buf' i = buf i) : parse buf' n = .ok d := by
  obtain ⟨hid, hn, rfl⟩ := of_parse_ok hp
  have hfin := (parse_congr h).trans (parse_ok hid le_rfl)
  obtain ⟨hid', hn', heq⟩ := of_parse_ok hfin
  rw [heq]
  exact parse_ok hid' (hn'.trans hn)

/-- The counts a parse answers are the count bytes of the definition. -/
theorem cnt_of_parse {buf : Nat → Byte} {n L : Nat} {d : TableDef} (hp : parse buf n = .ok d)
    (h1 : 1 ≤ L) (h16 : L ≤ 16) : d.cnt[L - 1]? = some (buf L) := by
  obtain ⟨_, _, rfl⟩ := of_parse_ok hp
  have hlt : L - 1 < (bytesAt buf 1 16).length := by
    rw [bytesAt_length]
    omega
  rw [List.getElem?_eq_getElem hlt, bytesAt_getElem, Nat.add_sub_cancel' h1]

/-- The buckets a parse answers are the definition's bytes, one bucket after the other (R95). -/
theorem sym_of_parse {buf : Nat → Byte} {n L : Nat} {d : TableDef} (hp : parse buf n = .ok d)
    (h1 : 1 ≤ L) (h16 : L ≤ 16) : d.sym[L - 1]? =
      some (bytesAt buf (17 + sumCounts (fun L => (buf L).toNat) (L - 1)) (buf L).toNat) := by
  obtain ⟨_, _, rfl⟩ := of_parse_ok hp
  have hlt : L - 1 < (bucketsAt buf 17 (bytesAt buf 1 16)).length := by
    rw [bucketsAt_length, bytesAt_length]
    omega
  rw [List.getElem?_eq_getElem hlt, bucketsAt_definition buf h1 h16 hlt]

/-- Settles O14: `parse` goes one of three ways, and its answer is the bytes where R95 puts them. -/
theorem parseSucceedsExactlyOnWholeDefinitions :
    Obligations.ParseSucceedsExactlyOnWholeDefinitions := by
  unfold Obligations.ParseSucceedsExactlyOnWholeDefinitions
  intro buf n
  simp only [← legalIdentity_iff, Bool.not_eq_true]
  refine ⟨exists_parse_eq_ok_iff buf n, parse_eq_trunc_iff buf n, parse_eq_badId_iff buf n, ?_⟩
  intro d hp
  obtain ⟨hid, _, rfl⟩ := of_parse_ok hp
  obtain ⟨hcls, hidn⟩ := identity_toNat hid
  exact ⟨hcls, hidn, bytesAt_length _ _ _, (bucketsAt_length _ _ _).trans (bytesAt_length _ _ _), rfl,
    fun _ h1 h16 => ⟨cnt_of_parse hp h1 h16, _, sym_of_parse hp h1 h16, bytesAt_length _ _ _,
      bytesAt_getElem _ _ _⟩,
    fun _ => parse_ok_of_agree hp⟩

/-! ### LDT's failures (R120, R212, R213) -/

theorem exec_ldt_of_fails {s : State} {c : ErrCode} (h : Fails .ldt s c) :
    exec .ldt s = .next (ldtFail c (ldtAccept s)) := by
  rw [exec_eq]
  obtain ⟨hn, rfl⟩ | ⟨hn, hp⟩ := h
  · exact congrArg _ (ldtBody_len (s := ldtAccept s) hn)
  · exact congrArg _ (ldtBody_error (s := ldtAccept s) hn hp)

/-- Without a valid table TBL_ID reads 0 (R30). -/
theorem tblId_of_tblValid_false {s : State} (h : s.status.tblValid = false) : s.tblId = 0#32 := by
  rw [State.tblId, h]
  rfl

/-- Settles O16: both kinds of failure end in `ldtFail`, after the acceptance that withdrew the table. -/
theorem ldtFailureWithdrawsTheTable : Obligations.LdtFailureWithdrawsTheTable := by
  unfold Obligations.LdtFailureWithdrawsTheTable
  intro s c h
  exact ⟨_, exec_ldt_of_fails h, rfl, rfl, tblId_of_tblValid_false rfl, rfl, rfl, rfl, rfl, rfl, rfl, rfl,
    rfl, rfl, rfl, rfl, rfl, rfl, rfl, rfl, rfl⟩

/-! ### A busy block's next step (R41) -/

theorem step_of_port_nil {s : State} (hp : s.port = []) : step s = .next (unitStep s) := by
  simp [step, hp]

theorem step_wait {s : State} {rest : List HostEvent} (hp : s.port = .wait false :: rest) :
    step s = .next (unitStep { s with port := rest }) := by
  simp [step, hp, hostEvent]

theorem runningStep_tl {s : State} (htl : s.tlState ≠ .idle) : runningStep s = tlStep s := by
  unfold runningStep
  split
  · contradiction
  all_goals rfl

theorem runningStep_tb {s : State} (htl : s.tlState = .idle) (htb : s.tbState ≠ .idle) :
    runningStep s = tbStep s := by
  unfold runningStep
  rw [htl]
  dsimp only
  split
  · contradiction
  all_goals rfl

theorem runningStep_ed {s : State} (htl : s.tlState = .idle) (htb : s.tbState = .idle) :
    runningStep s = edStep s := by
  simp only [runningStep, htl, htb]

/-- Settles O57, by what is put off and then by the unit that is not idle. -/
theorem busyBlockStepsItsUnit : Obligations.BusyBlockStepsItsUnit := by
  unfold Obligations.BusyBlockStepsItsUnit
  intro s hb
  exact ⟨step_of_port_nil, fun _ => step_wait,
    fun hh htl => (unitStep_of_held_none hb hh).trans (runningStep_tl htl),
    fun hh htl htb => (unitStep_of_held_none hb hh).trans (runningStep_tb htl htb),
    fun hh htl htb => (unitStep_of_held_none hb hh).trans (runningStep_ed htl htb),
    fun _ hh => unitStep_of_held hb hh, fun _ hh => unitStep_of_held hb hh⟩

/-! ### LDT step by step reaches the operation (R122) -/

theorem Run.of_steps_eq {x y : State} {n m : Nat} (h : Run x n y) (hnm : n = m) : Run x m y := hnm ▸ h

section
variable {s : State} (hb : s.status.busy = true) (hh : s.held = none) (h : HuffTable) (c i : BitVec 1)
  {cs : List Byte} (hcs : bytesAt s.ibufAt 1 16 = cs)
include hb hh hcs

/-- TL_COUNTS on a whole header `cs`: its 16 count bytes are in HT.CNT (R122). -/
theorem run_header (j : Nat) (h17 : 17 ≤ s.inCount) :
    Run (tls s c i h.cnt h.sym 1 1 j 0 .counts) 17
      (tls s c i (h.cnt.writeList 1 cs) h.sym 17 1 0 (0 + symbolsOf cs) .syms) := by
  have hrun := run_counts hb hh c i h.sym j 16 1 0 h.cnt le_rfl rfl (by omega) (by omega)
  rw [if_pos h17, hcs] at hrun
  exact hrun

/-- TL_SYMS after a whole header `cs`: the buckets it declares are loaded, or cut off (R122). -/
theorem run_buckets (tot : Nat) (h17 : 17 ≤ s.inCount) :
    if 17 + symbolsOf cs ≤ s.inCount then
      Run (tls s c i (h.cnt.writeList 1 cs) h.sym 17 1 0 tot .syms) (symbolsOf cs + cs.length + 1)
        (ldtDone (BitVec.ofNat 32 (17 + symbolsOf cs))
          { s with ht := ⟨c, i, h.cnt.writeList 1 cs, writeBuckets h.sym 1 (bucketsAt s.ibufAt 17 cs)⟩ })
    else ∃ q, q ≤ symbolsOf cs + cs.length ∧
      Run (tls s c i (h.cnt.writeList 1 cs) h.sym 17 1 0 tot .syms) q (ldtFail .trunc s) := by
  have hlen : cs.length = 16 := hcs ▸ bytesAt_length _ _ _
  have hsum : symbolsOf cs ≤ 16 * 255 := by
    rw [← hcs, symbolsOf_bytesAt]
    exact sumCounts_le s.ibufAt 16
  have hread : ∀ x, ∀ hx : x < cs.length, (h.cnt.writeList 1 cs).read .htCnt (1 + x) = cs[x] := by
    intro x hx
    rw [Memory.read_writeList, dif_pos (by omega)]
    simp only [Nat.add_sub_cancel_left]
  exact run_syms hb hh c i (h.cnt.writeList 1 cs) tot cs 1 le_rfl (by omega) 17 h.sym hread (by omega) h17

end

section
variable {s : State} (hb : s.status.busy = true) (hh : s.held = none)
include hb hh

/-- The loader after a legal identity byte, on a whole definition. -/
theorem run_load (h : HuffTable) (j : Nat) {d : TableDef} (hp : parse s.ibufAt s.inCount = .ok d) :
    Run (tls s d.cls d.id h.cnt h.sym 1 1 j 0 .counts)
      (sumCounts (fun L => (s.ibufAt L).toNat) 16 + 34)
      (ldtDone (BitVec.ofNat 32 d.fin) { s with ht := h.load d }) := by
  obtain ⟨_, hn, rfl⟩ := of_parse_ok hp
  clear hp
  have hlen := bytesAt_length s.ibufAt 1 16
  rw [← symbolsOf_bytesAt] at hn ⊢
  generalize hcs : bytesAt s.ibufAt 1 16 = cs at hn hlen ⊢
  have hbuckets := run_buckets hb hh h (classOf (s.ibufAt 0)) (idOf (s.ibufAt 0)) hcs (0 + symbolsOf cs)
    (by omega)
  rw [if_pos hn] at hbuckets
  exact ((run_header hb hh h _ _ hcs j (by omega)).trans hbuckets).of_steps_eq (by omega)

/-- The loader after a legal identity byte, on a definition that is cut off. -/
theorem run_load_short (h : HuffTable) (c i : BitVec 1) (j : Nat) (hn : 1 ≤ s.inCount)
    (hshort : s.inCount < 17 + sumCounts (fun L => (s.ibufAt L).toNat) 16) :
    ∃ q, q ≤ sumCounts (fun L => (s.ibufAt L).toNat) 16 + 33 ∧
      Run (tls s c i h.cnt h.sym 1 1 j 0 .counts) q (ldtFail .trunc s) := by
  rcases Nat.lt_or_ge s.inCount 17 with h17 | h17
  · have hrun := run_counts hb hh c i h.sym j 16 1 0 h.cnt le_rfl rfl (by omega) hn
    rw [if_neg (by omega)] at hrun
    obtain ⟨q, hq, hrun⟩ := hrun
    exact ⟨q, by omega, hrun⟩
  · have hlen := bytesAt_length s.ibufAt 1 16
    rw [← symbolsOf_bytesAt] at hshort ⊢
    generalize hcs : bytesAt s.ibufAt 1 16 = cs at hshort hlen ⊢
    have hbuckets := run_buckets hb hh h c i hcs (0 + symbolsOf cs) h17
    rw [if_neg (by omega)] at hbuckets
    obtain ⟨q, hq, hrun⟩ := hbuckets
    exact ⟨17 + q, by omega, (run_header hb hh h c i hcs j h17).trans hrun⟩

end

/-- The state in which an accepted LDT starts the loader (R122). -/
def tlStarted (s : State) : State :=
  { ldtAccept s with tl := { s.tl with p := 0#13 }, tlState := .id }

theorem ldtStart_of_len {s : State} (hn : s.ibufSize < s.inCount) :
    ldtStart s = ldtFail .len (ldtAccept s) := if_pos hn

theorem ldtStart_of_le {s : State} (hn : s.inCount ≤ s.ibufSize) : ldtStart s = tlStarted s :=
  if_neg (Nat.not_lt.2 hn)

section
variable {s : State} (hh : s.held = none)
include hh

theorem unitStep_tlStarted : unitStep (tlStarted s) = tlIdStep (tlStarted s) :=
  (unitStep_of_held_none (s := tlStarted s) rfl hh).trans (runningStep_tl (s := tlStarted s) nofun)

/-- The step TL_ID on an empty buffer. -/
theorem unitStep_tlStarted_empty (hn : s.inCount = 0) :
    unitStep (tlStarted s) = ldtFail .trunc (ldtAccept s) :=
  (unitStep_tlStarted hh).trans (if_pos (show s.inCount ≤ 0 from hn.le))

/-- The step TL_ID on an illegal identity byte. -/
theorem unitStep_tlStarted_badId (hid : legalIdentity (s.ibufAt 0) = false) (hn : 1 ≤ s.inCount) :
    unitStep (tlStarted s) = ldtFail .badId (ldtAccept s) := by
  have hpos : ¬ (tlStarted s).inCount ≤ (tlStarted s).tl.p.toNat := Nat.not_le.2 hn
  have hbad : ¬ legalIdentity ((tlStarted s).ibufAt (tlStarted s).tl.p.toNat) = true :=
    Bool.eq_false_iff.1 hid
  rw [unitStep_tlStarted hh, tlIdStep, if_neg hpos, if_neg hbad]
  rfl

/-- The step TL_ID on a legal identity byte. -/
theorem unitStep_tlStarted_legal (hid : legalIdentity (s.ibufAt 0) = true) (hn : 1 ≤ s.inCount) :
    unitStep (tlStarted s) = tls (ldtAccept s) (classOf (s.ibufAt 0)) (idOf (s.ibufAt 0))
      (ldtAccept s).ht.cnt (ldtAccept s).ht.sym 1 1 s.tl.j.toNat 0 .counts := by
  have hpos : ¬ (tlStarted s).inCount ≤ (tlStarted s).tl.p.toNat := Nat.not_le.2 hn
  have hlegal : legalIdentity ((tlStarted s).ibufAt (tlStarted s).tl.p.toNat) = true := hid
  have hj : BitVec.ofNat 8 s.tl.j.toNat = s.tl.j := by simp
  rw [unitStep_tlStarted hh, tlIdStep, if_neg hpos, if_pos hlegal, tls, hj]
  rfl

/-- An accepted LDT whose parse succeeds: one step for the identity, 17 in TL_COUNTS, the rest in
TL_SYMS. -/
theorem run_ldtStart_of_parse (hn : s.inCount ≤ s.ibufSize) {d : TableDef}
    (hp : parse s.ibufAt s.inCount = .ok d) :
    Run (ldtStart s) (sumCounts (fun L => (s.ibufAt L).toNat) 16 + 35)
      (ldtDone (BitVec.ofNat 32 d.fin) { ldtAccept s with ht := (ldtAccept s).ht.load d }) := by
  obtain ⟨hid, hwhole, hd⟩ := of_parse_ok hp
  have hload := run_load (s := ldtAccept s) rfl hh (ldtAccept s).ht s.tl.j.toNat hp
  rw [ldtStart_of_le hn]
  refine Run.step rfl (unitStep_tlStarted_legal hh hid (by omega)) ?_
  rwa [hd] at hload ⊢

/-- An accepted LDT whose parse fails does so within the bound of R251. -/
theorem run_ldtStart_of_parse_error (hn : s.inCount ≤ s.ibufSize) {c : ErrCode}
    (hp : parse s.ibufAt s.inCount = .error c) :
    ∃ k, k + 1 ≤ 4116 ∧ Run (ldtStart s) k (ldtFail c (ldtAccept s)) := by
  rw [ldtStart_of_le hn]
  cases parseOutcome s.ibufAt s.inCount with
  | whole _ _ h =>
    obtain ⟨d, hd⟩ := h
    cases hd.symm.trans hp
  | badId hid hpos h =>
    cases h.symm.trans hp
    exact ⟨1, by omega, Run.step rfl (unitStep_tlStarted_badId hh hid hpos) (Run.refl _)⟩
  | trunc hshort h =>
    cases h.symm.trans hp
    rcases Nat.eq_zero_or_pos s.inCount with h0 | hpos
    · exact ⟨1, by omega, Run.step rfl (unitStep_tlStarted_empty hh h0) (Run.refl _)⟩
    · obtain ⟨hid, hlt⟩ := hshort.resolve_left (by omega)
      obtain ⟨q, hq, hrun⟩ := run_load_short (s := ldtAccept s) rfl hh (ldtAccept s).ht
        (classOf (s.ibufAt 0)) (idOf (s.ibufAt 0)) s.tl.j.toNat hpos hlt
      have hsum := sumCounts_le s.ibufAt 16
      rw [ldtAccept_ibufAt] at hq
      exact ⟨q + 1, by omega, Run.step rfl (unitStep_tlStarted_legal hh hid hpos) hrun⟩

end

/-- Settles O54: LDT fails at its acceptance, fails while it parses, or loads the whole table. -/
theorem ldtStepsReachTheOperation : Obligations.LdtStepsReachTheOperation := by
  unfold Obligations.LdtStepsReachTheOperation
  rintro s ⟨_, _, hh⟩
  rcases Nat.lt_or_ge s.ibufSize s.inCount with hn | hn
  · have hstart := ldtStart_of_len hn
    refine ⟨0, nofun, ?_, by omega, ?_⟩
    · exact (exec_ldt_of_fails (.inl ⟨hn, rfl⟩)).trans (congrArg _ hstart.symm)
    · rw [unitSteps, hstart]
      exact nofun
  · cases hp : parse s.ibufAt s.inCount with
    | error c =>
      obtain ⟨k, hk, hend, hbusy⟩ := run_ldtStart_of_parse_error hh hn hp
      refine ⟨k, hbusy, ?_, hk, ?_⟩
      · rw [hend, exec_ldt_of_fails (.inr ⟨hn, hp⟩)]
      · rw [hend]
        exact nofun
    | ok d =>
      obtain ⟨hend, hbusy⟩ := run_ldtStart_of_parse hh hn hp
      have hsum := sumCounts_le s.ibufAt 16
      refine ⟨_, hbusy, ?_, by omega, fun _ => ?_⟩
      · rw [hend, exec_ldt_of_parse hn hp]
      · rw [hend, ldtDone_ht, sumCounts_congr 16 fun _ => count_load_of_parse _ hp]

end Sys2Proof.Machine

namespace Sys2Proof.Machine

/-! ### The FIRST codes: the weighted sum, and codes of different lengths never overlap (R143, R144) -/

/-- FIRST[L] in closed form (R143). -/
theorem firstCode_eq_sum (n : Nat → Nat) {L : Nat} (hL : 1 ≤ L) :
    firstCode n L = ∑ j ∈ Finset.Ico 1 L, n j * 2 ^ (L - j) := by
  induction L, hL using Nat.le_induction with
  | base => rfl
  | succ L hL ih =>
    have hdouble : ∀ j ∈ Finset.Ico 1 L, 2 * (n j * 2 ^ (L - j)) = n j * 2 ^ (L + 1 - j) := by
      intro j hj
      rw [Nat.succ_sub (Finset.mem_Ico.1 hj).2.le, pow_succ]
      ring
    rw [firstCode_succ n hL, ih, Finset.sum_Ico_succ_top hL, mul_add, Finset.mul_sum,
      Finset.sum_congr rfl hdouble, Nat.add_sub_cancel_left]
    ring

/-- FIRST[L] over `2^L` is the part of the code space the shorter lengths use up (R147). -/
theorem cast_firstCode (n : Nat → Nat) {L : Nat} (hL : 1 ≤ L) :
    (firstCode n L : ℚ) = 2 ^ L * ∑ j ∈ Finset.Ico 1 L, (n j : ℚ) / 2 ^ j := by
  rw [firstCode_eq_sum n hL, Finset.mul_sum]
  push_cast
  refine Finset.sum_congr rfl fun j hj => ?_
  rw [pow_sub₀ _ two_ne_zero (Finset.mem_Ico.1 hj).2.le]
  ring

/-- Every longer length starts past all extensions of the codes of length `L`. -/
theorem mul_pow_le_firstCode (n : Nat → Nat) {L L' : Nat} (hL : 1 ≤ L) (h : L < L') :
    (firstCode n L + n L) * 2 ^ (L' - L) ≤ firstCode n L' := by
  induction L', (show L + 1 ≤ L' from h) using Nat.le_induction with
  | base => rw [firstCode_succ n hL, Nat.add_sub_cancel_left, pow_one, Nat.mul_comm]
  | succ K hK ih =>
    have hstep := ih hK
    rw [Nat.succ_sub (Nat.le_of_succ_le hK), pow_succ, ← Nat.mul_assoc, firstCode_succ n (by omega)]
    omega

/-! ### Which buckets fit (R146, R147) -/

/-- The buckets 1 to `n` fit exactly when the code value after them is still in range. -/
theorem fitsFrom_one_iff (bucket : Nat → List Byte) (n : Nat) :
    fitsFrom bucket n 1 ↔ firstCode (fun L => (bucket L).length) (n + 1) ≤ 2 ^ (n + 1) := by
  constructor
  · intro h
    cases n with
    | zero => exact Nat.zero_le _
    | succ n =>
      have hlast := h (n + 1) (by omega) (by omega)
      rw [firstCode_succ _ (by omega), pow_succ, Nat.mul_comm]
      exact Nat.mul_le_mul_right 2 hlast
  · intro h j h1 h2
    refine Nat.le_of_mul_le_mul_right ?_ (Nat.two_pow_pos (n + 1 - j))
    rw [← pow_add, Nat.add_sub_cancel' (by omega)]
    exact (mul_pow_le_firstCode (fun L => (bucket L).length) h1 (by omega)).trans h

theorem build_isSome_iff {bucket : Nat → List Byte} :
    (build bucket).isSome = true ↔ firstCode (fun L => (bucket L).length) 17 ≤ 2 ^ 17 := by
  rw [← fitsFrom_one_iff bucket 16]
  by_cases h : fitsFrom bucket 16 1
  · simp [(build_eq bucket).1 h, h]
  · simp [(build_eq bucket).2 h, h]

/-- Settles O21: the code value after length 16, over `2^17`, is the Kraft sum. -/
theorem buildSucceedsIffKraft : Obligations.BuildSucceedsIffKraft := by
  unfold Obligations.BuildSucceedsIffKraft
  intro bucket
  have hcast := cast_firstCode (fun L => (bucket L).length) (L := 17) (by omega)
  rw [build_isSome_iff, ← Nat.cast_le (α := ℚ), hcast, Nat.cast_pow, Nat.cast_ofNat,
    mul_le_iff_le_one_right (by positivity)]
  rfl

/-! ### What a built map holds (R143, R144) -/

section
variable {bucket : Nat → List Byte} {m : List Host.Cell} (hm : build bucket = some m)
include hm

theorem lookup_of_build_eq_some_iff {L v : Nat} {b : Byte} (hv : v < 65536) :
    (CodeMap.mk none m).lookup L v = some b ↔
      1 ≤ L ∧ L ≤ 16 ∧ ∃ i, ∃ h : i < (bucket L).length,
        v = firstCode (fun L => (bucket L).length) L + i ∧ b = (bucket L)[i] := by
  rw [lookup_of_build hm hv]
  split
  · next hin =>
    obtain ⟨h1, h16, hle, -⟩ := hin
    rw [List.getElem?_eq_some_iff]
    constructor
    · rintro ⟨hlt, rfl⟩
      exact ⟨h1, h16, _, hlt, (Nat.add_sub_cancel' hle).symm, rfl⟩
    · rintro ⟨-, -, i, hi, rfl, rfl⟩
      simp [hi]
  · next hout =>
    refine ⟨nofun, ?_⟩
    rintro ⟨h1, h16, i, hi, rfl, -⟩
    exact absurd ⟨h1, h16, by omega, by omega⟩ hout

/-- Where a key of a built map lies: in its length's block of consecutive codes (R143). -/
theorem range_of_lookup_isSome {L v : Nat} (hv : v < 65536)
    (h : ((CodeMap.mk none m).lookup L v).isSome) :
    1 ≤ L ∧ L ≤ 16 ∧ firstCode (fun L => (bucket L).length) L ≤ v ∧
      v < firstCode (fun L => (bucket L).length) L + (bucket L).length := by
  obtain ⟨b, hb⟩ := Option.isSome_iff_exists.1 h
  obtain ⟨h1, h16, i, hi, rfl, -⟩ := (lookup_of_build_eq_some_iff hm hv).1 hb
  exact ⟨h1, h16, by omega, by omega⟩

/-- A value that does not fit its length is no key (R146). -/
theorem lookup_of_build_eq_none {L v : Nat} (hv : v < 65536) (h : 2 ^ L ≤ v) :
    (CodeMap.mk none m).lookup L v = none := by
  by_contra hne
  obtain ⟨h1, h16, -, hlt⟩ := range_of_lookup_isSome hm hv (Option.isSome_iff_ne_none.2 hne)
  have hfit := (fits_of_build hm).1 L h1 (by omega)
  omega

theorem prefixFree_of_build : prefixFree (CodeMap.mk none m).lookup := by
  intro L L' v v' hlt hv hv' h h' heq
  obtain ⟨h1, -, -, hbelow⟩ := range_of_lookup_isSome hm hv h
  obtain ⟨-, -, habove, -⟩ := range_of_lookup_isSome hm hv' h'
  have hnext := (mul_pow_le_firstCode (fun L => (bucket L).length) h1 hlt).trans habove
  rw [← Nat.le_div_iff_mul_le (Nat.two_pow_pos _), heq] at hnext
  omega

end

/-- Settles O18, from the closed form of a lookup and that of FIRST. -/
theorem builtMapHoldsTheCanonicalCodes : Obligations.BuiltMapHoldsTheCanonicalCodes := by
  unfold Obligations.BuiltMapHoldsTheCanonicalCodes
  intro bucket m hm
  exact ⟨fun _ _ _ hv => lookup_of_build_eq_some_iff hm hv, fun _ hL => firstCode_eq_sum _ hL⟩

/-- Under the invariant a valid CMAP is the map built from HT (R42). -/
theorem State.Inv.cmap_eq {s : State} (h : s.Inv) (hv : s.status.mapValid = true) :
    ∃ m, s.cmap = ⟨none, m⟩ ∧ build s.ht.bucket = some m := by
  obtain ⟨hbg, hm⟩ := h.mapIsBuilt hv
  exact ⟨_, by rw [← hbg], hm⟩

/-- Settles O19: a code of length `L` is below all that the longer lengths extend. -/
theorem builtMapIsPrefixFree : Obligations.BuiltMapIsPrefixFree := by
  unfold Obligations.BuiltMapIsPrefixFree
  refine ⟨fun _ _ => prefixFree_of_build, ?_⟩
  intro s h hv
  obtain ⟨m, hcmap, hm⟩ := h.cmap_eq hv
  rw [hcmap]
  exact prefixFree_of_build hm

/-! ### How many keys a built map has (R145, R149) -/

/-- Listing an index above all the others appends its cell. -/
theorem cellsSet_eq_append {m : List Host.Cell} {i : Nat} (b : Byte) (h : ∀ c ∈ m, c.1 < i) :
    cellsSet m i b = m ++ [(i, b)] := by
  induction m with
  | nil => rfl
  | cons hd tl ih =>
    obtain ⟨k, c⟩ := hd
    have hk : k < i := h _ List.mem_cons_self
    rw [cellsSet, if_neg (by omega), if_neg (by omega), ih fun c hc => h c (List.mem_cons_of_mem _ hc)]
    rfl

/-- The pairs of a shorter length have the smaller keys. -/
theorem codeKey_lt_codeKey {L L' v v' : Nat} (hL : L < L') (hv : v < 65536) :
    codeKey L v < codeKey L' v' := by
  unfold codeKey
  omega

/-- `build` assigns rising keys, so every symbol of a bucket adds one cell. -/
theorem placeBucket_length {L code : Nat} (bs : List Byte) {m : List Host.Cell}
    (hm : ∀ c ∈ m, c.1 < codeKey L code) :
    (placeBucket L code bs m).length = m.length + bs.length := by
  induction bs generalizing code m with
  | nil => rfl
  | cons b bs ih =>
    have hkey : codeKey L code < codeKey L (code + 1) := Nat.lt_succ_self _
    have hnext : ∀ c ∈ cellsSet m (codeKey L code) b, c.1 < codeKey L (code + 1) :=
      cellsSet_forall (p := fun k => k < codeKey L (code + 1)) (fun c hc => (hm c hc).trans hkey) hkey
    rw [placeBucket, ih hnext, cellsSet_eq_append b hm]
    simp only [List.length_append, List.length_cons, List.length_nil]
    omega

theorem placeFrom_length {bucket : Nat → List Byte} {n L : Nat} {m : List Host.Cell}
    (hfit : fitsFrom bucket n (L + 1)) (hn : L + n ≤ 16) (hm : ∀ c ∈ m, c.1 < codeKey (L + 1) 0) :
    (placeFrom bucket n (L + 1) m).length + sumCounts (fun L => (bucket L).length) L =
      m.length + sumCounts (fun L => (bucket L).length) (L + n) := by
  induction n generalizing L m with
  | zero => rfl
  | succ n ih =>
    have hlt := fits_lt hfit le_rfl (by omega) (by omega)
    generalize hcode : firstCode (fun L => (bucket L).length) (L + 1) = code at hlt
    have hbelow : ∀ c ∈ m, c.1 < codeKey (L + 1) code :=
      fun c hc => (hm c hc).trans_le (Nat.add_le_add_left (Nat.zero_le code) _)
    have hnext : ∀ c ∈ placeBucket (L + 1) code (bucket (L + 1)) m, c.1 < codeKey (L + 1 + 1) 0 := by
      refine placeBucket_forall (p := fun k => k < codeKey (L + 1 + 1) 0) (fun c hc => ?_) fun v _ hv => ?_
      · exact (hm c hc).trans (codeKey_lt_codeKey (Nat.lt_succ_self _) (by omega))
      · exact codeKey_lt_codeKey (Nat.lt_succ_self _) (by omega)
    have hrest := ih (fitsFrom_succ.1 hfit).2 (by omega) hnext
    rw [placeBucket_length _ hbelow, sumCounts_succ] at hrest
    rw [placeFrom, hcode, show L + (n + 1) = L + 1 + n by omega]
    omega

theorem length_of_build {bucket : Nat → List Byte} {m : List Host.Cell} (hm : build bucket = some m) :
    m.length = sumCounts (fun L => (bucket L).length) 16 := by
  obtain ⟨hfit, rfl⟩ := fits_of_build hm
  have hlen := placeFrom_length (L := 0) hfit le_rfl nil_in
  simpa [sumCounts] using hlen

theorem cellsWf.nodup_keys {m : List Host.Cell} (h : cellsWf m) : (m.map Prod.fst).Nodup :=
  List.pairwise_map.2 (h.imp Nat.ne_of_lt)

/-- Settles O20: the keys are assigned in rising order. -/
theorem oneKeyPerSymbol : Obligations.OneKeyPerSymbol := by
  unfold Obligations.OneKeyPerSymbol
  exact fun _ _ hm => ⟨length_of_build hm, (build_wf hm).nodup_keys⟩

/-- Of 65536 units of code space a symbol of length `L` takes `2^(16 - L)`. That is 256 or more up to
length 8, and `256 - 2^(16 - L)` less than 256 for the longer ones, of which there are at most 255 each. -/
theorem sumCounts_le_of_firstCode_le {n : Nat → Nat} (hbyte : ∀ L, n L ≤ 255)
    (h : firstCode n 17 ≤ 2 ^ 17) : sumCounts n 16 ≤ 2041 := by
  have hspace : 256 * sumCounts n 16 ≤ 2 ^ 16 + (128 * n 9 + 192 * n 10 + 224 * n 11 + 240 * n 12 +
      248 * n 13 + 252 * n 14 + 254 * n 15 + 255 * n 16) := by
    simp only [firstCode, sumCounts] at h ⊢
    linarith
  linarith [hbyte 9, hbyte 10, hbyte 11, hbyte 12, hbyte 13, hbyte 14, hbyte 15, hbyte 16]

/-- Settles O22: as many keys as symbols, and the Kraft inequality bounds the symbols. -/
theorem builtMapHasAtMost2041Entries : Obligations.BuiltMapHasAtMost2041Entries := by
  unfold Obligations.BuiltMapHasAtMost2041Entries
  intro bucket m hbyte hm
  rw [length_of_build hm]
  exact sumCounts_le_of_firstCode_le hbyte (build_isSome_iff.1 (by rw [hm]; rfl))

/-! ### BLD and LKP at the operation level (R141, R148) -/

theorem exec_bld_of_fails {s : State} {c : ErrCode} (h : Fails .bld s c) :
    exec .bld s = .next (bldFail c (bldAccept s)) := by
  rw [exec_eq]
  obtain ⟨hv, rfl⟩ | ⟨hv, hm, rfl⟩ := h
  · exact congrArg _ (bldBody_noTbl (s := bldAccept s) hv)
  · exact congrArg _ (bldBody_overSub (s := bldAccept s) hv hm)

theorem exec_bld_of_build {s : State} {m : List Host.Cell} (hv : s.status.tblValid = true)
    (hm : build s.ht.bucket = some m) :
    exec .bld s = .next (bldDone { bldAccept s with cmap := ⟨none, m⟩ }) :=
  (exec_eq .bld s).trans (congrArg _ (bldBody_ok (s := bldAccept s) hv hm))

/-- Settles O17: each cause of failure and the success in turn, then what all of them leave alone. -/
theorem bldBuildsTheMap : Obligations.BldBuildsTheMap := by
  unfold Obligations.BldBuildsTheMap
  intro s
  obtain ⟨t, ht⟩ : ∃ t, exec .bld s = .next t := ⟨_, exec_eq .bld s⟩
  refine ⟨t, ht, fun hv m hm => ?_, fun hv hm => ?_, fun hv => ?_, ?_⟩
  · cases ht.symm.trans (exec_bld_of_build hv hm)
    exact ⟨rfl, rfl⟩
  · cases ht.symm.trans (exec_bld_of_fails (.inr ⟨hv, hm, rfl⟩))
    rfl
  · cases ht.symm.trans (exec_bld_of_fails (.inl ⟨hv, rfl⟩))
    rfl
  · cases completion_of_exec ht <;>
      exact ⟨rfl, rfl, rfl, rfl, rfl, rfl, rfl, rfl, rfl, rfl, rfl, rfl, rfl, rfl, rfl, rfl, rfl, rfl, rfl⟩

/-- LKP_RES of a hit as R148 writes it: `0x100 | SYM`. -/
theorem lkpHit_eq_or (b : Byte) : lkpHit b = 0x100#32 ||| b.setWidth 32 := by
  have hb : b.toNat % 4294967296 = b.toNat := Nat.mod_eq_of_lt (by omega)
  refine BitVec.eq_of_toNat_eq ?_
  rw [lkpHit, BitVec.toNat_append, BitVec.toNat_or, BitVec.toNat_setWidth, hb]
  rfl

/-- Settles O23: a hit, a miss and no map in turn; under the invariant the map is a built one. -/
theorem lkpProbesTheMap : Obligations.LkpProbesTheMap := by
  unfold Obligations.LkpProbesTheMap
  intro s len pat _
  rw [exec_eq]
  refine ⟨fun hv b hl => ?_, fun hv hl => ?_, fun hv => ?_, fun hinv hv hpat => ?_⟩
  · rw [← lkpHit_eq_or]
    exact congrArg _ (lkpBody_hit (s := accept s) hv hl)
  · exact congrArg _ (lkpBody_miss (s := accept s) hv hl)
  · exact congrArg _ (lkpBody_noMap (s := accept s) _ _ hv)
  · obtain ⟨m, hcmap, hm⟩ := hinv.cmap_eq hv
    rw [hcmap]
    exact lookup_of_build_eq_none hm pat.isLt hpat

/-! ### BLD step by step reaches the operation (R142) -/

theorem bldStart_of_noTbl {s : State} (hv : s.status.tblValid = false) :
    bldStart s = bldFail .noTbl (bldAccept s) := if_neg (Bool.eq_false_iff.1 hv)

/-- With a valid table the builder starts at length 1 with code 0 and an empty map. -/
theorem bldStart_of_tblValid {s : State} (hv : s.status.tblValid = true) :
    bldStart s = tbs (bldAccept s) [] 1 0 0 .assign := if_pos hv

section
variable {s : State} (htl : s.tlState = .idle) (hh : s.held = none) (hv : s.status.tblValid = true)
include htl hh hv

/-- An accepted BLD on a table that fits: one step per symbol and two per length. -/
theorem run_bldStart_of_build {m : List Host.Cell} (hm : build s.ht.bucket = some m) :
    Run (bldStart s) (sumCounts s.ht.count 16 + 32)
      (bldDone { bldAccept s with cmap := ⟨none, m⟩ }) := by
  have hrun := run_build (s := bldAccept s) htl rfl hh 15 1 0 [] le_rfl rfl (by omega)
  rw [show buildFrom (bldAccept s).ht.bucket (15 + 1) 1 0 [] = some m from hm] at hrun
  obtain ⟨k, hk, hrun⟩ := hrun
  rw [bldStart_of_tblValid hv]
  exact hrun.of_steps_eq hk

/-- An accepted BLD on a table that does not fit fails no later than a success would come. -/
theorem run_bldStart_of_build_none (hm : build s.ht.bucket = none) :
    ∃ k, k ≤ sumCounts s.ht.count 16 + 32 ∧ Run (bldStart s) k (bldFail .overSub (bldAccept s)) := by
  have hrun := run_build (s := bldAccept s) htl rfl hh 15 1 0 [] le_rfl rfl (by omega)
  rw [show buildFrom (bldAccept s).ht.bucket (15 + 1) 1 0 [] = none from hm] at hrun
  rw [bldStart_of_tblValid hv]
  exact hrun

end

/-- Settles O55: BLD fails at its acceptance, fails at the first symbol that does not fit, or builds the
whole map. -/
theorem bldStepsReachTheOperation : Obligations.BldStepsReachTheOperation := by
  unfold Obligations.BldStepsReachTheOperation
  rintro s ⟨_, ⟨htl, _, _⟩, hh⟩
  have hsum := sumCounts_count_le s.ht 16
  cases hv : s.status.tblValid with
  | false =>
    have hstart := bldStart_of_noTbl hv
    refine ⟨0, nofun, ?_, by omega, ?_⟩
    · rw [unitSteps, hstart, exec_bld_of_fails (.inl ⟨hv, rfl⟩)]
    · rw [unitSteps, hstart]
      exact nofun
  | true =>
    cases hm : build s.ht.bucket with
    | none =>
      obtain ⟨k, hk, hend, hbusy⟩ := run_bldStart_of_build_none htl hh hv hm
      refine ⟨k, hbusy, ?_, by omega, ?_⟩
      · rw [hend, exec_bld_of_fails (.inr ⟨hv, hm, rfl⟩)]
      · rw [hend]
        exact nofun
    | some m =>
      obtain ⟨hend, hbusy⟩ := run_bldStart_of_build htl hh hv hm
      refine ⟨_, hbusy, ?_, by omega, fun _ => rfl⟩
      rw [hend, exec_bld_of_build hv hm]

end Sys2Proof.Machine

namespace Sys2Proof.Machine

/-! ### Reading codes off a bit sequence, no code beginning another (R100, R171, R175) -/

theorem window_lt_65536 {bit : Nat → Nat} (hbit : ∀ k, bit k ≤ 1) (c : Nat) {n : Nat} (hn : n ≤ 16) :
    window bit c n < 65536 :=
  (window_lt hbit c n).trans_le (Nat.pow_le_pow_right (by norm_num) hn)

section
variable {map : Nat → Nat → Option Byte} (hpre : prefixFree map) {bit : Nat → Nat} (hbit : ∀ k, bit k ≤ 1)
include hpre hbit

/-- Of two windows at one cursor the longer begins with the shorter, so they are not both keys. -/
theorem not_isSome_longer_window {c L L' : Nat} (hlt : L < L') (h16 : L' ≤ 16)
    (h : (map L (window bit c L)).isSome) : ¬ (map L' (window bit c L')).isSome := by
  intro h'
  have hbegins := window_div hbit c L (L' - L)
  rw [Nat.add_sub_cancel' hlt.le] at hbegins
  exact hpre L L' _ _ hlt (window_lt_65536 hbit c (by omega)) (window_lt_65536 hbit c h16) h h' hbegins

theorem matching_length_unique {c L L' : Nat} (h16 : L ≤ 16) (h16' : L' ≤ 16)
    (h : (map L (window bit c L)).isSome) (h' : (map L' (window bit c L')).isSome) : L = L' := by
  rcases Nat.lt_trichotomy L L' with hlt | heq | hgt
  · exact absurd h' (not_isSome_longer_window hpre hbit hlt h16' h)
  · exact heq
  · exact absurd h (not_isSome_longer_window hpre hbit hgt h16 h')

/-- The inner loop finds a code that stands at the cursor: no other length can match before it. -/
theorem tryLengths_of_prefixFree {nbits c L : Nat} {b : Byte} (h1 : 1 ≤ L) (h16 : L ≤ 16)
    (hfit : c + L ≤ nbits) (hkey : map L (window bit c L) = some b) :
    tryLengths map bit nbits c 16 1 = some (L, b) := by
  cases htry : tryLengths map bit nbits c 16 1 with
  | none =>
    have hno := tryLengths_none.1 htry L h1 (by omega) hfit
    exact nomatch hno.symm.trans hkey
  | some r =>
    obtain ⟨L', b'⟩ := r
    obtain ⟨-, hlt', -, hkey', -⟩ := tryLengths_some htry
    obtain rfl : L = L' := matching_length_unique hpre hbit h16 (by omega)
      (Option.isSome_of_eq_some hkey) (Option.isSome_of_eq_some hkey')
    obtain rfl : b' = b := Option.some.inj (hkey'.symm.trans hkey)
    rfl

/-- The outer loop, on bits that are a concatenation of codes up to the end, gives their symbols. -/
theorem decodeFrom_of_spells {nbits fuel c : Nat} {codes : List Coded}
    (hcodes : ∀ x ∈ codes, 1 ≤ x.1 ∧ x.1 ≤ 16 ∧ map x.1 x.2.1 = some x.2.2)
    (hspells : spells bit c codes) (hsum : c + (codes.map fun x => x.1).sum = nbits)
    (hfuel : nbits < c + fuel) :
    decodeFrom map bit nbits fuel c = .ok (codes.map fun x => x.2.2, nbits) := by
  induction codes generalizing fuel c with
  | nil =>
    obtain ⟨fuel, rfl⟩ : ∃ f, fuel = f + 1 := ⟨fuel - 1, by omega⟩
    obtain rfl : c = nbits := hsum
    rw [decodeFrom, if_neg (Nat.lt_irrefl c)]
    rfl
  | cons x codes ih =>
    obtain ⟨L, v, b⟩ := x
    obtain ⟨fuel, rfl⟩ : ∃ f, fuel = f + 1 := ⟨fuel - 1, by omega⟩
    obtain ⟨⟨h1, h16, hkey⟩, hrest⟩ := List.forall_mem_cons.1 hcodes
    obtain ⟨rfl, hspells⟩ := hspells
    rw [List.map_cons, List.sum_cons] at hsum
    have htry : tryLengths map bit nbits c Config.nlen 1 = some (L, b) :=
      tryLengths_of_prefixFree hpre hbit h1 h16 (by omega) hkey
    have hrec := ih hrest hspells (by omega) (show nbits < c + L + fuel by omega)
    rw [decodeFrom, if_pos (by omega), htry]
    simp only [hrec, List.map_cons]

end

/-- Settles O26: the codes that a successful decode reads are each 1 to 16 bits long. -/
theorem decodeBounds : Obligations.DecodeBounds := by
  unfold Obligations.DecodeBounds
  refine fun map buf n => ⟨fun out cur hd => ?_, fun cur hd => ?_⟩
  · have hlen := (decode_ok_bounds hd).2
    obtain ⟨hcur, codes, hcodes, hspells, hsum, hout⟩ := decodeFrom_ok (Nat.zero_le _) hd
    rw [Nat.zero_add] at hsum
    have hmost : (codes.map fun x => x.1).sum ≤ (codes.map fun x => x.1).length • 16 :=
      List.sum_le_card_nsmul _ 16 (List.forall_mem_map.2 fun x hx => (hcodes x hx).2.1)
    refine ⟨hcur, ⟨codes, hout, hcodes, hspells, hsum⟩, hlen, ?_⟩
    rw [hsum, List.length_map, smul_eq_mul] at hmost
    rw [← hout, List.length_map]
    omega
  · obtain ⟨-, hlt, htry⟩ := decodeFrom_error (Nat.zero_le _) (by omega) hd
    exact ⟨hlt, fun L h1 h16 hfit => tryLengths_none.1 htry L h1 (by omega) hfit⟩

/-- Settles O27: no key of a built map begins another. -/
theorem atMostOneLengthMatches : Obligations.AtMostOneLengthMatches := by
  unfold Obligations.AtMostOneLengthMatches
  exact fun _ _ hm buf _ _ _ _ h16 _ h16' =>
    matching_length_unique (prefixFree_of_build hm) (streamBit_le_one buf) h16 h16'

/-- Settles O28: what a decode reads are codes, and codes are read back because no other matches. -/
theorem decodeIsParsingIntoCodes : Obligations.DecodeIsParsingIntoCodes := by
  unfold Obligations.DecodeIsParsingIntoCodes
  refine fun bucket m hm buf n out => ⟨fun hd => ?_, ?_⟩
  · obtain ⟨-, codes, hcodes, hspells, hsum, hout⟩ := decodeFrom_ok (Nat.zero_le _) hd
    exact ⟨codes, hcodes, hspells, by omega, hout⟩
  · rintro ⟨codes, hcodes, hspells, hsum, rfl⟩
    exact decodeFrom_of_spells (prefixFree_of_build hm) (streamBit_le_one buf) hcodes hspells (by omega)
      (by omega)

/-! ### DEC at the operation level (R172) -/

/-- DEC accepted in `s` decodes the whole input into the symbols `out`, its cursor ending at `cur`. -/
def Decodes (s : State) (out : List Byte) (cur : Nat) : Prop :=
  s.status.mapValid = true ∧ s.inCount ≤ s.ibufSize ∧
    decode s.cmap.lookup s.ibufAt s.inCount = .ok (out, cur)

/-- DEC accepted in `s` fails with the cause `c`, at the bit `pos` with `rem` bits remaining, both 0 when
it fails before it decodes (R172, R213). -/
def DecFailsAt (s : State) (c : ErrCode) (pos rem : Nat) : Prop :=
  (s.status.mapValid = false ∧ c = .noMap ∧ pos = 0 ∧ rem = 0) ∨
  (s.status.mapValid = true ∧ s.ibufSize < s.inCount ∧ c = .len ∧ pos = 0 ∧ rem = 0) ∨
  (s.status.mapValid = true ∧ s.inCount ≤ s.ibufSize ∧
    decode s.cmap.lookup s.ibufAt s.inCount = .error pos ∧ c = .noCode ∧ rem = 8 * s.inCount - pos)

theorem decodes_or_decFailsAt (s : State) :
    (∃ out cur, Decodes s out cur) ∨ ∃ c pos rem, DecFailsAt s c pos rem := by
  cases hv : s.status.mapValid with
  | false => exact .inr ⟨_, _, _, .inl ⟨hv, rfl, rfl, rfl⟩⟩
  | true =>
    rcases Nat.lt_or_ge s.ibufSize s.inCount with hn | hn
    · exact .inr ⟨_, _, _, .inr (.inl ⟨hv, hn, rfl, rfl, rfl⟩)⟩
    · cases hd : decode s.cmap.lookup s.ibufAt s.inCount with
      | ok r => exact .inl ⟨r.1, r.2, hv, hn, hd⟩
      | error pos => exact .inr ⟨_, pos, _, .inr (.inr ⟨hv, hn, hd, rfl, rfl⟩)⟩

/-- The state in which a DEC that decodes completes. -/
def decDelivered (out : List Byte) (cur : Nat) (s : State) : State :=
  decDone (BitVec.ofNat 32 out.length) (BitVec.ofNat 32 cur)
    { decAccept s with obuf := (decAccept s).obuf.writeList 0 out }

/-- The state in which a DEC that fails completes. -/
def decFailed (c : ErrCode) (pos rem : Nat) (s : State) : State :=
  decFail c { decAccept s with bitPos := BitVec.ofNat 32 pos, bitRem := BitVec.ofNat 32 rem }

theorem exec_dec_of_decodes {s : State} {out : List Byte} {cur : Nat} (h : Decodes s out cur) :
    exec .dec s = .next (decDelivered out cur s) := by
  obtain ⟨hv, hn, hd⟩ := h
  exact (exec_eq .dec s).trans (congrArg _ (decBody_ok (s := decAccept s) hv hn hd))

theorem exec_dec_of_decFailsAt {s : State} {c : ErrCode} {pos rem : Nat} (h : DecFailsAt s c pos rem) :
    exec .dec s = .next (decFailed c pos rem s) := by
  rw [exec_eq]
  obtain ⟨hv, rfl, rfl, rfl⟩ | ⟨hv, hn, rfl, rfl, rfl⟩ | ⟨hv, hn, hd, rfl, rfl⟩ := h
  · exact congrArg _ (decBody_noMap (s := decAccept s) hv)
  · exact congrArg _ (decBody_len (s := decAccept s) hv hn)
  · exact congrArg _ (decBody_noCode (s := decAccept s) hv hn hd)

theorem obufAt_decDelivered {out : List Byte} {k : Nat} (cur : Nat) (s : State) (hk : k < out.length) :
    (decDelivered out cur s).obufAt k = out[k] := by
  rw [decDelivered, decDone_obufAt, State.obufAt, Memory.read_writeList, dif_pos (by omega)]
  rfl

/-- Position and remainder lie within the input, whose length is legal unless both are 0. -/
theorem DecFailsAt.le_bits {s : State} {c : ErrCode} {pos rem : Nat} (h : DecFailsAt s c pos rem) :
    pos ≤ 8 * s.inCount ∧ rem ≤ 8 * s.inCount ∧ (pos = 0 ∧ rem = 0 ∨ s.inCount ≤ s.ibufSize) := by
  obtain ⟨-, -, rfl, rfl⟩ | ⟨-, -, -, rfl, rfl⟩ | ⟨-, hn, hd, -, rfl⟩ := h
  · simp
  · simp
  · have hlt := decode_error_lt hd
    omega

/-- Settles O24: the symbols are written from index 0 on, and their number fits OUT_LEN and OBUF. -/
theorem decDeliversTheSymbols : Obligations.DecDeliversTheSymbols := by
  unfold Obligations.DecDeliversTheSymbols
  intro s out cur hmax hv hn hd
  obtain ⟨rfl, hlen⟩ := decode_ok_bounds hd
  have houtLen : (decDelivered out (8 * s.inCount) s).outLen.toNat = out.length :=
    toNat_ofNat_of_le_bits hlen hn hmax
  refine ⟨_, exec_dec_of_decodes ⟨hv, hn, hd⟩, rfl, houtLen, toNat_ofNat_of_le_bits le_rfl hn hmax, rfl,
    fun k hk => ?_, fun k hk => ?_, rfl, rfl, rfl, rfl, rfl, rfl, rfl, rfl, rfl, rfl, rfl, rfl, rfl, rfl, rfl,
    rfl⟩
  · have hroom : out.length ≤ 8 * s.ibufSize := hlen.trans (Nat.mul_le_mul_left 8 hn)
    exact (obufValue_unmasked (s := decDelivered _ _ s) rfl (houtLen.symm ▸ hk) (hk.trans_le hroom)).trans
      (obufAt_decDelivered _ _ hk)
  · exact obufValue_masked (.inr (.inl (houtLen.symm ▸ hk)))

/-- Settles O25: every failure ends in `decFailed`, and its position and remainder fit their registers. -/
theorem decFailureGivesNoOutput : Obligations.DecFailureGivesNoOutput := by
  unfold Obligations.DecFailureGivesNoOutput
  intro s c pos rem hmax (hfails : DecFailsAt s c pos rem)
  obtain ⟨hbitPos, hbitRem⟩ : (BitVec.ofNat 32 pos).toNat = pos ∧ (BitVec.ofNat 32 rem).toNat = rem := by
    obtain ⟨hpos, hrem, ⟨rfl, rfl⟩ | hn⟩ := hfails.le_bits
    · exact ⟨rfl, rfl⟩
    · exact ⟨toNat_ofNat_of_le_bits hpos hn hmax, toNat_ofNat_of_le_bits hrem hn hmax⟩
  exact ⟨_, exec_dec_of_decFailsAt hfails, rfl, rfl, hbitPos, hbitRem, obufValue_of_outValid_false rfl,
    rfl, rfl, rfl, rfl, rfl, rfl, rfl, rfl, rfl, rfl, rfl, rfl, rfl, rfl, rfl, rfl⟩

/-- Settles O29: whether DEC decodes or how it fails is said by the map and the declared bytes alone. -/
theorem sameInputsDecodeAlike : Obligations.SameInputsDecodeAlike := by
  unfold Obligations.SameInputsDecodeAlike
  intro s t s' t' hs ht hsize hvs hvt hcmap hinLen hbytes
  have hv : s.status.mapValid = t.status.mapValid := hvs.trans hvt.symm
  have hcount : s.inCount = t.inCount := congrArg BitVec.toNat hinLen
  have hdecode : decode s.cmap.lookup s.ibufAt s.inCount = decode t.cmap.lookup t.ibufAt t.inCount := by
    rw [← hcmap, ← hcount]
    exact decode_congr hbytes fun _ _ _ _ _ => rfl
  rcases decodes_or_decFailsAt s with ⟨out, cur, hds⟩ | ⟨c, pos, rem, hfs⟩
  · have hdt : Decodes t out cur := by rwa [Decodes, hv, hdecode, hcount, hsize] at hds
    cases hs.symm.trans (exec_dec_of_decodes hds)
    cases ht.symm.trans (exec_dec_of_decodes hdt)
    refine ⟨rfl, fun k hk => ?_, rfl, rfl, rfl, rfl, rfl⟩
    have hk : k < out.length := hk.trans_le (BitVec.toNat_ofNat _ _ ▸ Nat.mod_le _ _)
    rw [obufAt_decDelivered _ _ hk, obufAt_decDelivered _ _ hk]
  · have hft : DecFailsAt t c pos rem := by rwa [DecFailsAt, hv, hdecode, hcount, hsize] at hfs
    cases hs.symm.trans (exec_dec_of_decFailsAt hfs)
    cases ht.symm.trans (exec_dec_of_decFailsAt hft)
    exact ⟨rfl, fun k hk => absurd hk (Nat.not_lt_zero k), rfl, rfl, rfl, rfl, rfl⟩

/-! ### DEC step by step reaches the operation (R173) -/

theorem decStart_of_noMap {s : State} (hv : s.status.mapValid = false) :
    decStart s = decFail .noMap (decAccept s) := if_neg (Bool.eq_false_iff.1 hv)

theorem decStart_of_len {s : State} (hv : s.status.mapValid = true) (hn : s.ibufSize < s.inCount) :
    decStart s = decFail .len (decAccept s) := (if_pos hv).trans (if_pos hn)

/-- With a valid map and a legal IN_LEN the decoder starts at the first bit with no symbol. -/
theorem decStart_of_le {s : State} (hv : s.status.mapValid = true) (hn : s.inCount ≤ s.ibufSize) :
    decStart s = eds (decAccept s) (8 * s.inCount) [] 0 s.ed.len .test :=
  (if_pos hv).trans (if_neg (Nat.not_lt.2 hn))

section
variable {s : State} (htl : s.tlState = .idle) (htb : s.tbState = .idle) (hh : s.held = none)
  (hmax : s.ibufSize ≤ Config.ibufSizeMax)
include htl htb hh hmax

/-- The started decoder runs to where `decode` ends: at most 17 steps for each symbol, and one more for the
end, on success. -/
theorem run_decStart_of_le (hv : s.status.mapValid = true) (hn : s.inCount ≤ s.ibufSize)
    {r : Except Nat (List Byte × Nat)} : decode s.cmap.lookup s.ibufAt s.inCount = r →
    match r with
    | .error pos => ∃ k, k ≤ 17 * (8 * s.inCount) + 18 ∧
        Run (decStart s) k (decFailed .noCode pos (8 * s.inCount - pos) s)
    | .ok (out, cur) => out.length ≤ 8 * s.inCount ∧
        ∃ k, k ≤ 17 * out.length + 1 ∧ Run (decStart s) k (decDelivered out cur s) := by
  have hcap : Config.ibufSizeMax = 268435456 := rfl
  rintro rfl
  rw [decStart_of_le hv hn]
  exact run_decode (s := decAccept s) htl htb rfl hh (8 * s.inCount) (by omega) (8 * s.inCount + 1) [] 0
    s.ed.len le_rfl (Nat.zero_le _) (by omega)

/-- An accepted DEC that fails, at its acceptance or where no code matches. -/
theorem run_decStart_of_decFailsAt {c : ErrCode} {pos rem : Nat} (h : DecFailsAt s c pos rem) :
    ∃ k, k ≤ 17 * (8 * s.inCount) + 18 ∧ Run (decStart s) k (decFailed c pos rem s) := by
  obtain ⟨hv, rfl, rfl, rfl⟩ | ⟨hv, hn, rfl, rfl, rfl⟩ | ⟨hv, hn, hd, rfl, rfl⟩ := h
  · exact ⟨0, Nat.zero_le _, decStart_of_noMap hv ▸ Run.refl _⟩
  · exact ⟨0, Nat.zero_le _, decStart_of_len hv hn ▸ Run.refl _⟩
  · exact run_decStart_of_le htl htb hh hmax hv hn hd

end

/-- Settles O56: DEC decodes the whole input, or fails at its acceptance or where no code matches. -/
theorem decStepsReachTheOperation : Obligations.DecStepsReachTheOperation := by
  unfold Obligations.DecStepsReachTheOperation
  rintro s ⟨_, ⟨htl, htb, _⟩, hh⟩ hmax
  rcases decodes_or_decFailsAt s with ⟨out, cur, hd⟩ | ⟨c, pos, rem, hf⟩
  · have hexec := exec_dec_of_decodes hd
    obtain ⟨hv, hn, hd⟩ := hd
    obtain ⟨hlen, k, hk, hend, hbusy⟩ := run_decStart_of_le htl htb hh hmax hv hn hd
    have houtLen : (decDelivered out cur s).outLen.toNat = out.length :=
      toNat_ofNat_of_le_bits hlen hn hmax
    refine ⟨k, hbusy, ?_, by omega, fun _ => ?_⟩
    · rw [hend, hexec]
    · rw [hend, houtLen]
      omega
  · obtain ⟨k, hk, hend, hbusy⟩ := run_decStart_of_decFailsAt htl htb hh hmax hf
    refine ⟨k, hbusy, ?_, by omega, ?_⟩
    · rw [hend, exec_dec_of_decFailsAt hf]
    · rw [hend]
      exact nofun

end Sys2Proof.Machine

namespace Sys2Proof

/-! ### The word of a table row, and CLR's opcode (R90, R93) -/

theorem decodeTableWord_eq_some_iff {nbits w : Nat} {i : Instr} :
    decodeTableWord nbits w = some i ↔ decodeCmd (tableWord nbits w) = .ok i := by
  unfold decodeTableWord
  cases decodeCmd (tableWord nbits w) <;> simp

/-- Over any upper bit that is not 0, CLR's opcode is no command (R93). -/
theorem decodeCmd_error_of_clr_opcode {w : Word} (hopc : w.toNat % 256 = 1) (hw : w ≠ 1#32) :
    ∃ e, decodeCmd w = .error e := by
  have hne : w.toNat ≠ 1 := fun h => hw (BitVec.eq_of_toNat_eq h)
  rw [exists_decodeCmd_eq_error_iff, exists_decodeCmd_eq_ok_iff]
  omega

end Sys2Proof

namespace Sys2Proof.Machine

/-! ### CLR, illegal words and the placed word (R200, R201, R202) -/

/-- A CMD write to an idle block runs the command its word encodes (R22, R202). -/
theorem step_cmdWrite_idle {s : State} {w : Word} {rest : List HostEvent} {i : Instr}
    (hb : s.status.busy = false) (hp : s.port = .access (.regWrite 0 w) :: rest)
    (hw : decodeCmd w = .ok i) : step s = exec i { s with port := rest } :=
  ((cmdWriteRunsTheDecodedCommand.1 s w rest hp).1 hb).1 i hw

/-- A CMD write to a busy block is discarded, whatever its word (R72, R203). -/
theorem step_cmdWrite_busy {s : State} {w : Word} {rest : List HostEvent} (hb : s.status.busy = true)
    (hp : s.port = .access (.regWrite 0 w) :: rest) :
    step s = .next { s with port := rest, status := { s.status with ovr := true } } :=
  step_access_busy hp hb

/-- Settles O4: CLR's end state field by field, the frame of the other commands, and its word. -/
theorem clrClearsAndKeepsIbuf : Obligations.ClrClearsAndKeepsIbuf := by
  unfold Obligations.ClrClearsAndKeepsIbuf
  refine ⟨fun s => ⟨_, exec_eq .clr s, rfl, ?regs, ?obuf, rfl, rfl, rfl, rfl, rfl, rfl, rfl, rfl, rfl, rfl,
    rfl, rfl, rfl, rfl⟩, ?others, rfl, fun _ => decodeCmd_error_of_clr_opcode, fun _ _ => step_cmdWrite_busy⟩
  case regs => exact regValue_of_cleared (s := clrBody (accept s)) rfl rfl rfl rfl rfl rfl rfl
  case obuf => exact obufValue_of_outValid_false rfl
  case others =>
    intro i s t hexec hi
    have hframe := (completion_of_exec hexec).regFrame hi
    exact ⟨hframe.inLen, hframe.ovr⟩

/-- Settles O5: legality is tested first, and an idle block only records the failure. -/
theorem illegalWordChangesOnlyErr : Obligations.IllegalWordChangesOnlyErr := by
  unfold Obligations.IllegalWordChangesOnlyErr
  refine fun s w e hw => ⟨fun hb => ?_, fun _ => step_cmdWrite_busy, rfl⟩
  rw [runCommand_of_error hw, illegalBody_of_idle hb]

/-- Settles O7: the placed word is the next CMD write, and the block it is placed in is idle. -/
theorem placedWordRunsNext : Obligations.PlacedWordRunsNext := by
  unfold Obligations.PlacedWordRunsNext
  intro s nbits w i hw
  exact step_cmdWrite_idle (s := s.withFetchWord nbits w) rfl rfl (decodeTableWord_eq_some_iff.1 hw)

end Sys2Proof.Machine

namespace Sys2Proof.Machine

/-! ### Every command ends, and what its end reports (R210, R211, R212, R213) -/

/-- The causes LDT can fail with (R211). -/
theorem cause_of_fails_ldt {s : State} {c : ErrCode} (h : Fails .ldt s c) :
    c = .len ∨ c = .trunc ∨ c = .badId := by
  obtain ⟨_, rfl⟩ | ⟨_, hp⟩ := h
  · exact .inl rfl
  · cases parseOutcome s.ibufAt s.inCount with
    | whole _ _ hok =>
      obtain ⟨d, hd⟩ := hok
      cases hd.symm.trans hp
    | trunc _ htrunc =>
      cases htrunc.symm.trans hp
      exact .inr (.inl rfl)
    | badId _ _ hbadId =>
      cases hbadId.symm.trans hp
      exact .inr (.inr rfl)

/-- A failing DEC stops at some bit with some bits remaining (R172). -/
theorem decFailsAt_of_fails {s : State} {c : ErrCode} (h : Fails .dec s c) :
    ∃ pos rem, DecFailsAt s c pos rem := by
  obtain ⟨hv, rfl⟩ | ⟨hv, hn, rfl⟩ | ⟨hv, hn, ⟨cur, hd⟩, rfl⟩ := h
  · exact ⟨0, 0, .inl ⟨hv, rfl, rfl, rfl⟩⟩
  · exact ⟨0, 0, .inr (.inl ⟨hv, hn, rfl, rfl, rfl⟩)⟩
  · exact ⟨cur, _, .inr (.inr ⟨hv, hn, hd, rfl, rfl⟩)⟩

/-- What a failing DEC leaves in BITPOS and BITREM, cause by cause (R212). -/
theorem decFailed_position {s : State} {c : ErrCode} {pos rem : Nat} (h : DecFailsAt s c pos rem)
    (hmax : s.ibufSize ≤ Config.ibufSizeMax) :
    ((c = .noMap ∨ c = .len) ∧ (decFailed c pos rem s).bitPos = 0#32 ∧
      (decFailed c pos rem s).bitRem = 0#32) ∨
    (c = .noCode ∧ s.status.mapValid = true ∧
      decode s.cmap.lookup s.ibufAt s.inCount = .error (decFailed c pos rem s).bitPos.toNat ∧
      (decFailed c pos rem s).bitRem.toNat = 8 * s.inCount - (decFailed c pos rem s).bitPos.toNat) := by
  obtain ⟨_, rfl, rfl, rfl⟩ | ⟨_, _, rfl, rfl, rfl⟩ | ⟨hv, hn, hd, rfl, rfl⟩ := h
  · exact .inl ⟨.inl rfl, rfl, rfl⟩
  · exact .inl ⟨.inr rfl, rfl, rfl⟩
  · have hbitPos : (BitVec.ofNat 32 pos).toNat = pos :=
      toNat_ofNat_of_le_bits (decode_error_lt hd).le hn hmax
    have hbitRem : (BitVec.ofNat 32 (8 * s.inCount - pos)).toNat = 8 * s.inCount - pos :=
      toNat_ofNat_of_le_bits (Nat.sub_le _ _) hn hmax
    refine .inr ⟨rfl, hv, ?_⟩
    rw [decFailed, decFail_bitPos, decFail_bitRem, hbitPos, hbitRem]
    exact ⟨hd, rfl⟩

theorem exec_lkp_of_fails {len : BitVec 5} {pat : BitVec 16} {s : State} {c : ErrCode}
    (h : Fails (.lkp len pat) s c) :
    exec (.lkp len pat) s = .next (raiseFail c { accept s with lkpRes := lkpMiss }) := by
  rw [exec_eq]
  obtain ⟨hv, rfl⟩ := h
  exact congrArg _ (lkpBody_noMap (s := accept s) _ _ hv)

/-- `E_NONE` is the cause of no failure (R211). -/
theorem ne_none_of_fails {i : Instr} {s : State} {c : ErrCode} (h : Fails i s c) : c ≠ .none := by
  cases i with
  | clr => exact h.elim
  | ldt => obtain rfl | rfl | rfl := cause_of_fails_ldt h <;> decide
  | bld => obtain ⟨_, rfl⟩ | ⟨_, _, rfl⟩ := h <;> decide
  | dec => obtain ⟨_, rfl⟩ | ⟨_, _, rfl⟩ | ⟨_, _, _, rfl⟩ := h <;> decide
  | lkp _ _ =>
    obtain ⟨_, rfl⟩ := h
    decide

/-- A command completes with ERR and ERRCODE saying success, or with the cause it failed with (R210). -/
theorem Completion.succeeds_or_fails {i : Instr} {s t : State} (h : Completion s i t) :
    (t.status.err = false ∧ t.status.errCode = .none) ∨
      (t.status.err = true ∧ Fails i s t.status.errCode) := by
  cases h with
  | clr | ldtDone _ _ _ | bldDone _ _ _ | decDone _ _ _ _ _ | lkpMiss _ _ _ _ | lkpHit _ _ _ _ _ =>
    exact .inl ⟨rfl, rfl⟩
  | ldtLen hn => exact .inr ⟨rfl, .inl ⟨hn, rfl⟩⟩
  | ldtError _ hn hp => exact .inr ⟨rfl, .inr ⟨hn, hp⟩⟩
  | bldNoTbl hv => exact .inr ⟨rfl, .inl ⟨hv, rfl⟩⟩
  | bldOverSub hv hm => exact .inr ⟨rfl, .inr ⟨hv, hm, rfl⟩⟩
  | decNoMap hv => exact .inr ⟨rfl, .inl ⟨hv, rfl⟩⟩
  | decLen hv hn => exact .inr ⟨rfl, .inr (.inl ⟨hv, hn, rfl⟩)⟩
  | decNoCode cur hv hn hd => exact .inr ⟨rfl, .inr (.inr ⟨hv, hn, ⟨cur, hd⟩, rfl⟩)⟩
  | lkpNoMap _ _ hv => exact .inr ⟨rfl, hv, rfl⟩

theorem Completion.fails_of_err {i : Instr} {s t : State} (h : Completion s i t)
    (herr : t.status.err = true) : Fails i s t.status.errCode := by
  obtain ⟨hok, _⟩ | ⟨_, hfails⟩ := h.succeeds_or_fails
  · cases hok.symm.trans herr
  · exact hfails

/-- Settles O44: every completion succeeds or fails, and no failure has the cause `E_NONE`. -/
theorem everyCommandSucceedsOrFails : Obligations.EveryCommandSucceedsOrFails := by
  unfold Obligations.EveryCommandSucceedsOrFails
  intro i s
  have hc := completion_completed i s
  exact ⟨_, exec_eq i s, hc.not_busy, hc.succeeds_or_fails.imp_right (And.imp_right ne_none_of_fails)⟩

/-- Settles O35: each failing command's end state, read row by row. -/
theorem failuresLeaveWhatTheTableSays : Obligations.FailuresLeaveWhatTheTableSays := by
  unfold Obligations.FailuresLeaveWhatTheTableSays
  refine ⟨fun i s c hmax h => ?_, fun i s t hexec => (completion_of_exec hexec).fails_of_err,
    fun w e s hb hw => (illegalWordChangesOnlyErr s w e hw).1 hb⟩
  have hne := ne_none_of_fails h
  cases i with
  | clr => exact h.elim
  | ldt =>
    exact ⟨_, exec_ldt_of_fails h, rfl, rfl, hne, rfl, rfl, rfl, rfl, cause_of_fails_ldt h,
      rfl, rfl, rfl, rfl, rfl, rfl, rfl, rfl, rfl⟩
  | bld =>
    have hcause : (c = .noTbl ∧ s.status.tblValid = false) ∨ (c = .overSub ∧ s.status.tblValid = true) :=
      h.imp And.symm fun ⟨hv, _, hc⟩ => ⟨hc, hv⟩
    exact ⟨_, exec_bld_of_fails h, rfl, rfl, hne, rfl, rfl, rfl, rfl, hcause,
      rfl, rfl, rfl, rfl, rfl, rfl, rfl, rfl, rfl, rfl⟩
  | dec =>
    obtain ⟨pos, rem, hat⟩ := decFailsAt_of_fails h
    exact ⟨_, exec_dec_of_decFailsAt hat, rfl, rfl, hne, rfl, rfl, rfl, rfl, decFailed_position hat hmax,
      rfl, rfl, rfl, rfl, rfl, rfl, rfl, rfl⟩
  | lkp len pat =>
    have ⟨hv, hc⟩ := h
    exact ⟨_, exec_lkp_of_fails h, rfl, rfl, hne, rfl, rfl, rfl, rfl, hc, hv,
      rfl, hv, rfl, rfl, rfl, rfl, rfl, rfl, rfl, rfl, rfl⟩

/-- Settles O36: each completion is reached exactly where its cause is the first in the order of R213. -/
theorem theFirstFailureInPriorityIsReported : Obligations.TheFirstFailureInPriorityIsReported := by
  unfold Obligations.TheFirstFailureInPriorityIsReported
  refine fun s w => ⟨fun _ => ?_, fun _ => step_cmdWrite_busy⟩
  cases hw : decodeCmd w with
  | error e => exact ⟨_, runCommand_of_error hw s, rfl⟩
  | ok i =>
    obtain ⟨t, hrun, hc⟩ : ∃ t, runCommand w s = .next t ∧ Completion s i t :=
      ⟨_, runCommand_of_ok hw s, completion_completed i s⟩
    refine ⟨t, hrun, ?_⟩
    cases hc with
    | clr => rfl
    | ldtLen hn => simp [hn]
    | ldtError c hn hp => simp [Nat.not_lt.2 hn, hp]
    | ldtDone d hn hp => simp [Nat.not_lt.2 hn, hp]
    | bldNoTbl hv => simp [hv]
    | bldOverSub hv hm => simp [hv, hm]
    | bldDone m hv hm => simp [hv, hm]
    | decNoMap hv => simp [hv]
    | decLen hv hn => simp [hv, hn]
    | decNoCode cur hv hn hd => simp [hv, Nat.not_lt.2 hn, hd]
    | decDone out cur hv hn hd => simp [hv, Nat.not_lt.2 hn, hd]
    | lkpNoMap len pat hv => simp [hv]
    | lkpMiss len pat hv _ => simp [hv]
    | lkpHit len pat b hv _ => simp [hv]

/-! ### Nothing stops the block, and an idle one stays as it is (R93, R214, R221) -/

theorem runCommand_answers_next (w : Word) (s : State) : ∃ t, runCommand w s = .next t := by
  cases hw : decodeCmd w with
  | ok i => exact ⟨_, runCommand_of_ok hw s⟩
  | error e => exact ⟨_, runCommand_of_error hw s⟩

theorem regWrite_answers_next (r : Nat) (w : Word) (s : State) : ∃ t, regWrite r w s = .next t := by
  by_cases h0 : r = 0
  · subst h0
    exact runCommand_answers_next w s
  · by_cases h2 : r = 2
    · subst h2
      exact ⟨_, rfl⟩
    · exact ⟨s, regWrite_ignored h0 h2 w s⟩

theorem accessIdle_answers_next (a : HostAccess) (s : State) : ∃ t, accessIdle a s = .next t := by
  cases a with
  | regWrite r w => exact regWrite_answers_next r w s
  | regRead _ | ibufRead _ | ibufWrite _ _ | obufRead _ => exact ⟨_, rfl⟩

theorem hostEvent_answers_next (e : HostEvent) (s : State) : ∃ t, hostEvent e s = .next t := by
  cases e with
  | startCmd _ _ | wait _ | hwReset => exact ⟨_, rfl⟩
  | access a =>
    rw [hostEvent]
    split
    · exact ⟨_, rfl⟩
    · exact accessIdle_answers_next a s

/-- Settles O8: with nothing pending a unit may step, and each event of the outside answers a next state. -/
theorem stepAlwaysAnswersNext : Obligations.StepAlwaysAnswersNext := by
  unfold Obligations.StepAlwaysAnswersNext
  intro s
  cases hp : s.port with
  | nil => exact ⟨_, step_of_port_nil hp⟩
  | cons e rest =>
    have hstep : step s = hostEvent e { s with port := rest } := by rw [step, hp]
    rw [hstep]
    exact hostEvent_answers_next e _

/-- Settles O45: with nothing pending only a unit could step, and an idle block's do not. -/
theorem idleBlockKeepsItsState : Obligations.IdleBlockKeepsItsState := by
  unfold Obligations.IdleBlockKeepsItsState
  rintro s ⟨hb, -, -⟩ hp
  rw [step_of_port_nil hp, unitStep_of_idle hb]

end Sys2Proof.Machine

namespace Sys2Proof.Machine

/-! ### Completions put off (R202, R250) -/

/-- Waiting on leaves a completion that is put off as it is. -/
theorem unitStepHeld_of_held {s : State} {x : Held} (h : s.held = some x) : unitStepHeld s = s := by
  simp [unitStepHeld, h]

/-- The step that makes up a word put off is the command begun (R202). -/
theorem unitStep_holdAccepted {s : State} (hh : s.held = none) (w : Word) :
    unitStep (holdAccepted w s) = startCommand w s := by
  have hback : { holdAccepted w s with held := none } = accept s := by
    rw [← hh]
    rfl
  calc unitStep (holdAccepted w s)
      = startCommand w { holdAccepted w s with held := none } :=
        unitStep_of_held (s := holdAccepted w s) rfl rfl
    _ = startCommand w s := by rw [hback, startCommand_accept]

/-- The step that makes up a unit's results writes them (R202). -/
theorem unitStep_holdResult {s t : State} (hb : s.status.busy = true) :
    unitStep (holdResult s t) = writeResult (resultOf t) (holdResult s t) :=
  unitStep_of_held (s := holdResult s t) hb rfl

/-- Completion does not write OVR, so a write discarded before it sets OVR after it as well (R244). -/
theorem unitStep_discardWrite_holdResult {s t : State} (hb : s.status.busy = true) :
    unitStep (discardWrite (holdResult s t)) = discardWrite (unitStep (holdResult s t)) := by
  rw [unitStep_holdResult hb]
  exact unitStep_of_held (s := discardWrite (holdResult s t)) hb rfl

/-- The results of a unit's last step, put off and made up, are those of the step itself. -/
theorem unitStep_holdResult_unitStep {s : State} (hh : s.held = none) (hb : s.status.busy = true)
    (hdone : (unitStep s).status.busy = false) : unitStep (holdResult s (unitStep s)) = unitStep s := by
  have hframe := unitStep_frame hh
  rw [unitStep_holdResult hb, writeResult_holdResult hframe.ovr hdone (hframe.held.trans hh)]

theorem startHeld_of_busy {w : Word} {s : State} (h : (startCommand w s).status.busy = true) :
    startHeld w s = startCommand w s :=
  if_pos h

/-- Where the step does not complete the command, there is nothing to put off. -/
theorem unitStepHeld_of_busy {s : State} (hh : s.held = none) (h : (unitStep s).status.busy = true) :
    unitStepHeld s = unitStep s := by
  simp [unitStepHeld, hh, h]

/-- Settles O59: a word put off begins from acceptance, and results put off are all that completion
writes. -/
theorem puttingOffACompletionChangesNothing : Obligations.PuttingOffACompletionChangesNothing := by
  unfold Obligations.PuttingOffACompletionChangesNothing
  refine ⟨?accepted, ?result, fun _ _ => startHeld_of_busy, fun _ => unitStepHeld_of_busy,
    fun _ _ _ hb hp => step_startCmd_hold hp hb, fun _ _ => step_wait_hold⟩
  case accepted =>
    intro s w hh hdone
    rw [startHeld_eq_holdAccepted hdone]
    exact ⟨rfl, unitStep_holdAccepted hh w, unitStepHeld_of_held rfl⟩
  case result =>
    intro s hh hb hdone
    have hmade := unitStep_holdResult_unitStep hh hb hdone
    rw [unitStepHeld_eq_holdResult hh hb hdone]
    exact ⟨hb, hmade, unitStepHeld_of_held rfl,
      (unitStep_discardWrite_holdResult hb).trans (congrArg discardWrite hmade)⟩

/-! ### The reset input (R240) -/

theorem step_hwReset {s : State} {rest : List HostEvent} (hp : s.port = .hwReset :: rest) :
    step s = .next (hardReset { s with port := rest }) := by
  simp [step, hp, hostEvent]

theorem hardReset_idle (s : State) : (hardReset s).Idle := ⟨rfl, ⟨rfl, rfl, rfl⟩, rfl⟩

theorem regValue_hardReset (s : State) (r : Nat) :
    regValue (hardReset s) r = if r = 9 then BitVec.ofNat 32 s.ibufSize else 0#32 :=
  regValue_of_cleared (s := hardReset s) rfl rfl rfl rfl rfl rfl rfl r

/-- Settles O3: reset looks at nothing of the block but IBUF_SIZE, and the idle block that it leaves runs
the next CMD write. -/
theorem hardResetStopsEverything : Obligations.HardResetStopsEverything := by
  unfold Obligations.HardResetStopsEverything
  intro s rest hp
  exact ⟨_, step_hwReset hp, hardReset_idle _, rfl, regValue_hardReset _, obufValue_of_outValid_false rfl,
    rfl, rfl, rfl, fun _ _ hrest hw => step_cmdWrite_idle rfl hrest hw⟩

end Sys2Proof.Machine
